-- ==== Sys2Proof/Word.lean ====
section
/-! DEFINITION. The two word types of the block: a byte of the row or of a frame, and a 32-bit word of the
register interface. -/

namespace Sys2Proof

/-- A byte; bit 7 is the most significant (spec/00_scope.md R6). -/
abbrev Byte := BitVec 8

/-- A word of the register interface (spec/10_state.md R14 to R20). -/
abbrev Word := BitVec 32

end Sys2Proof
end

