-- ==== Sys2Proof/Config.lean ====
section
/-! DEFINITION. The names the spec gives to variants, entry points, outcomes and output fields, and the shape of the
configuration record (spec/00_scope.md R4, spec/10_state.md R21): the constants the block reads and nothing can write.
The values themselves are in Machine/Tables.lean. -/

namespace Sys2Proof

/-- The fifteen wire-format variants, in the order of their codes (spec/30_encoding.md R62). -/
inductive Variant where
  | wh2 | wh2a | wh5 | telldus | wh0530 | wh24 | wh65b | wh25 | wh32 | wh32b | wh0290 | wh51
  | alectoV1 | alectoV2 | alectoV2Dcf
  deriving DecidableEq, Repr

/-- The five entry points (spec/30_encoding.md R60). -/
inductive Entry where
  | wh2 | wh0530 | wh24 | wh25 | wh51
  deriving DecidableEq, Repr

/-- The outcomes of a transaction (spec/60_exceptions.md R191); codes 6 and 7 are never produced. -/
inductive OutcomeCode where
  | ok | abortLength | abortEarly | failSanity | failIntegrity | cmdIllegal
  deriving DecidableEq, Repr

/-- `STATUS.PHASE` (spec/10_state.md R13); code 3 is never entered. -/
inductive Phase where
  | idle | busy | done
  deriving DecidableEq, Repr

/-- The nineteen field registers, in the order of their `PRESENT` bits (spec/10_state.md R20). -/
inductive Field where
  | id | batt | battMv | temp | hum | press | wdir | wavg | wmax | rain | uv | uvi | light | pm25 | pm10
  | moist | boost | adRaw | rclk
  deriving DecidableEq, Repr

/-- `TEMP_POLICY` (spec/30_encoding.md R71). -/
inductive TempPolicy where
  | signMag | offset40
  deriving DecidableEq, Repr

/-- The three check functions (spec/41_integrity.md R100, R102, R103). -/
inductive CheckFn where
  | crc8 | sum8 | xorSwap8
  deriving DecidableEq, Repr

/-- One entry of `INTEGRITY[v]`: `fn` over `f[first .. last]`, compared with `f[trailer]` (spec/41_integrity.md R105). -/
structure CheckSpec where
  fn : CheckFn
  first : Nat
  last : Nat
  trailer : Nat
  deriving DecidableEq, Repr

/-- The bit slice `f[byte][hi:lo]` of a frame (spec/00_scope.md R6). -/
structure Seg where
  byte : Nat
  hi : Nat
  lo : Nat
  deriving DecidableEq, Repr

/-- The conversion operations of spec/42_unpack_scale.md: `raw` is the identity, `temp` follows `TEMP_POLICY` (R113,
R114), `rain` R116, `wind` R121, `uvIndex` R122, `battFlag` R126, `milliVolt` and `battFraction` R125. -/
inductive Conv where
  | raw | temp | rain | wind | uvIndex | battFlag | milliVolt | battFraction
  deriving DecidableEq, Repr

/-- A field descriptor (spec/42_unpack_scale.md R110). The `PRESENT` bit is that of the register. -/
structure FieldDesc where
  segs : List Seg
  width : Nat
  sentinel : Option Nat
  conv : Conv
  reg : Field
  deriving DecidableEq, Repr

/-- A sanity constant: the slice that must hold the value (spec/43_classifier.md R144). -/
structure SanitySpec where
  segs : List Seg
  value : Nat
  deriving DecidableEq, Repr

/-- The parameters the spec leaves open (spec/92_eei_decisions.md, "Open parameters"). -/
structure Params where
  rowCapBytes : Nat
  uviThresh : List Nat
  compass16 : List Nat
  wh51FrameLen : Nat
  rainFamilyTemp : TempPolicy
  rainMilliWh24 : Nat
  rainMilliWh65b : Nat
  deriving DecidableEq, Repr

/-- The configuration record (spec/00_scope.md R4). `fixedOff v` is none for the preamble-searched variants,
`tempPolicy v` none where the variant has no temperature. -/
structure Config where
  preamble : BitVec 24
  crcPoly : Byte
  crcInit : Byte
  crcRefin : Bool
  crcRefout : Bool
  crcXorout : Byte
  rowCapBytes : Nat
  bitcntWidth : Nat
  frameMax : Nat
  fixedOff : Variant → Option Nat
  frameLen : Variant → Nat
  integrity : Variant → List CheckSpec
  sanity : Variant → Option SanitySpec
  layout : Variant → List FieldDesc
  tempPolicy : Variant → Option TempPolicy
  windStepMilli : Nat
  windFactorCenti : Variant → Nat
  rainMilli : Variant → Nat
  uviThresh : List Nat
  compass16 : List Nat
  wh24LenMin : Nat
  wh24LenMax : Nat
  wh24SlackLt : Nat
  wh24OffLt : Nat
  wh25T0 : Nat
  wh25T1 : Nat
  wh25T2 : Nat
  wh25T3 : Nat

end Sys2Proof
end

