-- ==== Sys2Proof/Syntax.lean ====
section
/-! DEFINITION. The instructions: one constructor per row of spec/opcode_table.json. Five commands and three reserved
command codes have no operand in the command word (spec/30_encoding.md R60). A row or frame format carries the letters of
its pattern as operands, ignored bits included, because the checks cover them (R77); an FSK-family frame carries the row
bit it starts at as well, because the pattern covers the frame only (R65). -/

namespace Sys2Proof

/-- The 5-byte frame of WH2, WH2A, WH5 and Telldus (spec/30_encoding.md R66). `type` is 4 in a sane frame (R144). -/
structure Wh2Frame where
  type : BitVec 4
  id : BitVec 8
  temp12 : BitVec 12
  hum : BitVec 8
  crc : BitVec 8
  deriving DecidableEq, Repr

/-- The part that WH0530 and Alecto-WS1200-v1, -v2 share: `f[0..4]` below the type nibble 3 (spec/30_encoding.md R67). -/
structure RainFrame where
  id : BitVec 8
  battLow : BitVec 1
  temp11 : BitVec 11
  rainLo : BitVec 8
  rainHi : BitVec 8
  deriving DecidableEq, Repr

/-- The Alecto-WS1200-v2-DCF frame after its byte `0x52` (spec/30_encoding.md R68). -/
structure DcfFrame where
  id : BitVec 8
  battLow : BitVec 1
  ign : BitVec 7
  year : BitVec 8
  month : BitVec 8
  day : BitVec 8
  hour : BitVec 8
  minute : BitVec 8
  second : BitVec 8
  crc : BitVec 8
  sum : BitVec 8
  deriving DecidableEq, Repr

/-- The WH24 and WH65B frame (spec/30_encoding.md R69). `family` is `0x24` in a sane frame (R144). -/
structure Wh24Frame where
  family : BitVec 8
  id : BitVec 8
  wdir9 : BitVec 9
  ign : BitVec 2
  wspd9 : BitVec 9
  battLow : BitVec 1
  temp11 : BitVec 11
  hum : BitVec 8
  gust8 : BitVec 8
  rainLo : BitVec 8
  rainHi : BitVec 8
  uv16 : BitVec 16
  light24 : BitVec 24
  crc : BitVec 8
  sum : BitVec 8
  deriving DecidableEq, Repr

/-- The WH25, WH32 and WH32B frame below its type nibble (spec/30_encoding.md R70). `last` is `XSW` for WH25 and ignored
for the other two; WH32 ignores `press16`. -/
structure Wh25Frame where
  id : BitVec 8
  battLow : BitVec 1
  ign : BitVec 1
  temp10 : BitVec 10
  hum : BitVec 8
  press16 : BitVec 16
  sum : BitVec 8
  last : BitVec 8
  deriving DecidableEq, Repr

/-- The WH0290 frame (spec/30_encoding.md R73). -/
structure Wh0290Frame where
  family : BitVec 8
  id : BitVec 8
  status2 : BitVec 2
  pm25 : BitVec 14
  bars2 : BitVec 2
  pm10 : BitVec 14
  crc : BitVec 8
  sum : BitVec 8
  deriving DecidableEq, Repr

/-- The WH51 frame after its byte `0x51` (spec/30_encoding.md R74, 11 bytes). -/
structure Wh51Frame where
  id24 : BitVec 24
  boost3 : BitVec 3
  batt5 : BitVec 5
  ign5 : BitVec 8
  moist : BitVec 8
  ign7 : BitVec 7
  ad9 : BitVec 9
  crc : BitVec 8
  sum : BitVec 8
  deriving DecidableEq, Repr

/-- The instructions, one per row of spec/opcode_table.json. -/
inductive Instr where
  /-- `DECODE.WH2` (spec/43_classifier.md R132). -/
  | decodeWh2
  /-- `DECODE.WH0530` (R134). -/
  | decodeWh0530
  /-- `DECODE.WH24` (R137). -/
  | decodeWh24
  /-- `DECODE.WH25` (R139). -/
  | decodeWh25
  /-- `DECODE.WH51` (R142). -/
  | decodeWh51
  /-- `RESERVED.5` (spec/60_exceptions.md R197). -/
  | reserved5
  /-- `RESERVED.6` (R197). -/
  | reserved6
  /-- `RESERVED.7` (R197). -/
  | reserved7
  /-- A WH2 row, 48 bits. -/
  | wh2 (x : Wh2Frame)
  /-- A WH2A row, 55 bits; `pad` is the ignored sixth byte. -/
  | wh2a (x : Wh2Frame) (pad : BitVec 8)
  /-- A WH5 row, 47 bits. -/
  | wh5 (x : Wh2Frame)
  /-- A Telldus row, 49 bits. -/
  | telldus (x : Wh2Frame)
  /-- A WH0530 row, 71 bits. -/
  | wh0530 (x : RainFrame) (ign : BitVec 8) (crc : BitVec 8) (sum : BitVec 8)
  /-- An Alecto-WS1200-v1 row, 63 bits. -/
  | alectoV1 (x : RainFrame) (ign : BitVec 8) (crc : BitVec 8)
  /-- An Alecto-WS1200-v2 row, 95 bits; `ign` is `f[5..8]`. -/
  | alectoV2 (x : RainFrame) (ign : BitVec 32) (crc : BitVec 8) (sum : BitVec 8)
  /-- An Alecto-WS1200-v2-DCF row, 95 bits. -/
  | alectoV2Dcf (x : DcfFrame)
  /-- A WH24 frame at row bit `off`. -/
  | wh24 (off : BitVec 16) (x : Wh24Frame)
  /-- A WH65B frame at row bit `off`. -/
  | wh65b (off : BitVec 16) (x : Wh24Frame)
  /-- A WH25 frame at row bit `off`. -/
  | wh25 (off : BitVec 16) (x : Wh25Frame)
  /-- A WH32B frame at row bit `off`. -/
  | wh32b (off : BitVec 16) (x : Wh25Frame)
  /-- A WH32 frame at row bit `off`. -/
  | wh32 (off : BitVec 16) (x : Wh25Frame)
  /-- A WH0290 frame at row bit `off`. -/
  | wh0290 (off : BitVec 16) (x : Wh0290Frame)
  /-- A WH51 frame at row bit `off`. -/
  | wh51 (off : BitVec 16) (x : Wh51Frame)
  deriving DecidableEq, Repr

/-- What an instruction is read from: a word written to `CMD`, or a row of `n` bits in the row buffer, classified by an
entry point (spec/30_encoding.md R60, R63, R65). -/
inductive Source where
  | command (w : Word)
  | row (e : Entry) (n : Nat) (bytes : List Byte)
  deriving DecidableEq, Repr

end Sys2Proof
end

