-- ==== Sys2Proof/Machine/State.lean ====
section
/-! DEFINITION. The state of one FPL instance (spec/10_state.md R10), its reset value (R23), and the reasons for which a
step can stop. -/

namespace Sys2Proof.Machine

/-- The row buffer: (index, byte) pairs in canonical form. An unlisted index holds no value (spec/10_state.md R23). -/
abbrev Memory := List Host.Cell

/-- The canonical form: indices strictly rising. No byte equals what an unlisted index reads as, since that is no value. -/
def Memory.wf (m : Memory) : Bool :=
  match m with
  | [] => true
  | [_] => true
  | a :: b :: rest => decide (a.1 < b.1) && Memory.wf (b :: rest)

/-- The field registers with their `PRESENT` mask (spec/10_state.md R19, R20). A field register is `none` while its
`PRESENT` bit is 0: it then reads 0 and carries no value (R20). Widths are those of R20; `batt` and `temp` are two's
complement. -/
structure Record where
  present : BitVec 32
  id : Option (BitVec 24)
  batt : Option (BitVec 16)
  battMv : Option (BitVec 12)
  temp : Option (BitVec 16)
  hum : Option (BitVec 8)
  press : Option (BitVec 16)
  wdir : Option (BitVec 9)
  wavg : Option (BitVec 24)
  wmax : Option (BitVec 24)
  rain : Option (BitVec 25)
  uv : Option (BitVec 16)
  uvi : Option (BitVec 4)
  light : Option (BitVec 24)
  pm25 : Option (BitVec 14)
  pm10 : Option (BitVec 14)
  moist : Option (BitVec 8)
  boost : Option (BitVec 3)
  adRaw : Option (BitVec 9)
  rclk : Option (BitVec 48)
  deriving DecidableEq, Repr

/-- No field present (spec/10_state.md R23, R24). -/
def Record.empty : Record :=
  ⟨0, none, none, none, none, none, none, none, none, none, none, none, none, none, none, none, none, none, none, none⟩

/-- One access of the host: a write or a read of the register at a byte offset of the map (spec/20_memory.md R45), or the
reset input (spec/70_reset_and_hazards.md R210). -/
inductive HostOp where
  | write (off : Nat) (v : Word)
  | read (off : Nat)
  | reset
  deriving DecidableEq, Repr

/-- The state. `port` and `rdata` are the model's own: the accesses the host will make next, and the word its last read
returned (notes/assumptions 1 and 2). All other fields are the spec's registers; `variant` none is the code `NONE`. -/
structure State where
  bitcnt : BitVec 16
  row : List Host.Cell
  phase : Phase
  outcome : OutcomeCode
  variant : Option Variant
  micOk : Bool
  bitoff : BitVec 16
  flen : BitVec 5
  frame : Vector Byte 17
  record : Record
  port : List HostOp
  rdata : Word
  deriving DecidableEq, Repr

/-- `FRAME[0..16]` all 0 (spec/10_state.md R23, R24). -/
def zeroFrame : Vector Byte 17 := Vector.ofFn (fun _ => 0)

/-- The machine right after reset (spec/10_state.md R23): the outputs are clear, `ROW` holds no value. The host has no
access pending. -/
def State.reset : State :=
  ⟨0, [], .idle, .ok, none, false, 0, 0, zeroFrame, Record.empty, [], 0⟩

/-- Why a step stops with a fault. -/
inductive Fault where
  /-- Raised by a host access at an offset past the register map (spec/20_memory.md R40, R45 name none). Safe: a bus may
  answer such an access in some way the spec does not give. -/
  | outsideMap (off : Nat)
  deriving DecidableEq, Repr

/-- Why a step has no meaning. -/
inductive Refusal where
  /-- Raised by an arm of exec whose instruction has no meaning yet. Safe: the machine stops. No arm raises it. -/
  | notModelled (mnemonic : String)
  /-- Raised by a transaction or a host read that reads a `ROW` byte holding no value, at index `k`
  (spec/70_reset_and_hazards.md R212: "the model refuses it"). Safe: the machine stops where hardware goes on. -/
  | unwrittenRow (k : Nat)
  /-- Raised by a host access while `PHASE = BUSY` other than reset or a read of STATUS (spec/70_reset_and_hazards.md
  R217). Safe: the machine stops, and no reachable state is busy. -/
  | busyAccess (off : Nat)
  /-- Raised by a host access at an offset inside a register that is not the register's own (spec/20_memory.md R52: one
  register per access, byte lanes are the platform's). Safe: the machine stops. -/
  | partialAccess (off : Nat)
  deriving DecidableEq, Repr

end Sys2Proof.Machine
end

