-- ==== Sys2Proof/Machine/Flags.lean ====
section
/-! DEFINITION. The status word and the `PRESENT` bits: every code and flag bit of spec/10_state.md R17, R19, R20 and
spec/30_encoding.md R60, R62. -/

namespace Sys2Proof.Machine

/-- `PHASE` codes (spec/10_state.md R13). -/
def phaseCode : Phase → BitVec 2
  | .idle => 0 | .busy => 1 | .done => 2

/-- `OUTCOME` codes (spec/10_state.md R17). -/
def outcomeCode : OutcomeCode → BitVec 3
  | .ok => 0 | .abortLength => 1 | .abortEarly => 2 | .failSanity => 3 | .failIntegrity => 4 | .cmdIllegal => 5

/-- `VARIANT` codes (spec/30_encoding.md R62). -/
def variantCode : Variant → BitVec 4
  | .wh2 => 0 | .wh2a => 1 | .wh5 => 2 | .telldus => 3 | .wh0530 => 4 | .wh24 => 5 | .wh65b => 6 | .wh25 => 7
  | .wh32 => 8 | .wh32b => 9 | .wh0290 => 10 | .wh51 => 11 | .alectoV1 => 12 | .alectoV2 => 13 | .alectoV2Dcf => 14

/-- The `VARIANT` field: 15 is `NONE` (spec/10_state.md R17). -/
def variantField : Option Variant → BitVec 4
  | none => 15
  | some v => variantCode v

/-- `ENTRY` codes (spec/30_encoding.md R60). -/
def entryCode : Entry → BitVec 3
  | .wh2 => 0 | .wh0530 => 1 | .wh24 => 2 | .wh25 => 3 | .wh51 => 4

/-- The `PRESENT` bit of a field register (spec/10_state.md R20). -/
def presentBit : Field → Nat
  | .id => 0 | .batt => 1 | .battMv => 2 | .temp => 3 | .hum => 4 | .press => 5 | .wdir => 6 | .wavg => 7 | .wmax => 8
  | .rain => 9 | .uv => 10 | .uvi => 11 | .light => 12 | .pm25 => 13 | .pm10 => 14 | .moist => 15 | .boost => 16
  | .adRaw => 17 | .rclk => 18

/-- The `PRESENT` bit of `mic` (spec/10_state.md R19). -/
def micBit : Nat := 19

/-- `PRESENT[n] <- 1`. -/
def setPresentBit (mask : BitVec 32) (n : Nat) : BitVec 32 := mask ||| BitVec.twoPow 32 n

/-- The word `STATUS` reads as (spec/10_state.md R17): `PHASE | OUTCOME << 2 | VARIANT << 5 | MIC_OK << 9`. -/
def statusWord (s : State) : Word :=
  (0 : BitVec 22) ++ BitVec.ofBool s.micOk ++ variantField s.variant ++ outcomeCode s.outcome ++ phaseCode s.phase

end Sys2Proof.Machine
end

