-- ==== Sys2Proof/Machine/Ops.lean ====
section
/-! DEFINITION. The named operations over the row buffer and the output registers: reading and writing a byte of `ROW`,
raising an outcome (the block's exceptions) and committing a record. -/

namespace Sys2Proof.Machine

/-- `ROW[k]`, none where the byte holds no value (spec/10_state.md R23). -/
def Memory.read : Memory → Nat → Option Byte
  | [], _ => none
  | (a, b) :: rest, k => if a = k then some b else Memory.read rest k

/-- `ROW[k] <- b`, keeping the canonical form. -/
def Memory.write : Memory → Nat → Byte → Memory
  | [], k, b => [(k, b)]
  | (a, c) :: rest, k, b =>
    if k < a then (k, b) :: (a, c) :: rest
    else if k = a then (k, b) :: rest
    else (a, c) :: Memory.write rest k b

/-- `bytes` at the indices from `k` on, and nothing else. -/
def Memory.ofBytesFrom (k : Nat) : List Byte → Memory
  | [] => []
  | b :: rest => (k, b) :: Memory.ofBytesFrom (k + 1) rest

/-- The row buffer holding exactly `bytes` from `ROW[0]` on. -/
def Memory.ofBytes (bytes : List Byte) : Memory := Memory.ofBytesFrom 0 bytes

/-- The reasons for which a stage of a transaction ends early: an outcome of spec/60_exceptions.md R191, or a read of a
row byte that holds no value (spec/70_reset_and_hazards.md R212). -/
inductive Stop where
  | outcome (o : OutcomeCode)
  | unwritten (k : Nat)
  deriving DecidableEq, Repr

/-- What classification ends with: the final variant, the bit offset, the extracted frame (spec/43_classifier.md R130). -/
structure Located where
  variant : Variant
  off : Nat
  frame : List Byte
  deriving DecidableEq, Repr

/-- `FRAME[k] <- f[k]` for `k < L`, 0 above (spec/10_state.md R24). -/
def frameRegisters (f : List Byte) : Vector Byte 17 := Vector.ofFn (fun k : Fin 17 => f.getD k.val 0)

/-- Taking an exception: the one output write of every outcome but `OK` (spec/10_state.md R24, spec/60_exceptions.md R190,
R200). `PHASE` becomes `DONE`, every result register is cleared, no input register changes. There is no return operation
beside it: "Return is the host's next CMD write. Nothing needs restoring" (R201). -/
def raise (o : OutcomeCode) (s : State) : State :=
  { s with
    phase := .done
    outcome := o
    variant := none
    micOk := false
    bitoff := 0
    flen := 0
    frame := zeroFrame
    record := Record.empty }

/-- The output write of the outcome `OK` (spec/10_state.md R24): `len` is `FRAME_LEN[v]`. -/
def commit (l : Located) (len : Nat) (r : Record) (s : State) : State :=
  { s with
    phase := .done
    outcome := .ok
    variant := some l.variant
    micOk := true
    bitoff := BitVec.ofNat 16 l.off
    flen := BitVec.ofNat 5 len
    frame := frameRegisters l.frame
    record := r }

/-- `REG <- n ; PRESENT[bit of REG] <- 1` (spec/44_decode_pwm.md R150). -/
def Record.set (r : Record) (reg : Field) (n : Int) : Record :=
  let p := setPresentBit r.present (presentBit reg)
  match reg with
  | .id => { r with present := p, id := some (BitVec.ofInt 24 n) }
  | .batt => { r with present := p, batt := some (BitVec.ofInt 16 n) }
  | .battMv => { r with present := p, battMv := some (BitVec.ofInt 12 n) }
  | .temp => { r with present := p, temp := some (BitVec.ofInt 16 n) }
  | .hum => { r with present := p, hum := some (BitVec.ofInt 8 n) }
  | .press => { r with present := p, press := some (BitVec.ofInt 16 n) }
  | .wdir => { r with present := p, wdir := some (BitVec.ofInt 9 n) }
  | .wavg => { r with present := p, wavg := some (BitVec.ofInt 24 n) }
  | .wmax => { r with present := p, wmax := some (BitVec.ofInt 24 n) }
  | .rain => { r with present := p, rain := some (BitVec.ofInt 25 n) }
  | .uv => { r with present := p, uv := some (BitVec.ofInt 16 n) }
  | .uvi => { r with present := p, uvi := some (BitVec.ofInt 4 n) }
  | .light => { r with present := p, light := some (BitVec.ofInt 24 n) }
  | .pm25 => { r with present := p, pm25 := some (BitVec.ofInt 14 n) }
  | .pm10 => { r with present := p, pm10 := some (BitVec.ofInt 14 n) }
  | .moist => { r with present := p, moist := some (BitVec.ofInt 8 n) }
  | .boost => { r with present := p, boost := some (BitVec.ofInt 3 n) }
  | .adRaw => { r with present := p, adRaw := some (BitVec.ofInt 9 n) }
  | .rclk => { r with present := p, rclk := some (BitVec.ofInt 48 n) }

/-- The value a field register holds, as the integer it stands for (spec/10_state.md R20): none where it carries none.
`batt` and `temp` are signed. -/
def Record.value (r : Record) : Field → Option Int
  | .id => r.id.map (fun x => (x.toNat : Int))
  | .batt => r.batt.map BitVec.toInt
  | .battMv => r.battMv.map (fun x => (x.toNat : Int))
  | .temp => r.temp.map BitVec.toInt
  | .hum => r.hum.map (fun x => (x.toNat : Int))
  | .press => r.press.map (fun x => (x.toNat : Int))
  | .wdir => r.wdir.map (fun x => (x.toNat : Int))
  | .wavg => r.wavg.map (fun x => (x.toNat : Int))
  | .wmax => r.wmax.map (fun x => (x.toNat : Int))
  | .rain => r.rain.map (fun x => (x.toNat : Int))
  | .uv => r.uv.map (fun x => (x.toNat : Int))
  | .uvi => r.uvi.map (fun x => (x.toNat : Int))
  | .light => r.light.map (fun x => (x.toNat : Int))
  | .pm25 => r.pm25.map (fun x => (x.toNat : Int))
  | .pm10 => r.pm10.map (fun x => (x.toNat : Int))
  | .moist => r.moist.map (fun x => (x.toNat : Int))
  | .boost => r.boost.map (fun x => (x.toNat : Int))
  | .adRaw => r.adRaw.map (fun x => (x.toNat : Int))
  | .rclk => r.rclk.map (fun x => (x.toNat : Int))

end Sys2Proof.Machine
end

