-- ==== Sys2Proof/Machine/Operands.lean ====
section
/-! DEFINITION. Every operand form: reading bits of the row (spec/00_scope.md R7, spec/20_memory.md R41) and assembling a
raw field from frame bits (spec/30_encoding.md R75). -/

namespace Sys2Proof.Machine

/-- `rowbit(i)`: bit `7 - (i mod 8)` of `ROW[i div 8]` (spec/00_scope.md R6, R7). -/
def rowBit (m : Memory) (i : Nat) : Except Stop Bool :=
  match Memory.read m (i / 8) with
  | some b => .ok (b.getLsbD (7 - i % 8))
  | none => .error (.unwritten (i / 8))

/-- `RowRead(off, n)`: the `n` row bits from `off` on as an unsigned value, the first the most significant
(spec/00_scope.md R7). `n = 0` gives 0. -/
def rowRead (m : Memory) (off : Nat) : Nat → Except Stop Nat
  | 0 => .ok 0
  | n + 1 => do
    let hi ← rowRead m off n
    let b ← rowBit m (off + n)
    .ok (2 * hi + b.toNat)

/-- The `len` bytes `RowRead(off + 8k, 8)` (spec/20_memory.md R41). -/
def rowFrame (m : Memory) (off : Nat) : Nat → Except Stop (List Byte)
  | 0 => .ok []
  | len + 1 => do
    let b ← rowRead m off 8
    let rest ← rowFrame m (off + 8) len
    .ok (BitVec.ofNat 8 b :: rest)

/-- `b[hi:lo]` (spec/00_scope.md R6). -/
def byteSlice (b : Byte) (hi lo : Nat) : Nat := b.toNat / 2 ^ lo % 2 ^ (hi - lo + 1)

/-- The raw value of a field: its parts concatenated, the first listed the most significant (spec/30_encoding.md R75). -/
def rawFrom (f : List Byte) (acc : Nat) : List Seg → Nat
  | [] => acc
  | g :: rest => rawFrom f (acc * 2 ^ (g.hi - g.lo + 1) + byteSlice (f.getD g.byte 0) g.hi g.lo) rest

/-- The raw value of the field whose parts are `segs`, on the frame `f`. -/
def rawValue (f : List Byte) (segs : List Seg) : Nat := rawFrom f 0 segs

/-- The summed width of a field's parts (spec/30_encoding.md R75). -/
def segsWidth : List Seg → Nat
  | [] => 0
  | g :: rest => (g.hi - g.lo + 1) + segsWidth rest

end Sys2Proof.Machine
end

