-- ==== Sys2Proof/Machine/Tables.lean ====
section
/-! DEFINITION. The constant tables at the values the spec gives (spec/00_scope.md R4): offsets and lengths
(spec/30_encoding.md R64), integrity (spec/41_integrity.md R105), sanity constants (spec/43_classifier.md R144), layouts
(spec/30_encoding.md R66 to R74 with the sentinels and conversions of spec/44_decode_pwm.md and spec/45_decode_fsk.md),
temperature policy (spec/30_encoding.md R71), scales, thresholds, declared field sets (spec/30_encoding.md R72). -/

namespace Sys2Proof.Machine

/-- The open parameters at their defaults (spec/00_scope.md R4, spec/92_eei_decisions.md). -/
def defaultParams : Params where
  rowCapBytes := 128
  uviThresh := [432, 851, 1210, 1570, 2017, 2450, 2761, 3100, 3512, 3918, 4277, 4650, 5029]
  compass16 := [0, 23, 45, 68, 90, 113, 135, 158, 180, 203, 225, 248, 270, 293, 315, 338]
  wh51FrameLen := 11
  rainFamilyTemp := .offset40
  rainMilliWh24 := 300
  rainMilliWh65b := 254

/-- `FIXED_OFF[v]` (spec/30_encoding.md R64, spec/40_locator.md R93); none for the preamble-searched variants. -/
def fixedOffTable : Variant → Option Nat
  | .wh2 => some 8 | .wh2a => some 7 | .wh5 => some 7 | .telldus => some 9
  | .wh0530 => some 7 | .alectoV1 => some 7 | .alectoV2 => some 7 | .alectoV2Dcf => some 7
  | .wh24 => none | .wh65b => none | .wh25 => none | .wh32 => none | .wh32b => none | .wh0290 => none | .wh51 => none

/-- `FRAME_LEN[v]` (spec/30_encoding.md R64). -/
def frameLenTable (p : Params) : Variant → Nat
  | .wh2 => 5 | .wh2a => 6 | .wh5 => 5 | .telldus => 5
  | .wh0530 => 8 | .alectoV1 => 7 | .alectoV2 => 11 | .alectoV2Dcf => 11
  | .wh24 => 17 | .wh65b => 17 | .wh25 => 8 | .wh32 => 8 | .wh32b => 8 | .wh0290 => 8 | .wh51 => p.wh51FrameLen

/-- `CRC8` over `L - 2` bytes and `SUM8` over `L - 1` bytes, each against the byte that follows. -/
def crcThenSum (len : Nat) : List CheckSpec :=
  [⟨.crc8, 0, len - 3, len - 2⟩, ⟨.sum8, 0, len - 2, len - 1⟩]

/-- `INTEGRITY[v]` (spec/41_integrity.md R105). -/
def integrityTable (p : Params) : Variant → List CheckSpec
  | .wh2 => [⟨.crc8, 0, 3, 4⟩]
  | .wh5 => [⟨.crc8, 0, 3, 4⟩]
  | .telldus => [⟨.crc8, 0, 3, 4⟩]
  | .wh2a => [⟨.crc8, 0, 3, 4⟩]
  | .alectoV1 => [⟨.crc8, 0, 5, 6⟩]
  | .wh0530 => crcThenSum 8
  | .alectoV2 => crcThenSum 11
  | .alectoV2Dcf => crcThenSum 11
  | .wh24 => crcThenSum 17
  | .wh65b => crcThenSum 17
  | .wh25 => [⟨.sum8, 0, 5, 6⟩, ⟨.xorSwap8, 0, 5, 7⟩]
  | .wh32 => [⟨.sum8, 0, 5, 6⟩]
  | .wh32b => [⟨.sum8, 0, 5, 6⟩]
  | .wh0290 => crcThenSum 8
  | .wh51 => crcThenSum p.wh51FrameLen

/-- The sanity constants (spec/43_classifier.md R144). -/
def sanityTable : Variant → Option SanitySpec
  | .wh2 => some ⟨[⟨0, 7, 4⟩], 0x4⟩
  | .wh2a => some ⟨[⟨0, 7, 4⟩], 0x4⟩
  | .wh5 => some ⟨[⟨0, 7, 4⟩], 0x4⟩
  | .telldus => some ⟨[⟨0, 7, 4⟩], 0x4⟩
  | .wh24 => some ⟨[⟨0, 7, 0⟩], 0x24⟩
  | .wh65b => some ⟨[⟨0, 7, 0⟩], 0x24⟩
  | .wh0530 => none | .alectoV1 => none | .alectoV2 => none | .alectoV2Dcf => none
  | .wh25 => none | .wh32 => none | .wh32b => none | .wh0290 => none | .wh51 => none

/-- WH2, WH2A, WH5, Telldus: positions R66, decoders spec/44_decode_pwm.md R151, R152. -/
def wh2Layout : List FieldDesc :=
  [⟨[⟨0, 3, 0⟩, ⟨1, 7, 4⟩], 8, none, .raw, .id⟩,
   ⟨[⟨1, 3, 0⟩, ⟨2, 7, 0⟩], 12, none, .temp, .temp⟩,
   ⟨[⟨3, 7, 0⟩], 8, some 0xFF, .raw, .hum⟩]

/-- WH0530, Alecto-WS1200-v1, -v2: positions R67, decoder spec/44_decode_pwm.md R153. -/
def rainLayout : List FieldDesc :=
  [⟨[⟨0, 3, 0⟩, ⟨1, 7, 4⟩], 8, none, .raw, .id⟩,
   ⟨[⟨1, 3, 3⟩], 1, none, .battFlag, .batt⟩,
   ⟨[⟨1, 2, 0⟩, ⟨2, 7, 0⟩], 11, none, .temp, .temp⟩,
   ⟨[⟨4, 7, 0⟩, ⟨3, 7, 0⟩], 16, none, .rain, .rain⟩]

/-- Alecto-WS1200-v2-DCF: positions R68, decoder spec/44_decode_pwm.md R156, R158. -/
def dcfLayout : List FieldDesc :=
  [⟨[⟨1, 7, 0⟩], 8, none, .raw, .id⟩,
   ⟨[⟨2, 7, 7⟩], 1, none, .battFlag, .batt⟩,
   ⟨[⟨3, 7, 0⟩, ⟨4, 7, 0⟩, ⟨5, 7, 0⟩, ⟨6, 7, 0⟩, ⟨7, 7, 0⟩, ⟨8, 7, 0⟩], 48, none, .raw, .rclk⟩]

/-- WH24, WH65B: positions R69, decoder spec/45_decode_fsk.md R170. -/
def wh24Layout : List FieldDesc :=
  [⟨[⟨1, 7, 0⟩], 8, none, .raw, .id⟩,
   ⟨[⟨3, 3, 3⟩], 1, none, .battFlag, .batt⟩,
   ⟨[⟨3, 2, 0⟩, ⟨4, 7, 0⟩], 11, some 0x7FF, .temp, .temp⟩,
   ⟨[⟨5, 7, 0⟩], 8, some 0xFF, .raw, .hum⟩,
   ⟨[⟨3, 7, 7⟩, ⟨2, 7, 0⟩], 9, some 0x1FF, .raw, .wdir⟩,
   ⟨[⟨3, 4, 4⟩, ⟨6, 7, 0⟩], 9, some 0x1FF, .wind, .wavg⟩,
   ⟨[⟨7, 7, 0⟩], 8, some 0xFF, .wind, .wmax⟩,
   ⟨[⟨9, 7, 0⟩, ⟨8, 7, 0⟩], 16, none, .rain, .rain⟩,
   ⟨[⟨10, 7, 0⟩, ⟨11, 7, 0⟩], 16, some 0xFFFF, .raw, .uv⟩,
   ⟨[⟨10, 7, 0⟩, ⟨11, 7, 0⟩], 16, some 0xFFFF, .uvIndex, .uvi⟩,
   ⟨[⟨12, 7, 0⟩, ⟨13, 7, 0⟩, ⟨14, 7, 0⟩], 24, some 0xFFFFFF, .raw, .light⟩]

/-- WH32: positions R70, decoder spec/45_decode_fsk.md R172. -/
def wh32Layout : List FieldDesc :=
  [⟨[⟨0, 3, 0⟩, ⟨1, 7, 4⟩], 8, none, .raw, .id⟩,
   ⟨[⟨1, 3, 3⟩], 1, none, .battFlag, .batt⟩,
   ⟨[⟨1, 1, 0⟩, ⟨2, 7, 0⟩], 10, none, .temp, .temp⟩,
   ⟨[⟨3, 7, 0⟩], 8, some 0xFF, .raw, .hum⟩]

/-- WH25, WH32B: WH32's fields and the pressure (spec/45_decode_fsk.md R172). -/
def wh25Layout : List FieldDesc :=
  wh32Layout ++ [⟨[⟨4, 7, 0⟩, ⟨5, 7, 0⟩], 16, some 0xFFFF, .raw, .press⟩]

/-- WH0290: positions R73, decoder spec/45_decode_fsk.md R173. -/
def wh0290Layout : List FieldDesc :=
  [⟨[⟨1, 7, 0⟩], 8, none, .raw, .id⟩,
   ⟨[⟨4, 7, 6⟩], 2, none, .raw, .batt⟩,
   ⟨[⟨2, 5, 0⟩, ⟨3, 7, 0⟩], 14, none, .raw, .pm25⟩,
   ⟨[⟨4, 5, 0⟩, ⟨5, 7, 0⟩], 14, none, .raw, .pm10⟩]

/-- WH51: positions R74, decoder spec/45_decode_fsk.md R174. -/
def wh51Layout : List FieldDesc :=
  [⟨[⟨1, 7, 0⟩, ⟨2, 7, 0⟩, ⟨3, 7, 0⟩], 24, none, .raw, .id⟩,
   ⟨[⟨4, 4, 0⟩], 5, none, .milliVolt, .battMv⟩,
   ⟨[⟨4, 4, 0⟩], 5, none, .battFraction, .batt⟩,
   ⟨[⟨4, 7, 5⟩], 3, none, .raw, .boost⟩,
   ⟨[⟨6, 7, 0⟩], 8, none, .raw, .moist⟩,
   ⟨[⟨7, 0, 0⟩, ⟨8, 7, 0⟩], 9, none, .raw, .adRaw⟩]

/-- `LAYOUT[v]` (spec/30_encoding.md R66 to R74). -/
def layoutTable : Variant → List FieldDesc
  | .wh2 => wh2Layout | .wh2a => wh2Layout | .wh5 => wh2Layout | .telldus => wh2Layout
  | .wh0530 => rainLayout | .alectoV1 => rainLayout | .alectoV2 => rainLayout
  | .alectoV2Dcf => dcfLayout
  | .wh24 => wh24Layout | .wh65b => wh24Layout
  | .wh25 => wh25Layout | .wh32b => wh25Layout | .wh32 => wh32Layout
  | .wh0290 => wh0290Layout | .wh51 => wh51Layout

/-- `TEMP_POLICY[v]` (spec/30_encoding.md R71). -/
def tempPolicyTable (p : Params) : Variant → Option TempPolicy
  | .wh2 => some .signMag | .wh2a => some .signMag | .telldus => some .signMag
  | .wh5 => some .offset40
  | .wh24 => some .offset40 | .wh65b => some .offset40
  | .wh25 => some .offset40 | .wh32 => some .offset40 | .wh32b => some .offset40
  | .wh0530 => some p.rainFamilyTemp | .alectoV1 => some p.rainFamilyTemp | .alectoV2 => some p.rainFamilyTemp
  | .wh0290 => none | .wh51 => none | .alectoV2Dcf => none

/-- `WIND_FACTOR[v]` in hundredths: 1.12 for WH24, 0.51 for WH65B (spec/00_scope.md R4); no other variant has wind. -/
def windFactorTable : Variant → Nat
  | .wh24 => 112
  | .wh65b => 51
  | .wh2 | .wh2a | .wh5 | .telldus | .wh0530 | .alectoV1 | .alectoV2 | .alectoV2Dcf
  | .wh25 | .wh32 | .wh32b | .wh0290 | .wh51 => 0

/-- `RAIN_MILLI[v]` (spec/00_scope.md R4); variants without rain have none. -/
def rainMilliTable (p : Params) : Variant → Nat
  | .wh0530 => 300 | .alectoV1 => 300 | .alectoV2 => 300
  | .wh24 => p.rainMilliWh24
  | .wh65b => p.rainMilliWh65b
  | .wh2 | .wh2a | .wh5 | .telldus | .alectoV2Dcf | .wh25 | .wh32 | .wh32b | .wh0290 | .wh51 => 0

/-- The configuration record for given open parameters (spec/00_scope.md R4). -/
def configOf (p : Params) : Config where
  preamble := 0xAA2DD4
  crcPoly := 0x31
  crcInit := 0x00
  crcRefin := false
  crcRefout := false
  crcXorout := 0x00
  rowCapBytes := p.rowCapBytes
  bitcntWidth := 16
  frameMax := 17
  fixedOff := fixedOffTable
  frameLen := frameLenTable p
  integrity := integrityTable p
  sanity := sanityTable
  layout := layoutTable
  tempPolicy := tempPolicyTable p
  windStepMilli := 125
  windFactorCenti := windFactorTable
  rainMilli := rainMilliTable p
  uviThresh := p.uviThresh
  compass16 := p.compass16
  wh24LenMin := 190
  wh24LenMax := 215
  wh24SlackLt := 8
  wh24OffLt := 61
  wh25T0 := 160
  wh25T1 := 190
  wh25T2 := 440
  wh25T3 := 510

/-- The configuration the machine runs with: the spec's defaults. -/
def fpl : Config := configOf defaultParams

/-- `WIND_E5[v] = 100000 * WIND_STEP * WIND_FACTOR[v]` (spec/00_scope.md R4): 14000 for WH24, 6375 for WH65B. -/
def windE5 (c : Config) (v : Variant) : Nat := c.windStepMilli * c.windFactorCenti v

/-- `DEN`, the denominator of a field register's physical value `N / DEN` (spec/10_state.md R20). -/
def denominator (v : Variant) : Field → Nat
  | .batt => match v with
    | .wh0290 => 5
    | .wh51 => 900
    | .wh2 | .wh2a | .wh5 | .telldus | .wh0530 | .alectoV1 | .alectoV2 | .alectoV2Dcf | .wh24 | .wh65b
    | .wh25 | .wh32 | .wh32b => 1
  | .temp => 10 | .press => 10 | .light => 10 | .pm25 => 10 | .pm10 => 10
  | .wavg => 100000 | .wmax => 100000
  | .rain => 1000
  | .id => 1 | .battMv => 1 | .hum => 1 | .wdir => 1 | .uv => 1 | .uvi => 1 | .moist => 1 | .boost => 1
  | .adRaw => 1 | .rclk => 1

/-- The mask of a list of `PRESENT` bits. -/
def maskOf (bits : List Nat) : BitVec 32 := bits.foldl setPresentBit 0

/-- The declared field set of a variant, as a `PRESENT` mask (spec/30_encoding.md R72, "S" and "s"). -/
def declaredMask : Variant → BitVec 32
  | .wh2 | .wh2a | .wh5 | .telldus => maskOf [0, 3, 4, 19]
  | .wh0530 | .alectoV1 | .alectoV2 => maskOf [0, 1, 3, 9, 19]
  | .alectoV2Dcf => maskOf [0, 1, 18, 19]
  | .wh24 | .wh65b => maskOf [0, 1, 3, 4, 6, 7, 8, 9, 10, 11, 12, 19]
  | .wh25 | .wh32b => maskOf [0, 1, 3, 4, 5, 19]
  | .wh32 => maskOf [0, 1, 3, 4, 19]
  | .wh0290 => maskOf [0, 1, 13, 14, 19]
  | .wh51 => maskOf [0, 1, 2, 15, 16, 17, 19]

/-- The fields a variant sets always (spec/30_encoding.md R72, "S"). -/
def alwaysMask : Variant → BitVec 32
  | .wh2 | .wh2a | .wh5 | .telldus => maskOf [0, 3, 19]
  | .wh0530 | .alectoV1 | .alectoV2 => maskOf [0, 1, 3, 9, 19]
  | .alectoV2Dcf => maskOf [0, 1, 18, 19]
  | .wh24 | .wh65b => maskOf [0, 1, 9, 19]
  | .wh25 | .wh32b => maskOf [0, 1, 3, 19]
  | .wh32 => maskOf [0, 1, 3, 19]
  | .wh0290 => maskOf [0, 1, 13, 14, 19]
  | .wh51 => maskOf [0, 1, 2, 15, 16, 17, 19]

end Sys2Proof.Machine
end

