-- ==== Sys2Proof/Machine/Locator.lean ====
section
/-! DEFINITION. The frame preamble locator and the byte-frame extractor (spec/40_locator.md). `n` is `bit_count`. -/

namespace Sys2Proof.Machine

/-- The search loop of `LOCATE_PREAMBLE` from index `i` on, at most `fuel` indices (spec/40_locator.md R91). -/
def searchPreamble (c : Config) (n : Nat) (m : Memory) : Nat → Nat → Except Stop (Option Nat)
  | 0, _ => .ok none
  | fuel + 1, i =>
    if i + 24 ≤ n then do
      let x ← rowRead m i 24
      if x = c.preamble.toNat then .ok (some i) else searchPreamble c n m fuel (i + 1)
    else .ok none

/-- `LOCATE_PREAMBLE()`: the smallest index at which all 24 bits match, none for `NOTFOUND` (spec/40_locator.md R91). -/
def locatePreamble (c : Config) (n : Nat) (m : Memory) : Except Stop (Option Nat) :=
  searchPreamble c n m (n + 1) 0

/-- `EXTRACT(off, L)` (spec/40_locator.md R92). -/
def extract (n : Nat) (m : Memory) (off len : Nat) : Except Stop (List Byte) :=
  if n < off + 8 * len then .error (.outcome .abortLength) else rowFrame m off len

/-- `LOCATE_FSK(L)` (spec/40_locator.md R94): the offset just after the preamble, and the frame. -/
def locateFsk (c : Config) (n : Nat) (m : Memory) (len : Nat) : Except Stop (Nat × List Byte) := do
  match ← locatePreamble c n m with
  | none => .error (.outcome .abortLength)
  | some i => do
    let f ← extract n m (i + 24) len
    .ok (i + 24, f)

/-- `LOCATE_FIXED(v)` and the extraction that follows it (spec/40_locator.md R93). A variant without a fixed offset is
never asked for here. -/
def locateFixed (c : Config) (n : Nat) (m : Memory) (v : Variant) : Except Stop Located :=
  match c.fixedOff v with
  | none => .error (.outcome .abortLength)
  | some off => do
    let f ← extract n m off (c.frameLen v)
    .ok ⟨v, off, f⟩

end Sys2Proof.Machine
end

