-- ==== Sys2Proof/Machine/Classifier.lean ====
section
/-! DEFINITION. The variant discriminator (spec/43_classifier.md): each command's decision tree, from `bit_count` `n` and
the row to the final variant, its bit offset and its frame, or to the outcome that ends the transaction. -/

namespace Sys2Proof.Machine

/-- A header test: `RowRead(off, w) == value`, else `ABORT_EARLY` (spec/43_classifier.md R145). -/
def headerTest (m : Memory) (off w value : Nat) : Except Stop Unit := do
  let x ← rowRead m off w
  if x = value then .ok () else .error (.outcome .abortEarly)

/-- `E_WH2` (spec/43_classifier.md R132). The header test of WH2A and WH5 reads row bit 7, which is `f[0][7]`: a row with
that bit flipped ends in `ABORT_EARLY` here, where spec/41_integrity.md R107 counts the whole `TYPE` nibble of the family
as `FAIL_INTEGRITY` (DESIGN CHOICE, notes/assumptions 18). The two tests of `HDR_FF9` run in order (DESIGN CHOICE,
notes/assumptions 13). -/
def treeWh2 (c : Config) (n : Nat) (m : Memory) : Except Stop Located :=
  if n = 48 then do
    headerTest m 0 8 0xFF
    locateFixed c n m .wh2
  else if n = 55 then do
    headerTest m 0 8 0xFE
    locateFixed c n m .wh2a
  else if n = 47 then do
    headerTest m 0 8 0xFE
    locateFixed c n m .wh5
  else if n = 49 then do
    headerTest m 0 8 0xFF
    headerTest m 8 1 1
    locateFixed c n m .telldus
  else .error (.outcome .abortLength)

/-- `ALECTO_V1` (spec/43_classifier.md R135). -/
def treeAlectoV1 (c : Config) (n : Nat) (m : Memory) : Except Stop Located := do
  headerTest m 0 7 0x7F
  headerTest m 7 4 0x3
  locateFixed c n m .alectoV1

/-- `ALECTO_V2` (spec/43_classifier.md R136): the byte test first, then the type nibble. -/
def treeAlectoV2 (c : Config) (n : Nat) (m : Memory) : Except Stop Located := do
  headerTest m 0 7 0x7F
  let t ← rowRead m 7 8
  if t = 0x52 then locateFixed c n m .alectoV2Dcf
  else do
    headerTest m 7 4 0x3
    locateFixed c n m .alectoV2

/-- `E_WH0530` (spec/43_classifier.md R134). -/
def treeWh0530 (c : Config) (n : Nat) (m : Memory) : Except Stop Located :=
  if n = 63 then treeAlectoV1 c n m
  else if n = 95 then treeAlectoV2 c n m
  else if n = 71 then do
    headerTest m 0 7 0x7F
    headerTest m 7 4 0x3
    locateFixed c n m .wh0530
  else .error (.outcome .abortLength)

/-- The WH24 / WH65B tie-break (spec/43_classifier.md R137, R138): the slack and the offset after the preamble. -/
def wh24OrWh65b (c : Config) (n off : Nat) : Variant :=
  if n - off - 8 * c.frameLen .wh24 < c.wh24SlackLt ∧ off < c.wh24OffLt then .wh24 else .wh65b

/-- `E_WH24` (spec/43_classifier.md R137). -/
def treeWh24 (c : Config) (n : Nat) (m : Memory) : Except Stop Located :=
  if n < c.wh24LenMin ∨ c.wh24LenMax < n then .error (.outcome .abortLength)
  else do
    let (off, f) ← locateFsk c n m (c.frameLen .wh24)
    .ok ⟨wh24OrWh65b c n off, off, f⟩

/-- `WH0290` (spec/43_classifier.md R141). -/
def treeWh0290 (c : Config) (n : Nat) (m : Memory) : Except Stop Located := do
  let (off, f) ← locateFsk c n m (c.frameLen .wh0290)
  .ok ⟨.wh0290, off, f⟩

/-- `E_WH25` from its tentative variant `t` on (spec/43_classifier.md R139): the type nibble, then the byte `0x41`, which
re-delegates to `WH0290`. -/
def treeWh25Tentative (c : Config) (n : Nat) (m : Memory) (t : Variant) : Except Stop Located := do
  let (off, f) ← locateFsk c n m (c.frameLen .wh25)
  let nibble := byteSlice (f.getD 0 0) 7 4
  if t = .wh32b ∧ nibble = 0xD then .ok ⟨.wh32, off, f⟩
  else if nibble = 0xE then .ok ⟨t, off, f⟩
  else if f.getD 0 0 = 0x41 then treeWh0290 c n m
  else .error (.outcome .abortEarly)

/-- `E_WH25` (spec/43_classifier.md R139). -/
def treeWh25 (c : Config) (n : Nat) (m : Memory) : Except Stop Located :=
  if n < c.wh25T0 then treeWh0290 c n m
  else if n < c.wh25T1 then treeWh25Tentative c n m .wh32b
  else if n < c.wh25T2 then treeWh24 c n m
  else if n ≤ c.wh25T3 then treeWh25Tentative c n m .wh25
  else treeWh25Tentative c n m .wh32b

/-- `E_WH51` (spec/43_classifier.md R142). -/
def treeWh51 (c : Config) (n : Nat) (m : Memory) : Except Stop Located := do
  let (off, f) ← locateFsk c n m (c.frameLen .wh51)
  if f.getD 0 0 = 0x51 then .ok ⟨.wh51, off, f⟩ else .error (.outcome .abortEarly)

/-- The decision tree of an entry point. -/
def classifyTree (c : Config) (e : Entry) (n : Nat) (m : Memory) : Except Stop Located :=
  match e with
  | .wh2 => treeWh2 c n m
  | .wh0530 => treeWh0530 c n m
  | .wh24 => treeWh24 c n m
  | .wh25 => treeWh25 c n m
  | .wh51 => treeWh51 c n m

/-- Stage 1 of a transaction: the illegal operand before anything else (spec/60_exceptions.md R197, R198), then the tree. -/
def classify (c : Config) (e : Entry) (n : Nat) (m : Memory) : Except Stop Located :=
  if 8 * c.rowCapBytes < n then .error (.outcome .cmdIllegal) else classifyTree c e n m

end Sys2Proof.Machine
end

