-- ==== Sys2Proof/Machine/Frames.lean ====
section
/-! DEFINITION. The frame bytes of each row or frame format from its operands, and back (spec/30_encoding.md R66 to R74,
the patterns of spec/opcode_table.json). Reading a frame back takes the bytes that are there; a missing byte reads 0. -/

namespace Sys2Proof.Machine

/-- `f[k]`. -/
def byteAt (f : List Byte) (k : Nat) : Byte := f.getD k 0

/-- WH2, WH5, Telldus (spec/30_encoding.md R66). -/
def wh2Bytes (x : Wh2Frame) : List Byte :=
  [x.type ++ x.id.extractLsb' 4 4, x.id.extractLsb' 0 4 ++ x.temp12.extractLsb' 8 4, x.temp12.extractLsb' 0 8, x.hum, x.crc]

/-- WH2, WH5, Telldus, read back. -/
def wh2Of (f : List Byte) : Wh2Frame where
  type := (byteAt f 0).extractLsb' 4 4
  id := (byteAt f 0).extractLsb' 0 4 ++ (byteAt f 1).extractLsb' 4 4
  temp12 := (byteAt f 1).extractLsb' 0 4 ++ byteAt f 2
  hum := byteAt f 3
  crc := byteAt f 4

/-- The five bytes that WH0530 and Alecto-WS1200-v1, -v2 share, type nibble 3 (spec/30_encoding.md R67). -/
def rainBytes (x : RainFrame) : List Byte :=
  [0x3#4 ++ x.id.extractLsb' 4 4, x.id.extractLsb' 0 4 ++ x.battLow ++ x.temp11.extractLsb' 8 3, x.temp11.extractLsb' 0 8,
   x.rainLo, x.rainHi]

/-- The shared five bytes, read back. -/
def rainOf (f : List Byte) : RainFrame where
  id := (byteAt f 0).extractLsb' 0 4 ++ (byteAt f 1).extractLsb' 4 4
  battLow := (byteAt f 1).extractLsb' 3 1
  temp11 := (byteAt f 1).extractLsb' 0 3 ++ byteAt f 2
  rainLo := byteAt f 3
  rainHi := byteAt f 4

/-- WH0530 (spec/30_encoding.md R67). -/
def wh0530Bytes (x : RainFrame) (ign crc sum : BitVec 8) : List Byte := rainBytes x ++ [ign, crc, sum]

/-- Alecto-WS1200-v1 (spec/30_encoding.md R67). -/
def alectoV1Bytes (x : RainFrame) (ign crc : BitVec 8) : List Byte := rainBytes x ++ [ign, crc]

/-- Alecto-WS1200-v2 (spec/30_encoding.md R67). -/
def alectoV2Bytes (x : RainFrame) (ign : BitVec 32) (crc sum : BitVec 8) : List Byte :=
  rainBytes x ++ [ign.extractLsb' 24 8, ign.extractLsb' 16 8, ign.extractLsb' 8 8, ign.extractLsb' 0 8, crc, sum]

/-- Alecto-WS1200-v2-DCF (spec/30_encoding.md R68). -/
def dcfBytes (x : DcfFrame) : List Byte :=
  [0x52, x.id, x.battLow ++ x.ign, x.year, x.month, x.day, x.hour, x.minute, x.second, x.crc, x.sum]

/-- Alecto-WS1200-v2-DCF, read back. -/
def dcfOf (f : List Byte) : DcfFrame where
  id := byteAt f 1
  battLow := (byteAt f 2).extractLsb' 7 1
  ign := (byteAt f 2).extractLsb' 0 7
  year := byteAt f 3
  month := byteAt f 4
  day := byteAt f 5
  hour := byteAt f 6
  minute := byteAt f 7
  second := byteAt f 8
  crc := byteAt f 9
  sum := byteAt f 10

/-- WH24, WH65B (spec/30_encoding.md R69). -/
def wh24Bytes (x : Wh24Frame) : List Byte :=
  [x.family, x.id, x.wdir9.extractLsb' 0 8,
   x.wdir9.extractLsb' 8 1 ++ x.ign ++ x.wspd9.extractLsb' 8 1 ++ x.battLow ++ x.temp11.extractLsb' 8 3,
   x.temp11.extractLsb' 0 8, x.hum, x.wspd9.extractLsb' 0 8, x.gust8, x.rainLo, x.rainHi,
   x.uv16.extractLsb' 8 8, x.uv16.extractLsb' 0 8,
   x.light24.extractLsb' 16 8, x.light24.extractLsb' 8 8, x.light24.extractLsb' 0 8, x.crc, x.sum]

/-- WH24, WH65B, read back. -/
def wh24Of (f : List Byte) : Wh24Frame where
  family := byteAt f 0
  id := byteAt f 1
  wdir9 := (byteAt f 3).extractLsb' 7 1 ++ byteAt f 2
  ign := (byteAt f 3).extractLsb' 5 2
  wspd9 := (byteAt f 3).extractLsb' 4 1 ++ byteAt f 6
  battLow := (byteAt f 3).extractLsb' 3 1
  temp11 := (byteAt f 3).extractLsb' 0 3 ++ byteAt f 4
  hum := byteAt f 5
  gust8 := byteAt f 7
  rainLo := byteAt f 8
  rainHi := byteAt f 9
  uv16 := byteAt f 10 ++ byteAt f 11
  light24 := byteAt f 12 ++ byteAt f 13 ++ byteAt f 14
  crc := byteAt f 15
  sum := byteAt f 16

/-- WH25, WH32, WH32B with their type nibble (spec/30_encoding.md R70). -/
def wh25Bytes (type : BitVec 4) (x : Wh25Frame) : List Byte :=
  [type ++ x.id.extractLsb' 4 4, x.id.extractLsb' 0 4 ++ x.battLow ++ x.ign ++ x.temp10.extractLsb' 8 2,
   x.temp10.extractLsb' 0 8, x.hum, x.press16.extractLsb' 8 8, x.press16.extractLsb' 0 8, x.sum, x.last]

/-- WH25, WH32, WH32B, read back. -/
def wh25Of (f : List Byte) : Wh25Frame where
  id := (byteAt f 0).extractLsb' 0 4 ++ (byteAt f 1).extractLsb' 4 4
  battLow := (byteAt f 1).extractLsb' 3 1
  ign := (byteAt f 1).extractLsb' 2 1
  temp10 := (byteAt f 1).extractLsb' 0 2 ++ byteAt f 2
  hum := byteAt f 3
  press16 := byteAt f 4 ++ byteAt f 5
  sum := byteAt f 6
  last := byteAt f 7

/-- WH0290 (spec/30_encoding.md R73). -/
def wh0290Bytes (x : Wh0290Frame) : List Byte :=
  [x.family, x.id, x.status2 ++ x.pm25.extractLsb' 8 6, x.pm25.extractLsb' 0 8,
   x.bars2 ++ x.pm10.extractLsb' 8 6, x.pm10.extractLsb' 0 8, x.crc, x.sum]

/-- WH0290, read back. -/
def wh0290Of (f : List Byte) : Wh0290Frame where
  family := byteAt f 0
  id := byteAt f 1
  status2 := (byteAt f 2).extractLsb' 6 2
  pm25 := (byteAt f 2).extractLsb' 0 6 ++ byteAt f 3
  bars2 := (byteAt f 4).extractLsb' 6 2
  pm10 := (byteAt f 4).extractLsb' 0 6 ++ byteAt f 5
  crc := byteAt f 6
  sum := byteAt f 7

/-- WH51 (spec/30_encoding.md R74). -/
def wh51Bytes (x : Wh51Frame) : List Byte :=
  [0x51, x.id24.extractLsb' 16 8, x.id24.extractLsb' 8 8, x.id24.extractLsb' 0 8, x.boost3 ++ x.batt5, x.ign5, x.moist,
   x.ign7 ++ x.ad9.extractLsb' 8 1, x.ad9.extractLsb' 0 8, x.crc, x.sum]

/-- WH51, read back. -/
def wh51Of (f : List Byte) : Wh51Frame where
  id24 := byteAt f 1 ++ byteAt f 2 ++ byteAt f 3
  boost3 := (byteAt f 4).extractLsb' 5 3
  batt5 := (byteAt f 4).extractLsb' 0 5
  ign5 := byteAt f 5
  moist := byteAt f 6
  ign7 := (byteAt f 7).extractLsb' 1 7
  ad9 := (byteAt f 7).extractLsb' 0 1 ++ byteAt f 8
  crc := byteAt f 9
  sum := byteAt f 10

/-- The row instruction that a located frame is: the tagged variant value of spec/43_classifier.md R130. -/
def instrOf (l : Located) : Instr :=
  let off := BitVec.ofNat 16 l.off
  match l.variant with
  | .wh2 => .wh2 (wh2Of l.frame)
  | .wh2a => .wh2a (wh2Of l.frame) (byteAt l.frame 5)
  | .wh5 => .wh5 (wh2Of l.frame)
  | .telldus => .telldus (wh2Of l.frame)
  | .wh0530 => .wh0530 (rainOf l.frame) (byteAt l.frame 5) (byteAt l.frame 6) (byteAt l.frame 7)
  | .alectoV1 => .alectoV1 (rainOf l.frame) (byteAt l.frame 5) (byteAt l.frame 6)
  | .alectoV2 =>
    .alectoV2 (rainOf l.frame) (byteAt l.frame 5 ++ byteAt l.frame 6 ++ byteAt l.frame 7 ++ byteAt l.frame 8)
      (byteAt l.frame 9) (byteAt l.frame 10)
  | .alectoV2Dcf => .alectoV2Dcf (dcfOf l.frame)
  | .wh24 => .wh24 off (wh24Of l.frame)
  | .wh65b => .wh65b off (wh24Of l.frame)
  | .wh25 => .wh25 off (wh25Of l.frame)
  | .wh32b => .wh32b off (wh25Of l.frame)
  | .wh32 => .wh32 off (wh25Of l.frame)
  | .wh0290 => .wh0290 off (wh0290Of l.frame)
  | .wh51 => .wh51 off (wh51Of l.frame)

/-- The variant, bit offset and frame of a row instruction, none for a command (spec/30_encoding.md R64). -/
def locatedOf : Instr → Option Located
  | .decodeWh2 | .decodeWh0530 | .decodeWh24 | .decodeWh25 | .decodeWh51 => none
  | .reserved5 | .reserved6 | .reserved7 => none
  | .wh2 x => some ⟨.wh2, 8, wh2Bytes x⟩
  | .wh2a x pad => some ⟨.wh2a, 7, wh2Bytes x ++ [pad]⟩
  | .wh5 x => some ⟨.wh5, 7, wh2Bytes x⟩
  | .telldus x => some ⟨.telldus, 9, wh2Bytes x⟩
  | .wh0530 x ign crc sum => some ⟨.wh0530, 7, wh0530Bytes x ign crc sum⟩
  | .alectoV1 x ign crc => some ⟨.alectoV1, 7, alectoV1Bytes x ign crc⟩
  | .alectoV2 x ign crc sum => some ⟨.alectoV2, 7, alectoV2Bytes x ign crc sum⟩
  | .alectoV2Dcf x => some ⟨.alectoV2Dcf, 7, dcfBytes x⟩
  | .wh24 off x => some ⟨.wh24, off.toNat, wh24Bytes x⟩
  | .wh65b off x => some ⟨.wh65b, off.toNat, wh24Bytes x⟩
  | .wh25 off x => some ⟨.wh25, off.toNat, wh25Bytes 0xE x⟩
  | .wh32b off x => some ⟨.wh32b, off.toNat, wh25Bytes 0xE x⟩
  | .wh32 off x => some ⟨.wh32, off.toNat, wh25Bytes 0xD x⟩
  | .wh0290 off x => some ⟨.wh0290, off.toNat, wh0290Bytes x⟩
  | .wh51 off x => some ⟨.wh51, off.toNat, wh51Bytes x⟩

end Sys2Proof.Machine
end

