-- ==== Sys2Proof/WellFormed.lean ====
section
/-! DEFINITION. Which instructions have an encoding. What is checked is that the header byte `0xFE` of WH2A and WH5 can
stand before the frame (spec/30_encoding.md R63, R64: seven ones, then the zero top bit of the type nibble), and that an
FSK-family frame's offset leaves room for the preamble before it and for the frame in a row of a length that selects the
variant (spec/30_encoding.md R64, spec/43_classifier.md R138, R139, R142, 1024 bits of row). The sanity constants are not
checked here: a row with another value there is classified all the same and ends in `FAIL_SANITY` (R144). -/

namespace Sys2Proof

/-- `off` leaves 24 preamble bits before it and is at most `hi`. -/
def offBetween (off : BitVec 16) (lo hi : Nat) : Bool :=
  decide (lo ≤ off.toNat) && decide (off.toNat ≤ hi)

/-- The instruction has an encoding.
* WH2A, WH5: the byte `0xFE` is seven ones and the zero top bit of the type nibble (R63).
* WH24: `slack < 8`, `off < 61` and `190 ≤ off + 136 + slack` leave 47 to 60; WH65B: 24 to 79 (R138).
* WH25: `off + 64 ≤ 510`. WH32, WH32B: `off + 64 ≤ 1024`.
* WH0290: a row shorter than 160 bits, or the byte `0x41` (R139).
* WH51: `off + 88 ≤ 1024`. -/
def Instr.wf : Instr → Bool
  | .decodeWh2 | .decodeWh0530 | .decodeWh24 | .decodeWh25 | .decodeWh51 => true
  | .reserved5 | .reserved6 | .reserved7 => true
  | .wh2 _ | .telldus _ => true
  | .wh2a x _ => !x.type.msb
  | .wh5 x => !x.type.msb
  | .wh0530 _ _ _ _ | .alectoV1 _ _ _ | .alectoV2 _ _ _ _ | .alectoV2Dcf _ => true
  | .wh24 off _ => offBetween off 47 60
  | .wh65b off _ => offBetween off 24 79
  | .wh25 off _ => offBetween off 24 446
  | .wh32b off _ => offBetween off 24 960
  | .wh32 off _ => offBetween off 24 960
  | .wh0290 off x => offBetween off 24 95 || (offBetween off 24 960 && x.family == 0x41#8)
  | .wh51 off _ => offBetween off 24 936

end Sys2Proof
end

