-- ==== Sys2Proof/Decode.lean ====
section
/-! DEFINITION. Decoding: a word written to `CMD` (spec/30_encoding.md R60) or a loaded row, classified by an entry point
(spec/43_classifier.md R130), to an instruction, rejecting by the outcome's name; and the encoder after it. -/

namespace Sys2Proof

/-- The instruction of a word written to `CMD`: `ENTRY` is bits [2:0], the rest is ignored (spec/30_encoding.md R60). -/
def decodeCommand (w : Word) : Instr :=
  match (w.extractLsb' 0 3).toNat with
  | 0 => .decodeWh2
  | 1 => .decodeWh0530
  | 2 => .decodeWh24
  | 3 => .decodeWh25
  | 4 => .decodeWh51
  | 5 => .reserved5
  | 6 => .reserved6
  | _ => .reserved7

/-- The row instruction that entry point `e` finds in a row of `n` bits (spec/43_classifier.md R130, first stage). -/
def decodeRow (e : Entry) (n : Nat) (m : Machine.Memory) : Except Machine.Stop Instr :=
  match Machine.classify Machine.fpl e n m with
  | .ok l => .ok (Machine.instrOf l)
  | .error stop => .error stop

/-- The decoder. -/
def decode : Source → Except Machine.Stop Instr
  | .command w => .ok (decodeCommand w)
  | .row e n bytes => decodeRow e n (Machine.Memory.ofBytes bytes)

/-! The encoder, from the same tables. -/

/-- The bits of a byte, first row bit first (spec/00_scope.md R6). -/
def bitsOfByte (b : Byte) : List Bool :=
  [b.getLsbD 7, b.getLsbD 6, b.getLsbD 5, b.getLsbD 4, b.getLsbD 3, b.getLsbD 2, b.getLsbD 1, b.getLsbD 0]

/-- The bits of a byte sequence. -/
def bitsOfBytes : List Byte → List Bool
  | [] => []
  | b :: rest => bitsOfByte b ++ bitsOfBytes rest

/-- Eight bits as a byte, the first the most significant. -/
def byteOfBits (b7 b6 b5 b4 b3 b2 b1 b0 : Bool) : Byte :=
  BitVec.ofBool b7 ++ BitVec.ofBool b6 ++ BitVec.ofBool b5 ++ BitVec.ofBool b4 ++
    BitVec.ofBool b3 ++ BitVec.ofBool b2 ++ BitVec.ofBool b1 ++ BitVec.ofBool b0

/-- The row buffer's bytes for a bit sequence; unused low bits of the last byte are 0 (spec/30_encoding.md R79). -/
def packBits : List Bool → List Byte
  | b7 :: b6 :: b5 :: b4 :: b3 :: b2 :: b1 :: b0 :: rest => byteOfBits b7 b6 b5 b4 b3 b2 b1 b0 :: packBits rest
  | [] => []
  | rest =>
    [byteOfBits (rest.getD 0 false) (rest.getD 1 false) (rest.getD 2 false) (rest.getD 3 false)
      (rest.getD 4 false) (rest.getD 5 false) (rest.getD 6 false) (rest.getD 7 false)]

/-- A PWM-family row: `ones` one-bits and the frame (spec/30_encoding.md R63). -/
def pwmRowBits (ones : Nat) (f : List Byte) : List Bool := List.replicate ones true ++ bitsOfBytes f

/-- An FSK-family row of `n` bits whose frame starts at row bit `off`: zeros, the preamble, the frame, zeros
(spec/30_encoding.md R65). -/
def fskRowBits (n off : Nat) (f : List Byte) : List Bool :=
  List.replicate (off - 24) false ++ bitsOfBytes [0xAA, 0x2D, 0xD4] ++ bitsOfBytes f ++
    List.replicate (n - off - 8 * f.length) false

/-- A PWM-family row as a source. -/
def pwmSource (e : Entry) (ones : Nat) (f : List Byte) : Source :=
  .row e (ones + 8 * f.length) (packBits (pwmRowBits ones f))

/-- An FSK-family row as a source. -/
def fskSource (e : Entry) (n off : Nat) (f : List Byte) : Source := .row e n (packBits (fskRowBits n off f))

/-- The row length the encoder takes for a WH0290 frame at `off`: below 160 where it fits, else one of the lengths at
which the byte `0x41` re-delegates (spec/43_classifier.md R139). -/
def wh0290RowLength (off : Nat) : Nat :=
  if off ≤ 95 then off + 64 else if off ≤ 125 then max 160 (off + 64) else max 440 (off + 64)

/-- The row length the encoder takes for a WH32 or WH32B frame at `off` (spec/43_classifier.md R139). -/
def wh32RowLength (off : Nat) : Nat := if off ≤ 125 then max 160 (off + 64) else max 511 (off + 64)

/-- The row length the encoder takes for a WH65B frame at `off` (spec/43_classifier.md R138). -/
def wh65bRowLength (off : Nat) : Nat := if off ≤ 60 then max 190 (off + 144) else off + 136

/-- The encoder: what a well-formed instruction is read from (spec/30_encoding.md R60, R63 to R74). -/
def encode : Instr → Source
  | .decodeWh2 => .command 0
  | .decodeWh0530 => .command 1
  | .decodeWh24 => .command 2
  | .decodeWh25 => .command 3
  | .decodeWh51 => .command 4
  | .reserved5 => .command 5
  | .reserved6 => .command 6
  | .reserved7 => .command 7
  | .wh2 x => pwmSource .wh2 8 (Machine.wh2Bytes x)
  | .wh2a x pad => pwmSource .wh2 7 (Machine.wh2Bytes x ++ [pad])
  | .wh5 x => pwmSource .wh2 7 (Machine.wh2Bytes x)
  | .telldus x => pwmSource .wh2 9 (Machine.wh2Bytes x)
  | .wh0530 x ign crc sum => pwmSource .wh0530 7 (Machine.wh0530Bytes x ign crc sum)
  | .alectoV1 x ign crc => pwmSource .wh0530 7 (Machine.alectoV1Bytes x ign crc)
  | .alectoV2 x ign crc sum => pwmSource .wh0530 7 (Machine.alectoV2Bytes x ign crc sum)
  | .alectoV2Dcf x => pwmSource .wh0530 7 (Machine.dcfBytes x)
  | .wh24 off x => fskSource .wh24 (max 190 (off.toNat + 136)) off.toNat (Machine.wh24Bytes x)
  | .wh65b off x => fskSource .wh24 (wh65bRowLength off.toNat) off.toNat (Machine.wh24Bytes x)
  | .wh25 off x => fskSource .wh25 (max 440 (off.toNat + 64)) off.toNat (Machine.wh25Bytes 0xE x)
  | .wh32b off x => fskSource .wh25 (wh32RowLength off.toNat) off.toNat (Machine.wh25Bytes 0xE x)
  | .wh32 off x => fskSource .wh25 (wh32RowLength off.toNat) off.toNat (Machine.wh25Bytes 0xD x)
  | .wh0290 off x => fskSource .wh25 (wh0290RowLength off.toNat) off.toNat (Machine.wh0290Bytes x)
  | .wh51 off x => fskSource .wh51 (off.toNat + 88) off.toNat (Machine.wh51Bytes x)

/-! The words of spec/opcode_table.json. -/

/-- The bytes of a table word of `nbits` bits, the first byte its low eight bits. -/
def tableBytes (nbits w : Nat) : List Byte := (List.range (nbits / 8)).map (fun k => BitVec.ofNat 8 (w >>> (8 * k)))

/-- What a table word of `nbits` bits may be read from, in the order tried (notes/assumptions 5). Up to 32 bits: a command
word. Longer: a whole PWM row of the lengths that fit, or an FSK frame, put after the preamble in a row of a length that
selects its variant. -/
def tableSources (nbits w : Nat) : List Source :=
  let f := tableBytes nbits w
  if nbits = 0 then []
  else if nbits ≤ 32 then [.command (BitVec.ofNat 32 w)]
  else match nbits with
    | 48 => [.row .wh2 48 f, .row .wh2 47 f]
    | 56 => [.row .wh2 55 f, .row .wh2 49 f]
    | 64 => [.row .wh0530 63 f, fskSource .wh25 440 24 f, fskSource .wh25 160 24 f, fskSource .wh25 88 24 f]
    | 72 => [.row .wh0530 71 f]
    | 88 => [fskSource .wh51 112 24 f]
    | 96 => [.row .wh0530 95 f]
    | 136 => [fskSource .wh24 190 54 f]
    | _ => []

/-- The first of some sources that decodes. -/
def firstDecoding : List Source → Option Source
  | [] => none
  | c :: rest =>
    match decode c with
    | .ok _ => some c
    | .error _ => firstDecoding rest

/-- What the table word is read from. -/
def tableSource (nbits w : Nat) : Option Source := firstDecoding (tableSources nbits w)

/-- The instruction the decoder reads from a word of spec/opcode_table.json. -/
def decodeTableWord (nbits w : Nat) : Option Instr :=
  match tableSource nbits w with
  | none => none
  | some c =>
    match decode c with
    | .ok i => some i
    | .error _ => none

end Sys2Proof
end

