-- ==== Sys2Proof/Machine/Integrity.lean ====
section
/-! DEFINITION. The three check functions and the check procedure (spec/41_integrity.md), and the sanity test
(spec/43_classifier.md R144). -/

namespace Sys2Proof.Machine

/-- One shift of the CRC register (spec/41_integrity.md R100). -/
def crcShift (c : Config) (r : Byte) : Byte :=
  if r.msb then (r <<< 1) ^^^ c.crcPoly else r <<< 1

/-- `k` shifts. -/
def crcShifts (c : Config) : Nat → Byte → Byte
  | 0, r => r
  | k + 1, r => crcShifts c k (crcShift c r)

/-- One byte into the CRC register; `CRC_REFIN` would take its bits in the other order (spec/00_scope.md R4). -/
def crcByte (c : Config) (r b : Byte) : Byte :=
  crcShifts c 8 (r ^^^ (if c.crcRefin then b.reverse else b))

/-- The CRC register after the bytes of a message, from the value `r`. -/
def crcFrom (c : Config) (r : Byte) : List Byte → Byte
  | [] => r
  | b :: rest => crcFrom c (crcByte c r b) rest

/-- `CRC8(b[0..n-1])` (spec/41_integrity.md R100). -/
def crc8 (c : Config) (bytes : List Byte) : Byte :=
  (if c.crcRefout then (crcFrom c c.crcInit bytes).reverse else crcFrom c c.crcInit bytes) ^^^ c.crcXorout

/-- `SUM8(b[0..n-1])`, modulo 256 (spec/41_integrity.md R102). -/
def sum8 : List Byte → Byte
  | [] => 0
  | b :: rest => b + sum8 rest

/-- The exclusive or of all bytes. -/
def xorAll : List Byte → Byte
  | [] => 0
  | b :: rest => b ^^^ xorAll rest

/-- `XORSWAP8(b[0..n-1])`: the two nibbles of the exclusive or exchanged (spec/41_integrity.md R103). -/
def xorSwap8 (bytes : List Byte) : Byte :=
  (xorAll bytes >>> 4) ||| ((xorAll bytes &&& 0x0F) <<< 4)

/-- The value of a check function on bytes. -/
def checkValue (c : Config) (fn : CheckFn) (bytes : List Byte) : Byte :=
  match fn with
  | .crc8 => crc8 c bytes
  | .sum8 => sum8 bytes
  | .xorSwap8 => xorSwap8 bytes

/-- `f[a..b]`, inclusive (spec/41_integrity.md R105). -/
def frameSlice (f : List Byte) (a b : Nat) : List Byte := (f.drop a).take (b + 1 - a)

/-- One check of `INTEGRITY[v]` holds. -/
def checkHolds (c : Config) (f : List Byte) (k : CheckSpec) : Bool :=
  checkValue c k.fn (frameSlice f k.first k.last) == f.getD k.trailer 0

/-- `CHECK(v, f)` returns (spec/41_integrity.md R104). -/
def checkPasses (c : Config) (v : Variant) (f : List Byte) : Bool :=
  (c.integrity v).all (checkHolds c f)

/-- `SANITY(v, f)` returns (spec/43_classifier.md R144). -/
def sanityPasses (c : Config) (v : Variant) (f : List Byte) : Bool :=
  match c.sanity v with
  | none => true
  | some k => rawValue f k.segs == k.value

/-- What the validation stage answers: integrity first, then sanity (spec/43_classifier.md R130, spec/60_exceptions.md
R198). -/
def verdict (c : Config) (v : Variant) (f : List Byte) : OutcomeCode :=
  if checkPasses c v f then (if sanityPasses c v f then .ok else .failSanity) else .failIntegrity

end Sys2Proof.Machine
end

