-- ==== Sys2Proof/Machine/Unpack.lean ====
section
/-! DEFINITION. The bit-field unpacker and scaler (spec/42_unpack_scale.md) and the decoders as lists of descriptors
(spec/44_decode_pwm.md R150, spec/45_decode_fsk.md). -/

namespace Sys2Proof.Machine

/-- `TEMP_SIGNMAG_w(raw)` (spec/42_unpack_scale.md R113). -/
def tempSignMag (w raw : Nat) : Int :=
  if raw / 2 ^ (w - 1) % 2 = 1 then -((raw % 2 ^ (w - 1) : Nat) : Int) else ((raw % 2 ^ (w - 1) : Nat) : Int)

/-- `TEMP_OFFSET40(raw)` (spec/42_unpack_scale.md R114). -/
def tempOffset40 (raw : Nat) : Int := (raw : Int) - 400

/-- The temperature of a `w`-bit raw value under a policy (spec/30_encoding.md R71). -/
def temperature (p : Option TempPolicy) (w raw : Nat) : Int :=
  match p with
  | some .signMag => tempSignMag w raw
  | some .offset40 => tempOffset40 raw
  | none => raw

/-- The UV index: how many thresholds, from the first, are strictly below `raw` before one is not
(spec/42_unpack_scale.md R122). -/
def uvIndex : List Nat → Nat → Nat
  | [], _ => 0
  | t :: rest, raw => if t < raw then uvIndex rest raw + 1 else 0

/-- The conversion of a raw value (spec/42_unpack_scale.md). -/
def convert (c : Config) (v : Variant) (w : Nat) (op : Conv) (raw : Nat) : Int :=
  match op with
  | .raw => raw
  | .temp => temperature (c.tempPolicy v) w raw
  | .rain => (raw * c.rainMilli v : Nat)
  | .wind => (raw * windE5 c v : Nat)
  | .uvIndex => (uvIndex c.uviThresh raw : Nat)
  | .battFlag => 1 - (raw : Int)
  | .milliVolt => (raw * 100 : Nat)
  | .battFraction => ((raw * 100 : Nat) : Int) - 700

/-- `FIELD(d)` (spec/42_unpack_scale.md R110): the raw value equal to the sentinel leaves the field absent. -/
def applyField (c : Config) (v : Variant) (f : List Byte) (r : Record) (d : FieldDesc) : Record :=
  if d.sentinel = some (rawValue f d.segs) then r
  else r.set d.reg (convert c v d.width d.conv (rawValue f d.segs))

/-- The descriptors evaluated in order, from the record `r`. -/
def applyFields (c : Config) (v : Variant) (f : List Byte) (r : Record) : List FieldDesc → Record
  | [] => r
  | d :: rest => applyFields c v f (applyField c v f r d) rest

/-- `PRESENT[19] <- 1` (spec/44_decode_pwm.md R150). -/
def setMic (r : Record) : Record := { r with present := setPresentBit r.present micBit }

/-- `DECODE[v](f)` (spec/44_decode_pwm.md R150): from no field present, the list of the variant, then `mic`. -/
def decodeFields (c : Config) (v : Variant) (f : List Byte) : Record :=
  setMic (applyFields c v f Record.empty (c.layout v))

end Sys2Proof.Machine
end

