-- ==== Sys2Proof/Machine/Transaction.lean ====
section
/-! DEFINITION. The common tail of every command and the whole transaction (spec/43_classifier.md R130). -/

namespace Sys2Proof.Machine

/-- `FINISH(v, off, f)` (spec/43_classifier.md R130): validate, then decode and write the outputs. -/
def finish (c : Config) (l : Located) (s : State) : State :=
  match verdict c l.variant l.frame with
  | .ok => commit l (c.frameLen l.variant) (decodeFields c l.variant l.frame) s
  | o => raise o s

/-- The end of a transaction that stopped in its first stage. -/
def stopWith (e : Stop) (s : State) : Host.Outcome State Fault Refusal :=
  match e with
  | .outcome o => .next (raise o s)
  | .unwritten k => .refused (.unwrittenRow k)

/-- One transaction of an entry point, one atomic step (spec/10_state.md R12, spec/43_classifier.md R130). -/
def transact (c : Config) (e : Entry) (s : State) : Host.Outcome State Fault Refusal :=
  match classify c e s.bitcnt.toNat s.row with
  | .ok l => .next (finish c l s)
  | .error stop => stopWith stop s

/-- A reserved command code (spec/60_exceptions.md R197): tested before anything else, reads no row bit. -/
def illegalCommand (s : State) : Host.Outcome State Fault Refusal := .next (raise .cmdIllegal s)

end Sys2Proof.Machine
end

