-- ==== Sys2Proof/Machine/Commands.lean ====
section
/-! DEFINITION. The meanings of the five commands and the three reserved codes (spec/30_encoding.md R60). -/

namespace Sys2Proof.Machine

/-- `DECODE.WH2` (spec/43_classifier.md R132). -/
def execDecodeWh2 (s : State) : Host.Outcome State Fault Refusal := transact fpl .wh2 s

/-- `DECODE.WH0530` (spec/43_classifier.md R134, R135, R136). -/
def execDecodeWh0530 (s : State) : Host.Outcome State Fault Refusal := transact fpl .wh0530 s

/-- `DECODE.WH24` (spec/43_classifier.md R137). -/
def execDecodeWh24 (s : State) : Host.Outcome State Fault Refusal := transact fpl .wh24 s

/-- `DECODE.WH25` (spec/43_classifier.md R139). -/
def execDecodeWh25 (s : State) : Host.Outcome State Fault Refusal := transact fpl .wh25 s

/-- `DECODE.WH51` (spec/43_classifier.md R142). -/
def execDecodeWh51 (s : State) : Host.Outcome State Fault Refusal := transact fpl .wh51 s

/-- `RESERVED.5` (spec/60_exceptions.md R197). -/
def execReserved5 (s : State) : Host.Outcome State Fault Refusal := illegalCommand s

/-- `RESERVED.6` (spec/60_exceptions.md R197). -/
def execReserved6 (s : State) : Host.Outcome State Fault Refusal := illegalCommand s

/-- `RESERVED.7` (spec/60_exceptions.md R197). -/
def execReserved7 (s : State) : Host.Outcome State Fault Refusal := illegalCommand s

end Sys2Proof.Machine
end

