-- ==== Sys2Proof/Machine/Fsk.lean ====
section
/-! DEFINITION. The meanings of the FSK-family frames at the row bit they were found at: the tail `FINISH(v, off, f)` of
spec/43_classifier.md R130 (notes/assumptions 4). -/

namespace Sys2Proof.Machine

/-- A WH24 frame (spec/45_decode_fsk.md R170). -/
def execWh24 (off : BitVec 16) (x : Wh24Frame) (s : State) : Host.Outcome State Fault Refusal :=
  .next (finish fpl ⟨.wh24, off.toNat, wh24Bytes x⟩ s)

/-- A WH65B frame (spec/45_decode_fsk.md R170). -/
def execWh65b (off : BitVec 16) (x : Wh24Frame) (s : State) : Host.Outcome State Fault Refusal :=
  .next (finish fpl ⟨.wh65b, off.toNat, wh24Bytes x⟩ s)

/-- A WH25 frame, type nibble `0xE` (spec/45_decode_fsk.md R172). -/
def execWh25 (off : BitVec 16) (x : Wh25Frame) (s : State) : Host.Outcome State Fault Refusal :=
  .next (finish fpl ⟨.wh25, off.toNat, wh25Bytes 0xE x⟩ s)

/-- A WH32B frame, type nibble `0xE` (spec/45_decode_fsk.md R172). -/
def execWh32b (off : BitVec 16) (x : Wh25Frame) (s : State) : Host.Outcome State Fault Refusal :=
  .next (finish fpl ⟨.wh32b, off.toNat, wh25Bytes 0xE x⟩ s)

/-- A WH32 frame, type nibble `0xD` (spec/45_decode_fsk.md R172). -/
def execWh32 (off : BitVec 16) (x : Wh25Frame) (s : State) : Host.Outcome State Fault Refusal :=
  .next (finish fpl ⟨.wh32, off.toNat, wh25Bytes 0xD x⟩ s)

/-- A WH0290 frame (spec/45_decode_fsk.md R173). -/
def execWh0290 (off : BitVec 16) (x : Wh0290Frame) (s : State) : Host.Outcome State Fault Refusal :=
  .next (finish fpl ⟨.wh0290, off.toNat, wh0290Bytes x⟩ s)

/-- A WH51 frame (spec/45_decode_fsk.md R174). -/
def execWh51 (off : BitVec 16) (x : Wh51Frame) (s : State) : Host.Outcome State Fault Refusal :=
  .next (finish fpl ⟨.wh51, off.toNat, wh51Bytes x⟩ s)

end Sys2Proof.Machine
end

