-- ==== Sys2Proof/Machine/Pwm.lean ====
section
/-! DEFINITION. The meanings of the PWM-family rows: the tail `FINISH(v, off, f)` of spec/43_classifier.md R130 with the
fixed offset of spec/30_encoding.md R64 (notes/assumptions 4). -/

namespace Sys2Proof.Machine

/-- A WH2 row (spec/44_decode_pwm.md R151). -/
def execWh2 (x : Wh2Frame) (s : State) : Host.Outcome State Fault Refusal :=
  .next (finish fpl ⟨.wh2, 8, wh2Bytes x⟩ s)

/-- A WH2A row (spec/44_decode_pwm.md R151): the sixth byte is ignored. -/
def execWh2a (x : Wh2Frame) (pad : BitVec 8) (s : State) : Host.Outcome State Fault Refusal :=
  .next (finish fpl ⟨.wh2a, 7, wh2Bytes x ++ [pad]⟩ s)

/-- A WH5 row (spec/44_decode_pwm.md R152). -/
def execWh5 (x : Wh2Frame) (s : State) : Host.Outcome State Fault Refusal :=
  .next (finish fpl ⟨.wh5, 7, wh2Bytes x⟩ s)

/-- A Telldus row (spec/44_decode_pwm.md R151). -/
def execTelldus (x : Wh2Frame) (s : State) : Host.Outcome State Fault Refusal :=
  .next (finish fpl ⟨.telldus, 9, wh2Bytes x⟩ s)

/-- A WH0530 row (spec/44_decode_pwm.md R153). -/
def execWh0530 (x : RainFrame) (ign crc sum : BitVec 8) (s : State) : Host.Outcome State Fault Refusal :=
  .next (finish fpl ⟨.wh0530, 7, wh0530Bytes x ign crc sum⟩ s)

/-- An Alecto-WS1200-v1 row (spec/44_decode_pwm.md R153). -/
def execAlectoV1 (x : RainFrame) (ign crc : BitVec 8) (s : State) : Host.Outcome State Fault Refusal :=
  .next (finish fpl ⟨.alectoV1, 7, alectoV1Bytes x ign crc⟩ s)

/-- An Alecto-WS1200-v2 row (spec/44_decode_pwm.md R153). -/
def execAlectoV2 (x : RainFrame) (ign : BitVec 32) (crc sum : BitVec 8) (s : State) : Host.Outcome State Fault Refusal :=
  .next (finish fpl ⟨.alectoV2, 7, alectoV2Bytes x ign crc sum⟩ s)

/-- An Alecto-WS1200-v2-DCF row (spec/44_decode_pwm.md R156, R158). -/
def execAlectoV2Dcf (x : DcfFrame) (s : State) : Host.Outcome State Fault Refusal :=
  .next (finish fpl ⟨.alectoV2Dcf, 7, dcfBytes x⟩ s)

end Sys2Proof.Machine
end

