-- ==== Sys2Proof/Machine/Dispatch.lean ====
section
/-! DEFINITION. The dispatch: one arm per constructor of Instr, each one direct call of its meaning. -/

namespace Sys2Proof.Machine

def exec (i : Instr) (s : State) : Host.Outcome State Fault Refusal :=
  match i with
  | .decodeWh2 => Sys2Proof.Machine.execDecodeWh2 s
  | .decodeWh0530 => Sys2Proof.Machine.execDecodeWh0530 s
  | .decodeWh24 => Sys2Proof.Machine.execDecodeWh24 s
  | .decodeWh25 => Sys2Proof.Machine.execDecodeWh25 s
  | .decodeWh51 => Sys2Proof.Machine.execDecodeWh51 s
  | .reserved5 => Sys2Proof.Machine.execReserved5 s
  | .reserved6 => Sys2Proof.Machine.execReserved6 s
  | .reserved7 => Sys2Proof.Machine.execReserved7 s
  | .wh2 x => Sys2Proof.Machine.execWh2 x s
  | .wh2a x pad => Sys2Proof.Machine.execWh2a x pad s
  | .wh5 x => Sys2Proof.Machine.execWh5 x s
  | .telldus x => Sys2Proof.Machine.execTelldus x s
  | .wh0530 x ign crc sum => Sys2Proof.Machine.execWh0530 x ign crc sum s
  | .alectoV1 x ign crc => Sys2Proof.Machine.execAlectoV1 x ign crc s
  | .alectoV2 x ign crc sum => Sys2Proof.Machine.execAlectoV2 x ign crc sum s
  | .alectoV2Dcf x => Sys2Proof.Machine.execAlectoV2Dcf x s
  | .wh24 off x => Sys2Proof.Machine.execWh24 off x s
  | .wh65b off x => Sys2Proof.Machine.execWh65b off x s
  | .wh25 off x => Sys2Proof.Machine.execWh25 off x s
  | .wh32b off x => Sys2Proof.Machine.execWh32b off x s
  | .wh32 off x => Sys2Proof.Machine.execWh32 off x s
  | .wh0290 off x => Sys2Proof.Machine.execWh0290 off x s
  | .wh51 off x => Sys2Proof.Machine.execWh51 off x s

end Sys2Proof.Machine
end

