-- ==== Sys2Proof/Machine/Parametric.lean ====
section
/-! DEFINITION. The instructions at any configuration record: "a parameter of the step function, not a field of the state"
(spec/10_state.md R21). The machine itself runs at the defaults (notes/assumptions 10); `exec` is this at `fpl`. -/

namespace Sys2Proof.Machine

/-- The entry point of a command (spec/30_encoding.md R60). -/
def entryOf : Instr → Option Entry
  | .decodeWh2 => some .wh2
  | .decodeWh0530 => some .wh0530
  | .decodeWh24 => some .wh24
  | .decodeWh25 => some .wh25
  | .decodeWh51 => some .wh51
  | .reserved5 | .reserved6 | .reserved7 => none
  | .wh2 _ | .wh2a _ _ | .wh5 _ | .telldus _ => none
  | .wh0530 _ _ _ _ | .alectoV1 _ _ _ | .alectoV2 _ _ _ _ | .alectoV2Dcf _ => none
  | .wh24 _ _ | .wh65b _ _ | .wh25 _ _ | .wh32b _ _ | .wh32 _ _ | .wh0290 _ _ | .wh51 _ _ => none

/-- A located frame at the offset that the record fixes for its variant, where it fixes one (spec/40_locator.md R93). -/
def atFixedOff (c : Config) (l : Located) : Located := { l with off := (c.fixedOff l.variant).getD l.off }

/-- An instruction at the configuration `c`: a command is a transaction (spec/43_classifier.md R130), a row instruction its
tail, any other code is illegal (spec/60_exceptions.md R197). -/
def execWith (c : Config) (i : Instr) (s : State) : Host.Outcome State Fault Refusal :=
  match entryOf i with
  | some e => transact c e s
  | none =>
    match locatedOf i with
    | some l => .next (finish c (atFixedOff c l) s)
    | none => illegalCommand s

end Sys2Proof.Machine
end

