-- ==== Sys2Proof/Machine/HostPort.lean ====
section
/-! DEFINITION. The host's accesses: the register map (spec/20_memory.md R45), the access rules by phase
(spec/10_state.md R25), and the macros that expand to accesses (spec/30_encoding.md R80). The configuration record, and
what runs an instruction, are parameters of the access and of the step (spec/10_state.md R21). -/

namespace Sys2Proof.Machine

/-- What an offset of the map names. -/
inductive HostReg where
  | cmd | bitcnt | status | bitoff | flen | present
  | field (f : Field)
  | rclkHigh
  | frame (k : Nat)
  | row (k : Nat)
  | reserved
  /-- Inside a register, but not its own offset. -/
  | within
  /-- Past the map. -/
  | outside
  deriving DecidableEq, Repr

/-- The word-sized field registers in map order from offset `0x018` (spec/10_state.md R20). -/
def fieldOrder : List Field :=
  [.id, .batt, .battMv, .temp, .hum, .press, .wdir, .wavg, .wmax, .rain, .uv, .uvi, .light, .pm25, .pm10, .moist, .boost,
   .adRaw, .rclk]

/-- The register map (spec/20_memory.md R45). -/
def regAt (c : Config) (off : Nat) : HostReg :=
  if 0x100 + c.rowCapBytes ≤ off then .outside
  else if 0x100 ≤ off then .row (off - 0x100)
  else if 0x091 ≤ off then .reserved
  else if 0x080 ≤ off then .frame (off - 0x080)
  else if 0x068 ≤ off then .reserved
  else if off % 4 ≠ 0 then .within
  else match off / 4 with
    | 0 => .cmd
    | 1 => .bitcnt
    | 2 => .status
    | 3 => .bitoff
    | 4 => .flen
    | 5 => .present
    | 25 => .rclkHigh
    | n => match fieldOrder[n - 6]? with
      | some f => .field f
      | none => .reserved

/-- What a field register reads as: its value in a word, 0 while absent (spec/10_state.md R20). `batt` and `temp` are sign
extended, the low word of `rclk` is read here. -/
def fieldWord (r : Record) (f : Field) : Word :=
  match r.value f with
  | none => 0
  | some n => BitVec.ofInt 32 n

/-- The high word of `F_RCLK` (spec/10_state.md R20): bits 47:32. -/
def rclkHighWord (r : Record) : Word :=
  match r.rclk with
  | none => 0
  | some x => (x.extractLsb' 32 16).setWidth 32

/-- A host read of one register (spec/20_memory.md R45): no side effect but the word it returns. -/
def hostRead (c : Config) (off : Nat) (s : State) : Host.Outcome State Fault Refusal :=
  match regAt c off with
  | .cmd => .next { s with rdata := 0 }
  | .bitcnt => .next { s with rdata := s.bitcnt.setWidth 32 }
  | .status => .next { s with rdata := statusWord s }
  | .bitoff => .next { s with rdata := s.bitoff.setWidth 32 }
  | .flen => .next { s with rdata := s.flen.setWidth 32 }
  | .present => .next { s with rdata := s.record.present }
  | .field f => .next { s with rdata := fieldWord s.record f }
  | .rclkHigh => .next { s with rdata := rclkHighWord s.record }
  | .frame k => .next { s with rdata := (s.frame.toList.getD k 0).setWidth 32 }
  | .row k =>
    match Memory.read s.row k with
    | some b => .next { s with rdata := b.setWidth 32 }
    | none => .refused (.unwrittenRow k)
  | .reserved => .next { s with rdata := 0 }
  | .within => .refused (.partialAccess off)
  | .outside => .fault (.outsideMap off)

/-- What running an instruction answers, a parameter of the host's side of the machine. -/
abbrev Runs := Instr → State → Host.Outcome State Fault Refusal

/-- A host write of one register (spec/20_memory.md R45): `CMD` starts a transaction (spec/10_state.md R14), `BITCNT`
takes the low 16 bits (R15), a `ROW` byte the low 8 (R16); a write to any other register is ignored. -/
def hostWrite (c : Config) (run : Runs) (off : Nat) (v : Word) (s : State) : Host.Outcome State Fault Refusal :=
  match regAt c off with
  | .cmd => run (decodeCommand v) s
  | .bitcnt => .next { s with bitcnt := v.setWidth 16 }
  | .row k => .next { s with row := Memory.write s.row k (v.setWidth 8) }
  | .status => .next s
  | .bitoff => .next s
  | .flen => .next s
  | .present => .next s
  | .field _ => .next s
  | .rclkHigh => .next s
  | .frame _ => .next s
  | .reserved => .next s
  | .within => .refused (.partialAccess off)
  | .outside => .fault (.outsideMap off)

/-- The block's reset (spec/10_state.md R23): every register at its reset value. The host's own accesses go on. -/
def resetBlock (s : State) : State := { State.reset with port := s.port, rdata := s.rdata }

/-- One access of the host. While `PHASE = BUSY` only STATUS may be read (spec/10_state.md R25,
spec/70_reset_and_hazards.md R217); reset is always taken (R222). -/
def hostAccess (c : Config) (run : Runs) (op : HostOp) (s : State) : Host.Outcome State Fault Refusal :=
  match op with
  | .reset => .next (resetBlock s)
  | .read off =>
    if s.phase = .busy ∧ regAt c off ≠ .status then .refused (.busyAccess off) else hostRead c off s
  | .write off v => if s.phase = .busy then .refused (.busyAccess off) else hostWrite c run off v s

/-- The next access of the host, if it has one: else the block is idle and holds its outputs
(spec/60_exceptions.md R208). -/
def hostStep (c : Config) (run : Runs) (s : State) : Host.Outcome State Fault Refusal :=
  match s.port with
  | [] => .next s
  | op :: rest => hostAccess c run op { s with port := rest }

/-- The word that starts an entry point (spec/30_encoding.md R60). -/
def entryWord (e : Entry) : Word := (entryCode e).setWidth 32

/-- Writes of `ROW[k]`, `ROW[k+1]`, ... -/
def rowWrites (k : Nat) : List Byte → List HostOp
  | [] => []
  | b :: rest => .write (0x100 + k) (b.setWidth 32) :: rowWrites (k + 1) rest

/-- The macro `LOAD bits=<n> row=<bytes>` (spec/30_encoding.md R80). -/
def macroLoad (n : BitVec 16) (bytes : List Byte) : List HostOp :=
  rowWrites 0 bytes ++ [.write 0x004 (n.setWidth 32)]

/-- The macro `RUN <ENTRY>` (spec/30_encoding.md R80): one read of STATUS suffices, since a transaction is one step. -/
def macroRun (e : Entry) : List HostOp := [.write 0x000 (entryWord e), .read 0x008]

/-- The macro `DECODE.<ENTRY> bits=<n> row=<bytes>` (spec/30_encoding.md R80). -/
def macroDecode (e : Entry) (n : BitVec 16) (bytes : List Byte) : List HostOp := macroLoad n bytes ++ macroRun e

/-- What the host does after the first access of `RUN`: it reads STATUS (spec/30_encoding.md R80). -/
def thenReadStatus (o : Host.Outcome State Fault Refusal) : Host.Outcome State Fault Refusal :=
  match o with
  | .next t => hostAccess fpl exec (.read 0x008) t
  | .fault r => .fault r
  | .refused r => .refused r

/-- The `OUTCOME` field of a word read from STATUS says that the row is another command's: `ABORT_LENGTH` or `ABORT_EARLY`
(spec/10_state.md R17). -/
def saysTryNext (w : Word) : Bool := (w.extractLsb' 2 3).toNat = 1 ∨ (w.extractLsb' 2 3).toNat = 2

/-- The macro `TRY <E1>, <E2>, ...` (spec/30_encoding.md R80): `RUN` each entry until the STATUS read says another outcome
than `ABORT_LENGTH` and `ABORT_EARLY`. -/
def macroTry : List Entry → State → Host.Outcome State Fault Refusal
  | [], s => .next s
  | e :: rest, s =>
    match thenReadStatus (hostAccess fpl exec (.write 0x000 (entryWord e)) s) with
    | .next t => if saysTryNext t.rdata then macroTry rest t else .next t
    | .fault r => .fault r
    | .refused r => .refused r

/-- `s` with what an instruction is read from in place: a command word as the host's next write of `CMD`; a row in `ROW`
and `BITCNT`, with its entry point's command as the host's next write. -/
def placeSource (c : Source) (s : State) : State :=
  match c with
  | .command w => { s with port := .write 0x000 w :: s.port }
  | .row e n bytes =>
    { s with
      bitcnt := BitVec.ofNat 16 n
      row := Memory.ofBytes bytes
      port := .write 0x000 (entryWord e) :: s.port }

/-- `s` with a word of spec/opcode_table.json in place; a word the decoder refuses leaves `s` as it is. -/
def placeTableWord (s : State) (nbits w : Nat) : State :=
  match tableSource nbits w with
  | none => s
  | some c => placeSource c s

end Sys2Proof.Machine
end

