-- ==== Sys2Proof/Machine/Step.lean ====
section
/-! DEFINITION. One step of the machine: the host's next access, a `CMD` write being a whole transaction
(spec/10_state.md R12). There is no program counter and no fetch (R13). -/

namespace Sys2Proof.Machine

/-- One step at the spec's default constants (notes/assumptions 10). -/
def step (s : State) : Host.Outcome State Fault Refusal := hostStep fpl exec s

/-- One step at any configuration record: a parameter of the step function (spec/10_state.md R21). `step` is this at
`fpl`. -/
def stepWith (c : Config) (s : State) : Host.Outcome State Fault Refusal := hostStep c (execWith c) s

/-- `s` with the word `w` of spec/opcode_table.json where the next step takes its instruction (notes/assumptions 1, 5). -/
def State.withFetchWord (s : State) (nbits w : Nat) : State := placeTableWord s nbits w

end Sys2Proof.Machine
end

