-- ==== Sys2Proof/Safety.lean ====
section
/-! DEFINITION. What a state of a safe run satisfies, in the terms claims use: the coherence the spec promises between
`STATUS`, the frame registers and the record (spec/10_state.md R17, R18, R19, R20, R24). -/

namespace Sys2Proof.Machine

/-- The row buffer is in canonical form and lists only indices of `ROW` (spec/10_state.md R16). -/
def RowOk (s : State) : Prop := Memory.wf s.row = true ∧ ∀ cell ∈ s.row, cell.1 < fpl.rowCapBytes

/-- `PRESENT[n]` is 1 exactly when field register `n` carries a value (spec/10_state.md R19, R20). -/
def PresentOk (r : Record) : Prop :=
  ∀ f : Field, r.present.getLsbD (presentBit f) = (r.value f).isSome

/-- The outputs describe a record: what `OK` leaves (spec/10_state.md R17, R18, R19, spec/30_encoding.md R72). -/
def HoldsRecord (s : State) (v : Variant) : Prop :=
  s.phase = .done ∧ s.outcome = .ok ∧ s.variant = some v ∧ s.micOk = true ∧
  s.flen.toNat = fpl.frameLen v ∧ (∀ k, fpl.frameLen v ≤ k → s.frame.toList.getD k 0 = 0) ∧
  PresentOk s.record ∧ s.record.present &&& declaredMask v = s.record.present ∧
  s.record.present &&& alwaysMask v = alwaysMask v

/-- Every result register is clear: what reset and every outcome but `OK` leave (spec/10_state.md R23, R24). -/
def HoldsNothing (s : State) : Prop :=
  s.variant = none ∧ s.micOk = false ∧ s.bitoff = 0 ∧ s.flen = 0 ∧ s.frame = zeroFrame ∧ s.record = Record.empty

/-- The three conditions a state of the block can be in between transactions (spec/10_state.md R13, R23, R24). -/
def OutputsOk (s : State) : Prop :=
  (s.phase = .idle ∧ s.outcome = .ok ∧ HoldsNothing s) ∨
  (s.phase = .done ∧ s.outcome ≠ .ok ∧ HoldsNothing s) ∨
  (∃ v, HoldsRecord s v)

/-- The invariant of the machine. It rules out `PHASE = BUSY` (spec/10_state.md R13: never observed). -/
def StateOk (s : State) : Prop := RowOk s ∧ OutputsOk s

/-- The registers only the host writes (spec/10_state.md R15, R16) and the model's own fields. -/
def SameInputs (s t : State) : Prop :=
  t.bitcnt = s.bitcnt ∧ t.row = s.row ∧ t.port = s.port ∧ t.rdata = s.rdata

/-- Every output register of the block (spec/10_state.md R10). -/
def SameOutputs (s t : State) : Prop :=
  t.phase = s.phase ∧ t.outcome = s.outcome ∧ t.variant = s.variant ∧ t.micOk = s.micOk ∧ t.bitoff = s.bitoff ∧
  t.flen = s.flen ∧ t.frame = s.frame ∧ t.record = s.record

/-- The end of a failing transaction (spec/60_exceptions.md R200, spec/10_state.md R24): `DONE`, the code, every other
output clear, the inputs as they were. -/
def FailedWith (o : OutcomeCode) (s t : State) : Prop :=
  t.phase = .done ∧ t.outcome = o ∧ HoldsNothing t ∧ SameInputs s t

/-- The end of a transaction with `OK` on a located frame, apart from the record (spec/10_state.md R24). -/
def Completed (l : Located) (s t : State) : Prop :=
  t.phase = .done ∧ t.outcome = .ok ∧ t.variant = some l.variant ∧ t.micOk = true ∧ t.bitoff.toNat = l.off ∧
  t.flen.toNat = l.frame.length ∧ (∀ k, (h : k < 17) → t.frame[k] = l.frame.getD k 0) ∧ SameInputs s t

/-- The record carries exactly the values `vals`, and its mask says so; `mic` is set and no bit above it
(spec/10_state.md R19, R20). -/
def RecordIs (r : Record) (vals : Field → Option Int) : Prop :=
  (∀ f, r.value f = vals f) ∧ (∀ f, r.present.getLsbD (presentBit f) = (vals f).isSome) ∧
  r.present.getLsbD 19 = true ∧ ∀ n, 20 ≤ n → r.present.getLsbD n = false

/-- `p` is the smallest index at which the preamble stands in the first `n` row bits, every index before it read
(spec/40_locator.md R91). -/
def FirstPreamble (c : Config) (n : Nat) (m : Memory) (p : Nat) : Prop :=
  p + 24 ≤ n ∧ rowRead m p 24 = .ok c.preamble.toNat ∧
  ∀ j < p, ∃ x, rowRead m j 24 = .ok x ∧ x ≠ c.preamble.toNat

/-- The preamble stands nowhere in the first `n` row bits, every index read (spec/40_locator.md R91). -/
def NoPreamble (c : Config) (n : Nat) (m : Memory) : Prop :=
  ∀ j, j + 24 ≤ n → ∃ x, rowRead m j 24 = .ok x ∧ x ≠ c.preamble.toNat

/-- The command of an entry point (spec/30_encoding.md R60). -/
def commandOf : Entry → Instr
  | .wh2 => .decodeWh2
  | .wh0530 => .decodeWh0530
  | .wh24 => .decodeWh24
  | .wh25 => .decodeWh25
  | .wh51 => .decodeWh51

/-- The instruction `i` ends in a next state with the outcome `o` and nothing decoded. -/
def EndsWith (i : Instr) (o : OutcomeCode) (s : State) : Prop := ∃ t, exec i s = .next t ∧ FailedWith o s t

/-- The command `i` does on `s` what the row instruction `j` does: both answer one next state. -/
def RunsAs (i j : Instr) (s : State) : Prop := ∃ t, exec i s = .next t ∧ exec j s = .next t

/-- The command `i` ends, on `s`, with `FINISH(v, off, f)` (spec/43_classifier.md R130) on the located frame `l`. -/
def FinishesWith (i : Instr) (l : Located) (s : State) : Prop := exec i s = .next (finish fpl l s)

/-- Every check of the integrity table holds of a row instruction's operands (spec/41_integrity.md R105), written out per
variant. -/
def checksHold : Instr → Bool
  | .decodeWh2 | .decodeWh0530 | .decodeWh24 | .decodeWh25 | .decodeWh51 => true
  | .reserved5 | .reserved6 | .reserved7 => true
  | .wh2 x => crc8 fpl ((wh2Bytes x).take 4) == x.crc
  | .wh2a x _ => crc8 fpl ((wh2Bytes x).take 4) == x.crc
  | .wh5 x => crc8 fpl ((wh2Bytes x).take 4) == x.crc
  | .telldus x => crc8 fpl ((wh2Bytes x).take 4) == x.crc
  | .alectoV1 x ign crc => crc8 fpl (rainBytes x ++ [ign]) == crc
  | .wh0530 x ign crc sum => crc8 fpl (rainBytes x ++ [ign]) == crc && sum8 (rainBytes x ++ [ign, crc]) == sum
  | .alectoV2 x ign crc sum =>
    crc8 fpl ((alectoV2Bytes x ign crc sum).take 9) == crc && sum8 ((alectoV2Bytes x ign crc sum).take 10) == sum
  | .alectoV2Dcf x => crc8 fpl ((dcfBytes x).take 9) == x.crc && sum8 ((dcfBytes x).take 10) == x.sum
  | .wh24 _ x => crc8 fpl ((wh24Bytes x).take 15) == x.crc && sum8 ((wh24Bytes x).take 16) == x.sum
  | .wh65b _ x => crc8 fpl ((wh24Bytes x).take 15) == x.crc && sum8 ((wh24Bytes x).take 16) == x.sum
  | .wh25 _ x => sum8 ((wh25Bytes 0xE x).take 6) == x.sum && xorSwap8 ((wh25Bytes 0xE x).take 6) == x.last
  | .wh32b _ x => sum8 ((wh25Bytes 0xE x).take 6) == x.sum
  | .wh32 _ x => sum8 ((wh25Bytes 0xD x).take 6) == x.sum
  | .wh0290 _ x => crc8 fpl ((wh0290Bytes x).take 6) == x.crc && sum8 ((wh0290Bytes x).take 7) == x.sum
  | .wh51 _ x => crc8 fpl ((wh51Bytes x).take 9) == x.crc && sum8 ((wh51Bytes x).take 10) == x.sum

/-- The sanity constants of a row instruction hold (spec/43_classifier.md R144). -/
def constantsHold : Instr → Bool
  | .wh2 x | .wh2a x _ | .wh5 x | .telldus x => x.type == 0x4#4
  | .wh24 _ x | .wh65b _ x => x.family == 0x24#8
  | .decodeWh2 | .decodeWh0530 | .decodeWh24 | .decodeWh25 | .decodeWh51 | .reserved5 | .reserved6 | .reserved7 => true
  | .wh0530 _ _ _ _ | .alectoV1 _ _ _ | .alectoV2 _ _ _ _ | .alectoV2Dcf _ => true
  | .wh25 _ _ | .wh32b _ _ | .wh32 _ _ | .wh0290 _ _ | .wh51 _ _ => true

/-- `f` with bit `j` of byte `k` flipped. -/
def flipBit (f : List Byte) (k j : Nat) : List Byte := f.set k (f.getD k 0 ^^^ BitVec.twoPow 8 j)

/-- How many bytes of a variant's frame are not trailer (spec/41_integrity.md R107). -/
def nonTrailer : Variant → Nat
  | .wh2 | .wh2a | .wh5 | .telldus => 4
  | .alectoV1 | .wh0530 | .wh25 | .wh32 | .wh32b | .wh0290 => 6
  | .alectoV2 | .alectoV2Dcf | .wh51 => 9
  | .wh24 | .wh65b => 15

/-- The least value each field register can hold after a decode (spec/42_unpack_scale.md R119). -/
def fieldMin : Field → Int
  | .batt => -700
  | .temp => -2047
  | .id | .battMv | .hum | .press | .wdir | .wavg | .wmax | .rain | .uv | .uvi | .light | .pm25 | .pm10 | .moist
  | .boost | .adRaw | .rclk => 0

/-- The greatest value each field register can hold after a decode (spec/42_unpack_scale.md R119). -/
def fieldMax : Field → Int
  | .id => 0xFFFFFF | .batt => 2400 | .battMv => 3100 | .temp => 3695 | .hum => 254 | .press => 65534 | .wdir => 510
  | .wavg => 7140000 | .wmax => 3556000 | .rain => 19660500 | .uv => 65534 | .uvi => 13 | .light => 16777214
  | .pm25 => 16383 | .pm10 => 16383 | .moist => 255 | .boost => 7 | .adRaw => 511 | .rclk => 0xFFFFFFFFFFFF

end Sys2Proof.Machine
end

