-- ==== Sys2Proof/Certificates/Slice0/Obligations.lean ====
section
/-! DEFINITION. The statements for the provers. Each docstring names the rule of spec/ it formalises, or says that it rests
on a choice of the model and names the log entry. -/

open Sys2Proof Sys2Proof.Machine

/-! ## Encoding -/

/-- R60: a word written to `CMD` is read by its bits [2:0] alone. -/
def Obligations.CommandWordSelectsByItsLowThreeBits : Prop :=
  ∀ w : Word,
    (w.toNat % 8 = 0 → decodeCommand w = .decodeWh2) ∧ (w.toNat % 8 = 1 → decodeCommand w = .decodeWh0530) ∧
    (w.toNat % 8 = 2 → decodeCommand w = .decodeWh24) ∧ (w.toNat % 8 = 3 → decodeCommand w = .decodeWh25) ∧
    (w.toNat % 8 = 4 → decodeCommand w = .decodeWh51) ∧ (w.toNat % 8 = 5 → decodeCommand w = .reserved5) ∧
    (w.toNat % 8 = 6 → decodeCommand w = .reserved6) ∧ (w.toNat % 8 = 7 → decodeCommand w = .reserved7)

/-- R60, R63 to R74: a few words written out from the spec (vectors T63, T1, T12, T54 of spec/95_test_vectors.md) decode to
the instructions they stand for. -/
def Obligations.WrittenOutWordsDecode : Prop :=
  decode (.command 0xFFFFFFF8) = .ok .decodeWh2 ∧
  decode (.row .wh2 48 [0xFF, 0x43, 0x12, 0x96, 0x00, 0x43]) = .ok (.wh2 ⟨0x4, 0x31, 0x296, 0x00, 0x43⟩) ∧
  decode (.row .wh0530 63 [0xFE, 0x78, 0xB4, 0x26, 0x68, 0x25, 0xFE, 0xAC]) =
    .ok (.alectoV1 ⟨0xC5, 1, 0x213, 0x34, 0x12⟩ 0xFF 0x56) ∧
  decode (.row .wh51 112 [0xAA, 0x2D, 0xD4, 0x51, 0x00, 0x00, 0x01, 0x10, 0x00, 0x64, 0x00, 0x00, 0x0C, 0xD2]) =
    .ok (.wh51 24 ⟨0x000001, 0, 0x10, 0x00, 0x64, 0, 0x000, 0x0C, 0xD2⟩)

/-- Decode and encode agree on every well-formed instruction. The row that the encoder writes is the model's choice where
the spec leaves lead and slack bits open (notes/assumptions 6). -/
def Obligations.DecodeReadsBackEveryEncoding : Prop := ∀ i : Instr, i.wf = true → decode (encode i) = .ok i

/-! ## The step -/

/-- R12, R14: a write of `CMD` while the block is not busy is one transaction, the decoded command on the state whose
pending accesses are the remaining ones. The list of pending accesses is the model's own (notes/assumptions 1). -/
def Obligations.StepRunsTheWrittenCommand : Prop :=
  ∀ (s : State) (w : Word) (rest : List HostOp), s.port = .write 0x000 w :: rest → s.phase ≠ .busy →
    step s = exec (decodeCommand w) { s with port := rest }

/-- R130, R131: a command on a row in which the decoder reads a row instruction, well-formed rows and all others alike,
does what that row instruction does. That a row format is an instruction of its own is the model's choice
(notes/assumptions 4). -/
def Obligations.CommandRunsTheRowInstruction : Prop :=
  ∀ (e : Entry) (i : Instr) (s : State), decodeRow e s.bitcnt.toNat s.row = .ok i → RunsAs (commandOf e) i s

/-- R130, R196, R24: a command on a row that holds a well-formed row instruction with sound checks and constants completes
with `OK` and the frame in the frame registers.
The row is the one the encoder writes, and a row format an instruction, by the model's choice (notes/assumptions 4, 6). -/
def Obligations.CommandCompletesOnASoundRow : Prop :=
  ∀ (i : Instr) (l : Located) (e : Entry) (n : Nat) (bytes : List Byte) (s : State), i.wf = true →
    locatedOf i = some l → encode i = .row e n bytes → checksHold i = true → constantsHold i = true →
    s.bitcnt.toNat = n → s.row = Memory.ofBytes bytes →
    ∃ t, exec (commandOf e) s = .next t ∧ Completed l s t

/-- R143, R211: a command on a row whose bytes the host has all written ends, and not as illegal. -/
def Obligations.CommandsCompleteOnWrittenRows : Prop :=
  ∀ (e : Entry) (s : State), s.bitcnt.toNat ≤ 1024 →
    (∀ k, 8 * k < s.bitcnt.toNat → (Memory.read s.row k).isSome = true) →
    ∃ t, exec (commandOf e) s = .next t ∧ t.phase = .done ∧ t.outcome ≠ .cmdIllegal

/-! ## What every instruction leaves, and what its result depends on -/

/-- R15, R16, R44: the frame of all 23 instructions. No input register, no byte of `ROW` and no pending access of the host
changes. Every output register may. -/
def Obligations.NoInstructionWritesAnInput : Prop :=
  ∀ (i : Instr) (s t : State), exec i s = .next t →
    t.phase = .done ∧ SameInputs s t ∧ ∀ k, Memory.read t.row k = Memory.read s.row k

/-- R200, R24: every failure is one output write, whatever the instruction. -/
def Obligations.FailureClearsEveryOutput : Prop :=
  ∀ (i : Instr) (s t : State), exec i s = .next t → t.outcome ≠ .ok → FailedWith t.outcome s t

/-- R22: the outputs are a function of the command and of `(BITCNT, ROW)`. -/
def Obligations.ResultDependsOnTheInputsOnly : Prop :=
  ∀ (i : Instr) (s s' t : State), s'.bitcnt = s.bitcnt → s'.row = s.row → exec i s = .next t →
    ∃ t', exec i s' = .next t' ∧ SameOutputs t t'

/-- R221: after any instruction, any other (the same one included) does what it would have done before it; one that fails
erases the record of the first. -/
def Obligations.ASecondCommandReplacesAllOutputs : Prop :=
  ∀ (i j : Instr) (s t : State), exec i s = .next t →
    exec j t = exec j s ∧ ∀ u, exec j t = .next u → u.outcome ≠ .ok → FailedWith u.outcome s u

/-- R43: two rows that agree on the bits below `BITCNT`, written and unwritten bytes alike, give one result. -/
def Obligations.BitsBeyondTheRowNeverMatter : Prop :=
  ∀ (i : Instr) (s : State) (row : Memory),
    (∀ j < s.bitcnt.toNat, rowBit row j = rowBit s.row j) →
    (∀ t, exec i s = .next t → exec i { s with row := row } = .next { t with row := row }) ∧
    (∀ r, exec i s = .refused r → exec i { s with row := row } = .refused r)

/-- R212, R43: no instruction faults, and one is refused only at a byte of the row, below `BITCNT`, that holds no value. -/
def Obligations.RefusalsNameAnUnwrittenRowByte : Prop :=
  ∀ (i : Instr) (s : State),
    (∀ r, exec i s ≠ .fault r) ∧
    ∀ r, exec i s = .refused r → ∃ k, r = .unwrittenRow k ∧ Memory.read s.row k = none ∧ 8 * k < s.bitcnt.toNat

/-- R212: with `ROW[0]` unwritten, every command whose tree reads the row is refused there. -/
def Obligations.UnwrittenFirstByteIsRefused : Prop :=
  ∀ s : State, Memory.read s.row 0 = none →
    (s.bitcnt.toNat ∈ [47, 48, 49, 55] → exec .decodeWh2 s = .refused (.unwrittenRow 0)) ∧
    (s.bitcnt.toNat ∈ [63, 71, 95] → exec .decodeWh0530 s = .refused (.unwrittenRow 0)) ∧
    (190 ≤ s.bitcnt.toNat → s.bitcnt.toNat ≤ 215 → exec .decodeWh24 s = .refused (.unwrittenRow 0)) ∧
    (24 ≤ s.bitcnt.toNat → s.bitcnt.toNat ≤ 1024 → ¬ (216 ≤ s.bitcnt.toNat ∧ s.bitcnt.toNat ≤ 439) →
      exec .decodeWh25 s = .refused (.unwrittenRow 0)) ∧
    (24 ≤ s.bitcnt.toNat → s.bitcnt.toNat ≤ 1024 → exec .decodeWh51 s = .refused (.unwrittenRow 0))

/-! ## The commands -/

/-- R197: `CMD_ILLEGAL` comes from a reserved code or an oversized `BITCNT`, whatever the row holds, and from nothing
else. -/
def Obligations.IllegalCommandsAndOperands : Prop :=
  (∀ s : State, EndsWith .reserved5 .cmdIllegal s ∧ EndsWith .reserved6 .cmdIllegal s ∧
    EndsWith .reserved7 .cmdIllegal s) ∧
  (∀ (e : Entry) (s : State), 1024 < s.bitcnt.toNat → EndsWith (commandOf e) .cmdIllegal s) ∧
  (∀ (e : Entry) (s t : State), exec (commandOf e) s = .next t → t.outcome = .cmdIllegal → 1024 < s.bitcnt.toNat)

/-- R132: `E_WH2`, branch by branch. The clause on another first byte at 49 bits holds with `ROW[1]` unwritten too, which
R212 leaves open: that `HDR_FF9` reads the ninth bit only where the byte matched is the model's choice
(notes/assumptions 13). -/
def Obligations.Wh2CommandFollowsItsTree : Prop :=
  ∀ (s : State) (f : List Byte) (h : Nat),
    (s.bitcnt.toNat = 48 → rowRead s.row 0 8 = .ok 0xFF → rowFrame s.row 8 5 = .ok f →
      FinishesWith .decodeWh2 ⟨.wh2, 8, f⟩ s) ∧
    (s.bitcnt.toNat = 55 → rowRead s.row 0 8 = .ok 0xFE → rowFrame s.row 7 6 = .ok f →
      FinishesWith .decodeWh2 ⟨.wh2a, 7, f⟩ s) ∧
    (s.bitcnt.toNat = 47 → rowRead s.row 0 8 = .ok 0xFE → rowFrame s.row 7 5 = .ok f →
      FinishesWith .decodeWh2 ⟨.wh5, 7, f⟩ s) ∧
    (s.bitcnt.toNat = 49 → rowRead s.row 0 8 = .ok 0xFF → rowRead s.row 8 1 = .ok 1 → rowFrame s.row 9 5 = .ok f →
      FinishesWith .decodeWh2 ⟨.telldus, 9, f⟩ s) ∧
    (s.bitcnt.toNat ∈ [48, 49] → rowRead s.row 0 8 = .ok h → h ≠ 0xFF → EndsWith .decodeWh2 .abortEarly s) ∧
    (s.bitcnt.toNat ∈ [47, 55] → rowRead s.row 0 8 = .ok h → h ≠ 0xFE → EndsWith .decodeWh2 .abortEarly s) ∧
    (s.bitcnt.toNat = 49 → rowRead s.row 0 8 = .ok 0xFF → rowRead s.row 8 1 = .ok h → h ≠ 1 →
      EndsWith .decodeWh2 .abortEarly s) ∧
    (s.bitcnt.toNat ≤ 1024 → s.bitcnt.toNat ∉ [47, 48, 49, 55] → EndsWith .decodeWh2 .abortLength s)

/-- R134, R135, R136: `E_WH0530`, `ALECTO_V1` and `ALECTO_V2`, branch by branch. -/
def Obligations.Wh0530CommandFollowsItsTree : Prop :=
  ∀ (s : State) (f : List Byte) (h g : Nat),
    (s.bitcnt.toNat = 71 → rowRead s.row 0 7 = .ok 0x7F → rowRead s.row 7 4 = .ok 0x3 → rowFrame s.row 7 8 = .ok f →
      FinishesWith .decodeWh0530 ⟨.wh0530, 7, f⟩ s) ∧
    (s.bitcnt.toNat = 63 → rowRead s.row 0 7 = .ok 0x7F → rowRead s.row 7 4 = .ok 0x3 → rowFrame s.row 7 7 = .ok f →
      FinishesWith .decodeWh0530 ⟨.alectoV1, 7, f⟩ s) ∧
    (s.bitcnt.toNat = 95 → rowRead s.row 0 7 = .ok 0x7F → rowRead s.row 7 8 = .ok 0x52 → rowFrame s.row 7 11 = .ok f →
      FinishesWith .decodeWh0530 ⟨.alectoV2Dcf, 7, f⟩ s) ∧
    (s.bitcnt.toNat = 95 → rowRead s.row 0 7 = .ok 0x7F → rowRead s.row 7 4 = .ok 0x3 → rowFrame s.row 7 11 = .ok f →
      FinishesWith .decodeWh0530 ⟨.alectoV2, 7, f⟩ s) ∧
    (s.bitcnt.toNat ∈ [63, 71, 95] → rowRead s.row 0 7 = .ok h → h ≠ 0x7F → EndsWith .decodeWh0530 .abortEarly s) ∧
    (s.bitcnt.toNat ∈ [63, 71] → rowRead s.row 0 7 = .ok 0x7F → rowRead s.row 7 4 = .ok h → h ≠ 0x3 →
      EndsWith .decodeWh0530 .abortEarly s) ∧
    (s.bitcnt.toNat = 95 → rowRead s.row 0 7 = .ok 0x7F → rowRead s.row 7 8 = .ok h → h ≠ 0x52 →
      rowRead s.row 7 4 = .ok g → g ≠ 0x3 → EndsWith .decodeWh0530 .abortEarly s) ∧
    (s.bitcnt.toNat ≤ 1024 → s.bitcnt.toNat ∉ [63, 71, 95] → EndsWith .decodeWh0530 .abortLength s)

/-- R137: `E_WH24`, branch by branch; `p` is the first match of the preamble, so the frame's offset is `p + 24`. -/
def Obligations.Wh24CommandFollowsItsTree : Prop :=
  ∀ (s : State) (f : List Byte) (p : Nat),
    (190 ≤ s.bitcnt.toNat → s.bitcnt.toNat ≤ 215 → FirstPreamble fpl s.bitcnt.toNat s.row p →
      p + 24 + 136 ≤ s.bitcnt.toNat → rowFrame s.row (p + 24) 17 = .ok f →
      s.bitcnt.toNat - (p + 24) - 136 < 8 → p + 24 < 61 →
      FinishesWith .decodeWh24 ⟨.wh24, p + 24, f⟩ s) ∧
    (190 ≤ s.bitcnt.toNat → s.bitcnt.toNat ≤ 215 → FirstPreamble fpl s.bitcnt.toNat s.row p →
      p + 24 + 136 ≤ s.bitcnt.toNat → rowFrame s.row (p + 24) 17 = .ok f →
      ¬ (s.bitcnt.toNat - (p + 24) - 136 < 8 ∧ p + 24 < 61) →
      FinishesWith .decodeWh24 ⟨.wh65b, p + 24, f⟩ s) ∧
    (190 ≤ s.bitcnt.toNat → s.bitcnt.toNat ≤ 215 → FirstPreamble fpl s.bitcnt.toNat s.row p →
      s.bitcnt.toNat < p + 24 + 136 → EndsWith .decodeWh24 .abortLength s) ∧
    (190 ≤ s.bitcnt.toNat → s.bitcnt.toNat ≤ 215 → NoPreamble fpl s.bitcnt.toNat s.row →
      EndsWith .decodeWh24 .abortLength s) ∧
    (s.bitcnt.toNat ≤ 1024 → s.bitcnt.toNat < 190 ∨ 215 < s.bitcnt.toNat → EndsWith .decodeWh24 .abortLength s)

/-- R139, R141: `E_WH25` and `WH0290`, branch by branch. -/
def Obligations.Wh25CommandFollowsItsTree : Prop :=
  ∀ (s : State) (f : List Byte) (p : Nat),
    (190 ≤ s.bitcnt.toNat → s.bitcnt.toNat < 440 → exec .decodeWh25 s = exec .decodeWh24 s) ∧
    (s.bitcnt.toNat < 160 → FirstPreamble fpl s.bitcnt.toNat s.row p → rowFrame s.row (p + 24) 8 = .ok f →
      p + 24 + 64 ≤ s.bitcnt.toNat → FinishesWith .decodeWh25 ⟨.wh0290, p + 24, f⟩ s) ∧
    ((160 ≤ s.bitcnt.toNat ∧ s.bitcnt.toNat < 190) ∨ (511 ≤ s.bitcnt.toNat ∧ s.bitcnt.toNat ≤ 1024) →
      FirstPreamble fpl s.bitcnt.toNat s.row p → rowFrame s.row (p + 24) 8 = .ok f → p + 24 + 64 ≤ s.bitcnt.toNat →
      ((byteAt f 0).toNat / 16 = 0xD → FinishesWith .decodeWh25 ⟨.wh32, p + 24, f⟩ s) ∧
      ((byteAt f 0).toNat / 16 = 0xE → FinishesWith .decodeWh25 ⟨.wh32b, p + 24, f⟩ s) ∧
      (byteAt f 0 = 0x41 → FinishesWith .decodeWh25 ⟨.wh0290, p + 24, f⟩ s) ∧
      ((byteAt f 0).toNat / 16 ≠ 0xD → (byteAt f 0).toNat / 16 ≠ 0xE → byteAt f 0 ≠ 0x41 →
        EndsWith .decodeWh25 .abortEarly s)) ∧
    (440 ≤ s.bitcnt.toNat → s.bitcnt.toNat ≤ 510 →
      FirstPreamble fpl s.bitcnt.toNat s.row p → rowFrame s.row (p + 24) 8 = .ok f → p + 24 + 64 ≤ s.bitcnt.toNat →
      ((byteAt f 0).toNat / 16 = 0xE → FinishesWith .decodeWh25 ⟨.wh25, p + 24, f⟩ s) ∧
      (byteAt f 0 = 0x41 → FinishesWith .decodeWh25 ⟨.wh0290, p + 24, f⟩ s) ∧
      ((byteAt f 0).toNat / 16 ≠ 0xE → byteAt f 0 ≠ 0x41 → EndsWith .decodeWh25 .abortEarly s)) ∧
    (s.bitcnt.toNat ≤ 1024 → ¬ (190 ≤ s.bitcnt.toNat ∧ s.bitcnt.toNat < 440) →
      FirstPreamble fpl s.bitcnt.toNat s.row p → s.bitcnt.toNat < p + 24 + 64 →
      EndsWith .decodeWh25 .abortLength s) ∧
    (s.bitcnt.toNat ≤ 1024 → ¬ (190 ≤ s.bitcnt.toNat ∧ s.bitcnt.toNat < 440) →
      NoPreamble fpl s.bitcnt.toNat s.row → EndsWith .decodeWh25 .abortLength s)

/-- R142: `E_WH51`, branch by branch. -/
def Obligations.Wh51CommandFollowsItsTree : Prop :=
  ∀ (s : State) (f : List Byte) (p : Nat), s.bitcnt.toNat ≤ 1024 →
    (FirstPreamble fpl s.bitcnt.toNat s.row p → rowFrame s.row (p + 24) 11 = .ok f → p + 24 + 88 ≤ s.bitcnt.toNat →
      byteAt f 0 = 0x51 → FinishesWith .decodeWh51 ⟨.wh51, p + 24, f⟩ s) ∧
    (FirstPreamble fpl s.bitcnt.toNat s.row p → rowFrame s.row (p + 24) 11 = .ok f → p + 24 + 88 ≤ s.bitcnt.toNat →
      byteAt f 0 ≠ 0x51 → EndsWith .decodeWh51 .abortEarly s) ∧
    (FirstPreamble fpl s.bitcnt.toNat s.row p → s.bitcnt.toNat < p + 24 + 88 → EndsWith .decodeWh51 .abortLength s) ∧
    (NoPreamble fpl s.bitcnt.toNat s.row → EndsWith .decodeWh51 .abortLength s)

/-! ## The row instructions -/

/-- R104, R105, R144, R198: each of the fifteen row instructions ends, in every state, in the outcome its operands call
for: integrity before sanity, and `OK` with the frame in the frame registers.
Running a row as an instruction is the model's choice (notes/assumptions 4). -/
def Obligations.RowInstructionsReportTheirVerdict : Prop :=
  ∀ (i : Instr) (l : Located) (s : State), locatedOf i = some l →
    ∃ t, exec i s = .next t ∧
      (checksHold i = false → FailedWith .failIntegrity s t) ∧
      (checksHold i = true → constantsHold i = false → FailedWith .failSanity s t) ∧
      (checksHold i = true → constantsHold i = true → Completed l s t)

/-- R151: WH2, WH2A and Telldus, sign-magnitude temperature.
Running a row as an instruction is the model's choice (notes/assumptions 4). -/
def Obligations.Wh2FamilyRecord : Prop :=
  ∀ (i : Instr) (x : Wh2Frame) (pad : BitVec 8) (s : State), i = .wh2 x ∨ i = .wh2a x pad ∨ i = .telldus x →
    checksHold i = true → constantsHold i = true →
    ∃ t, exec i s = .next t ∧ t.outcome = .ok ∧ RecordIs t.record (fun
      | .id => some (x.id.toNat : Int)
      | .temp => some (if x.temp12.msb then -(x.temp12.toNat % 2048 : Int) else (x.temp12.toNat : Int))
      | .hum => if x.hum = 0xFF then none else some (x.hum.toNat : Int)
      | _ => none)

/-- R152: WH5, offset-40 temperature.
Running a row as an instruction is the model's choice (notes/assumptions 4). -/
def Obligations.Wh5Record : Prop :=
  ∀ (x : Wh2Frame) (s : State), checksHold (.wh5 x) = true → constantsHold (.wh5 x) = true →
    ∃ t, exec (.wh5 x) s = .next t ∧ t.outcome = .ok ∧ RecordIs t.record (fun
      | .id => some (x.id.toNat : Int)
      | .temp => some ((x.temp12.toNat : Int) - 400)
      | .hum => if x.hum = 0xFF then none else some (x.hum.toNat : Int)
      | _ => none)

/-- R153: WH0530, Alecto-WS1200-v1 and -v2; the rain count is little-endian (R116).
Running a row as an instruction is the model's choice (notes/assumptions 4). -/
def Obligations.RainFamilyRecord : Prop :=
  ∀ (i : Instr) (x : RainFrame) (ign crc sum : BitVec 8) (ign4 : BitVec 32) (s : State),
    i = .wh0530 x ign crc sum ∨ i = .alectoV1 x ign crc ∨ i = .alectoV2 x ign4 crc sum →
    checksHold i = true →
    ∃ t, exec i s = .next t ∧ t.outcome = .ok ∧ RecordIs t.record (fun
      | .id => some (x.id.toNat : Int)
      | .batt => some (1 - (x.battLow.toNat : Int))
      | .temp => some ((x.temp11.toNat : Int) - 400)
      | .rain => some (300 * (256 * (x.rainHi.toNat : Int) + (x.rainLo.toNat : Int)))
      | _ => none)

/-- R156, R158: Alecto-WS1200-v2-DCF, the six clock bytes unaltered, year byte most significant.
Running a row as an instruction is the model's choice (notes/assumptions 4). -/
def Obligations.DcfRecord : Prop :=
  ∀ (x : DcfFrame) (s : State), checksHold (.alectoV2Dcf x) = true →
    ∃ t, exec (.alectoV2Dcf x) s = .next t ∧ t.outcome = .ok ∧
      t.record.rclk = some (x.year ++ x.month ++ x.day ++ x.hour ++ x.minute ++ x.second) ∧
      RecordIs t.record (fun
        | .id => some (x.id.toNat : Int)
        | .batt => some (1 - (x.battLow.toNat : Int))
        | .rclk => some ((x.year ++ x.month ++ x.day ++ x.hour ++ x.minute ++ x.second).toNat : Int)
        | _ => none)

/-- R170: WH24 and WH65B, with every sentinel; they differ in the wind and rain constants only.
Running a row as an instruction is the model's choice (notes/assumptions 4). -/
def Obligations.Wh24AndWh65bRecord : Prop :=
  ∀ (i : Instr) (off : BitVec 16) (x : Wh24Frame) (wind rain : Int) (s : State),
    (i = .wh24 off x ∧ wind = 14000 ∧ rain = 300) ∨ (i = .wh65b off x ∧ wind = 6375 ∧ rain = 254) →
    checksHold i = true → constantsHold i = true →
    ∃ t, exec i s = .next t ∧ t.outcome = .ok ∧ RecordIs t.record (fun
      | .id => some (x.id.toNat : Int)
      | .batt => some (1 - (x.battLow.toNat : Int))
      | .temp => if x.temp11 = 0x7FF then none else some ((x.temp11.toNat : Int) - 400)
      | .hum => if x.hum = 0xFF then none else some (x.hum.toNat : Int)
      | .wdir => if x.wdir9 = 0x1FF then none else some (x.wdir9.toNat : Int)
      | .wavg => if x.wspd9 = 0x1FF then none else some (wind * (x.wspd9.toNat : Int))
      | .wmax => if x.gust8 = 0xFF then none else some (wind * (x.gust8.toNat : Int))
      | .rain => some (rain * (256 * (x.rainHi.toNat : Int) + (x.rainLo.toNat : Int)))
      | .uv => if x.uv16 = 0xFFFF then none else some (x.uv16.toNat : Int)
      | .uvi => if x.uv16 = 0xFFFF then none
          else some ((fpl.uviThresh.filter (fun t => decide (t < x.uv16.toNat))).length : Int)
      | .light => if x.light24 = 0xFFFFFF then none else some (x.light24.toNat : Int)
      | _ => none)

/-- R172: WH25, WH32B (with pressure) and WH32 (without).
Running a row as an instruction is the model's choice (notes/assumptions 4). -/
def Obligations.Wh25FamilyRecord : Prop :=
  ∀ (i : Instr) (off : BitVec 16) (x : Wh25Frame) (s : State),
    i = .wh25 off x ∨ i = .wh32b off x ∨ i = .wh32 off x → checksHold i = true →
    ∃ t, exec i s = .next t ∧ t.outcome = .ok ∧ RecordIs t.record (fun
      | .id => some (x.id.toNat : Int)
      | .batt => some (1 - (x.battLow.toNat : Int))
      | .temp => some ((x.temp10.toNat : Int) - 400)
      | .hum => if x.hum = 0xFF then none else some (x.hum.toNat : Int)
      | .press => if i = .wh32 off x ∨ x.press16 = 0xFFFF then none else some (x.press16.toNat : Int)
      | _ => none)

/-- R173: WH0290; the battery register holds the two bars bits.
Running a row as an instruction is the model's choice (notes/assumptions 4). -/
def Obligations.Wh0290Record : Prop :=
  ∀ (off : BitVec 16) (x : Wh0290Frame) (s : State), checksHold (.wh0290 off x) = true →
    ∃ t, exec (.wh0290 off x) s = .next t ∧ t.outcome = .ok ∧ RecordIs t.record (fun
      | .id => some (x.id.toNat : Int)
      | .batt => some (x.bars2.toNat : Int)
      | .pm25 => some (x.pm25.toNat : Int)
      | .pm10 => some (x.pm10.toNat : Int)
      | _ => none)

/-- R174: WH51; the battery fraction's numerator is not clamped (R125).
Running a row as an instruction is the model's choice (notes/assumptions 4). -/
def Obligations.Wh51Record : Prop :=
  ∀ (off : BitVec 16) (x : Wh51Frame) (s : State), checksHold (.wh51 off x) = true →
    ∃ t, exec (.wh51 off x) s = .next t ∧ t.outcome = .ok ∧ RecordIs t.record (fun
      | .id => some (x.id24.toNat : Int)
      | .battMv => some (100 * (x.batt5.toNat : Int))
      | .batt => some (100 * (x.batt5.toNat : Int) - 700)
      | .boost => some (x.boost3.toNat : Int)
      | .moist => some (x.moist.toNat : Int)
      | .adRaw => some (x.ad9.toNat : Int)
      | _ => none)

/-- R119: after any instruction that ends `OK`, every field register present holds a value in its stated range. -/
def Obligations.FieldValuesStayInRange : Prop :=
  ∀ (i : Instr) (s t : State) (f : Field) (n : Int), exec i s = .next t → t.outcome = .ok →
    t.record.value f = some n → fieldMin f ≤ n ∧ n ≤ fieldMax f

/-- R107: of two row instructions of one variant whose frames differ in one bit outside the trailer, if one ends `OK` the
other ends `FAIL_INTEGRITY`.
Running a row as an instruction is the model's choice (notes/assumptions 4). The row of WH2A or WH5
with `f[0][7]` flipped no longer holds that variant's header: its command ends otherwise (notes/assumptions 18). -/
def Obligations.SingleBitFlipFailsIntegrity : Prop :=
  ∀ (i i' : Instr) (l l' : Located) (k j : Nat) (s t : State), locatedOf i = some l → locatedOf i' = some l' →
    l'.variant = l.variant → k < nonTrailer l.variant → j < 8 → l'.frame = flipBit l.frame k j →
    exec i s = .next t → t.outcome = .ok → EndsWith i' .failIntegrity s

/-! ## The functional units -/

/-- R101: the four properties of the CRC. -/
def Obligations.CrcDivisionLaws : Prop :=
  (∀ a b : List Byte, a.length = b.length → crc8 fpl (List.zipWith (· ^^^ ·) a b) = crc8 fpl a ^^^ crc8 fpl b) ∧
  (∀ (n : Nat) (m : List Byte), crc8 fpl (List.replicate n 0 ++ m) = crc8 fpl m) ∧
  (∀ n : Nat, crc8 fpl (List.replicate n 0) = 0) ∧
  (∀ m : List Byte, crc8 fpl (m ++ [crc8 fpl m]) = 0) ∧
  (∀ (m : List Byte) (k j : Nat), k < m.length → j < 8 → crc8 fpl (flipBit m k j) ≠ crc8 fpl m)

/-- R102: the checksum is the sum modulo 256, and a flipped bit changes it. -/
def Obligations.SumIsModularAndSeesOneBit : Prop :=
  (∀ m : List Byte, (sum8 m).toNat = (m.map BitVec.toNat).sum % 256) ∧
  (∀ (m : List Byte) (k j : Nat), k < m.length → j < 8 → sum8 (flipBit m k j) ≠ sum8 m)

/-- R103: the XOR check is the exclusive or with its nibbles exchanged. -/
def Obligations.XorSwapExchangesNibbles : Prop :=
  ∀ m : List Byte,
    (xorSwap8 m).extractLsb' 0 4 = (m.foldl (· ^^^ ·) 0).extractLsb' 4 4 ∧
    (xorSwap8 m).extractLsb' 4 4 = (m.foldl (· ^^^ ·) 0).extractLsb' 0 4

/-- R122: the UV index is the number of thresholds strictly below the raw value, for any ascending table; it is monotone,
a value equal to a threshold does not pass it and one above does. -/
def Obligations.UvIndexCountsThresholds : Prop :=
  ∀ (ts : List Nat), ts.Pairwise (· < ·) →
    (∀ raw, uvIndex ts raw = (ts.filter (fun t => decide (t < raw))).length) ∧
    (∀ a b, a ≤ b → uvIndex ts a ≤ uvIndex ts b) ∧
    (∀ i, (h : i < ts.length) → uvIndex ts ts[i] = i ∧ uvIndex ts (ts[i] + 1) = i + 1)

/-- R92: a frame byte at any bit offset, out of one or two bytes of `ROW`. -/
def Obligations.FrameByteStraddlesTwoRowBytes : Prop :=
  ∀ (m : Memory) (off : Nat) (a b : Byte),
    (off % 8 = 0 → Memory.read m (off / 8) = some a → rowRead m off 8 = .ok a.toNat) ∧
    (off % 8 ≠ 0 → Memory.read m (off / 8) = some a → Memory.read m (off / 8 + 1) = some b →
      rowRead m off 8 = .ok ((a <<< (off % 8)) ||| (b >>> (8 - off % 8))).toNat)

/-- R4, R116, R118, R121: the integer scales are the decimal factors of the spec over the registers' denominators. -/
def Obligations.IntegerScalesAreTheDecimalFactors : Prop :=
  ∀ raw : Nat,
    ((convert fpl .wh24 9 .wind raw : Int) : ℚ) / denominator .wh24 .wavg = raw * (1 / 8) * (112 / 100) ∧
    ((convert fpl .wh65b 9 .wind raw : Int) : ℚ) / denominator .wh65b .wavg = raw * (1 / 8) * (51 / 100) ∧
    ((convert fpl .wh24 16 .rain raw : Int) : ℚ) / denominator .wh24 .rain = raw * (3 / 10) ∧
    ((convert fpl .wh0530 16 .rain raw : Int) : ℚ) / denominator .wh0530 .rain = raw * (3 / 10) ∧
    ((convert fpl .wh65b 16 .rain raw : Int) : ℚ) / denominator .wh65b .rain = raw * (254 / 1000) ∧
    ((convert fpl .wh5 12 .temp raw : Int) : ℚ) / denominator .wh5 .temp = raw * (1 / 10) - 40 ∧
    ((convert fpl .wh51 5 .battFraction raw : Int) : ℚ) / denominator .wh51 .batt = ((raw * 100 : ℚ) - 700) / 900

/-! ## Reset and the invariant -/

/-- R23: the machine right after reset. That the host has no access pending and has read nothing is the model's choice
(notes/assumptions 1, 2) and is not stated here.
That an absent field register is `none` is notes/assumptions 11. -/
def Obligations.ResetLeavesTheStatedValues : Prop :=
  State.reset.phase = .idle ∧ phaseCode State.reset.phase = 0 ∧ outcomeCode State.reset.outcome = 0 ∧
  variantField State.reset.variant = 15 ∧ State.reset.micOk = false ∧ State.reset.bitoff = 0 ∧ State.reset.flen = 0 ∧
  (∀ k, (h : k < 17) → State.reset.frame[k] = 0) ∧ State.reset.record.present = 0 ∧
  (∀ f, State.reset.record.value f = none ∧ fieldWord State.reset.record f = 0) ∧ State.reset.bitcnt = 0 ∧
  (∀ k, Memory.read State.reset.row k = none)

/-- R210, R222: the reset input puts every register at its reset value in any phase, `BUSY` included. The accesses of the
host that follow it go on: the model's choice (notes/assumptions 9). -/
def Obligations.ResetInputResetsEveryRegister : Prop :=
  ∀ (s : State) (rest : List HostOp), s.port = .reset :: rest →
    ∃ t, step s = .next t ∧ SameOutputs State.reset t ∧ t.bitcnt = 0 ∧ t.row = [] ∧ t.port = rest

/-- R17, R18, R19, R20, R24 hold together of the state after reset. -/
def Obligations.ResetStateIsCoherent : Prop := StateOk State.reset

/-- R13, R16 to R20, R24, R72: every step keeps the row buffer canonical and the outputs coherent: idle and clear, or a
failure with every result register clear, or a record whose mask, frame, length and variant agree. `PHASE = BUSY` is never
entered. -/
def Obligations.StepKeepsTheStateCoherent : Prop := ∀ s t : State, StateOk s → step s = .next t → StateOk t

/-! ## The host's accesses -/

/-- R17: the word a read of `STATUS` returns, in every phase (R25); it changes no register. -/
def Obligations.StatusReadPacksItsFields : Prop :=
  ∀ (s : State) (rest : List HostOp), s.port = .read 0x008 :: rest →
    ∃ w : Word, step s = .next { s with port := rest, rdata := w } ∧
      w.toNat = (phaseCode s.phase).toNat + 4 * (outcomeCode s.outcome).toNat + 32 * (variantField s.variant).toNat +
        512 * (if s.micOk then 1 else 0)

/-- R45, R20: what a read of each register of the map but `STATUS` returns.
The extensions of narrow registers and the refusal are notes/assumptions 15 and 3. -/
def Obligations.RegisterReadsFollowTheMap : Prop :=
  ∀ (s : State) (off : Nat) (rest : List HostOp), s.port = .read off :: rest → s.phase ≠ .busy →
    (off = 0x000 → step s = .next { s with port := rest, rdata := 0 }) ∧
    (off = 0x004 → step s = .next { s with port := rest, rdata := s.bitcnt.setWidth 32 }) ∧
    (off = 0x00C → step s = .next { s with port := rest, rdata := s.bitoff.setWidth 32 }) ∧
    (off = 0x010 → step s = .next { s with port := rest, rdata := s.flen.setWidth 32 }) ∧
    (off = 0x014 → step s = .next { s with port := rest, rdata := s.record.present }) ∧
    (∀ f, off = 0x018 + 4 * presentBit f → s.record.value f = none → step s = .next { s with port := rest, rdata := 0 }) ∧
    (∀ f n, off = 0x018 + 4 * presentBit f → s.record.value f = some n →
      step s = .next { s with port := rest, rdata := BitVec.ofInt 32 n }) ∧
    (∀ x, off = 0x064 → s.record.rclk = some x →
      step s = .next { s with port := rest, rdata := (x.extractLsb' 32 16).setWidth 32 }) ∧
    (off = 0x064 → s.record.rclk = none → step s = .next { s with port := rest, rdata := 0 }) ∧
    (∀ k, (h : k < 17) → off = 0x080 + k → step s = .next { s with port := rest, rdata := s.frame[k].setWidth 32 }) ∧
    (∀ k b, k < 128 → off = 0x100 + k → Memory.read s.row k = some b →
      step s = .next { s with port := rest, rdata := b.setWidth 32 }) ∧
    (∀ k, k < 128 → off = 0x100 + k → Memory.read s.row k = none → step s = .refused (.unwrittenRow k)) ∧
    ((0x068 ≤ off ∧ off < 0x080) ∨ (0x091 ≤ off ∧ off < 0x100) → step s = .next { s with port := rest, rdata := 0 })

/-- R15, R16, R25: a write of `BITCNT` or of a byte of `ROW` changes that and nothing else; every output keeps
describing the last transaction.
That a `ROW` write takes the low 8 bits is notes/assumptions 15. -/
def Obligations.InputWritesChangeTheirRegisterOnly : Prop :=
  ∀ (s : State) (v : Word) (rest : List HostOp), s.phase ≠ .busy →
    (s.port = .write 0x004 v :: rest →
      ∃ t, step s = .next t ∧ t.bitcnt.toNat = v.toNat % 65536 ∧ t.row = s.row ∧ SameOutputs s t ∧ t.port = rest ∧
        t.rdata = s.rdata) ∧
    (∀ k, k < 128 → s.port = .write (0x100 + k) v :: rest →
      ∃ t b, step s = .next t ∧ Memory.read t.row k = some b ∧ b.toNat = v.toNat % 256 ∧
        (∀ j, j ≠ k → Memory.read t.row j = Memory.read s.row j) ∧ t.bitcnt = s.bitcnt ∧ SameOutputs s t ∧
        t.port = rest ∧ t.rdata = s.rdata)

/-- R13, R15, R16, R25, R47: over every access of the host, an output register changes only by a write of `CMD` or by
reset, `PHASE` is idle afterwards only where it was idle before or by reset, `BITCNT` changes only by a write of `BITCNT`
or by reset, and a byte of `ROW` only by a write of that byte or by reset. Each step takes the first pending access, none
of which reset drops: the model's choice (notes/assumptions 1, 9). -/
def Obligations.EachRegisterChangesOnlyByItsOwnAccesses : Prop :=
  ∀ s t : State, step s = .next t →
    (SameOutputs s t ∨ s.port.head? = some .reset ∨ ∃ w, s.port.head? = some (.write 0x000 w)) ∧
    (t.phase = .idle → s.phase = .idle ∨ s.port.head? = some .reset) ∧
    (t.bitcnt = s.bitcnt ∨ s.port.head? = some .reset ∨ ∃ v, s.port.head? = some (.write 0x004 v)) ∧
    (∀ k, Memory.read t.row k = Memory.read s.row k ∨ s.port.head? = some .reset ∨
      (k < 128 ∧ ∃ v, s.port.head? = some (.write (0x100 + k) v))) ∧
    t.port = s.port.tail

/-- R45: a write of a read-only register or of a reserved offset is ignored. -/
def Obligations.WritesToOutputsAreIgnored : Prop :=
  ∀ (s : State) (off : Nat) (v : Word) (rest : List HostOp), s.port = .write off v :: rest → s.phase ≠ .busy →
    (8 ≤ off ∧ off < 0x068 ∧ off % 4 = 0) ∨ (0x068 ≤ off ∧ off < 0x100) →
    step s = .next { s with port := rest }

/-- R217, R25: while `PHASE = BUSY`, writing any register and reading any but `STATUS` is refused. That the refusal covers
offsets that name no register, and writes of read-only ones, is the model's choice (notes/assumptions 16). -/
def Obligations.BusyAccessesAreRefused : Prop :=
  ∀ (s : State) (off : Nat) (v : Word) (rest : List HostOp), s.phase = .busy →
    (s.port = .write off v :: rest → step s = .refused (.busyAccess off)) ∧
    (off ≠ 0x008 → s.port = .read off :: rest → step s = .refused (.busyAccess off))

/-- R80: the accesses that the macro `LOAD` expands to put the bytes into `ROW` and the count into `BITCNT`, one step
each, and change nothing else. -/
def Obligations.LoadMacroLoadsTheRow : Prop :=
  ∀ (s : State) (n : BitVec 16) (bytes : List Byte) (rest : List HostOp), s.phase ≠ .busy → bytes.length ≤ 128 →
    s.port = macroLoad n bytes ++ rest →
    ∃ t, Sys2Proof.core.run (bytes.length + 1) s = .next t ∧ t.bitcnt = n ∧
      (∀ k, k < bytes.length → Memory.read t.row k = bytes[k]?) ∧
      (∀ k, bytes.length ≤ k → Memory.read t.row k = Memory.read s.row k) ∧ SameOutputs s t ∧ t.port = rest ∧
      t.rdata = s.rdata

/-- R80: the macro `TRY` ends with the outputs of the first entry point whose outcome is neither `ABORT_LENGTH` nor
`ABORT_EARLY`, or of the last one; every entry point before it ends in one of the two. -/
def Obligations.TryMacroStopsAtTheFirstOtherOutcome : Prop :=
  ∀ (es : List Entry) (s t : State), s.phase ≠ .busy → es ≠ [] → macroTry es s = .next t →
    ∃ before e later u, es = before ++ e :: later ∧
      (∀ d ∈ before, EndsWith (commandOf d) .abortLength s ∨ EndsWith (commandOf d) .abortEarly s) ∧
      exec (commandOf e) s = .next u ∧ SameOutputs u t ∧
      (later = [] ∨ (u.outcome ≠ .abortLength ∧ u.outcome ≠ .abortEarly))

/-! ## The configuration record -/

/-- R21: the machine is the machine that takes the configuration record as a parameter of its step, at one record. That
this record is the spec's defaults is the model's choice (notes/assumptions 10). -/
def Obligations.TheMachineIsTheParametricOneAtTheDefaults : Prop :=
  (∀ (i : Instr) (s : State), exec i s = execWith fpl i s) ∧ ∀ s : State, step s = stepWith fpl s

/-- R21, R22, R24, R200: at every configuration record, a write of `CMD` runs the decoded command, an instruction's
outputs depend on `BITCNT` and `ROW` alone (nothing a run or a reset does changes a constant), it changes no input, and a
failure clears every result register. The pending accesses and the row instructions are the model's choice
(notes/assumptions 1, 4). -/
def Obligations.EveryConfigurationKeepsTheContract : Prop :=
  ∀ c : Config,
    (∀ (s : State) (w : Word) (rest : List HostOp), s.port = .write 0x000 w :: rest → s.phase ≠ .busy →
      stepWith c s = execWith c (decodeCommand w) { s with port := rest }) ∧
    (∀ (i : Instr) (s s' t : State), s'.bitcnt = s.bitcnt → s'.row = s.row → execWith c i s = .next t →
      ∃ t', execWith c i s' = .next t' ∧ SameOutputs t t') ∧
    (∀ (i : Instr) (s t : State), execWith c i s = .next t →
      t.phase = .done ∧ SameInputs s t ∧ (t.outcome ≠ .ok → FailedWith t.outcome s t))
end

