-- ==== Sys2Proof/Laws/Memory.lean ====
section
/-! SUPPORT. The row buffer: what a read gives after a write, and that every operation keeps the canonical form. -/

namespace Sys2Proof.Machine

/-- A byte just written reads back. -/
@[simp] theorem Memory.read_write_same (m : Memory) (k : Nat) (b : Byte) : Memory.read (Memory.write m k b) k = some b := by
  induction m with
  | nil => simp [Memory.write, Memory.read]
  | cons c rest ih =>
    obtain ⟨a, v⟩ := c
    unfold Memory.write
    split
    · simp [Memory.read]
    · split
      · simp [Memory.read]
      · rename_i _ h
        simp [Memory.read, Ne.symm h, ih]

/-- A write leaves every other byte as it was. -/
theorem Memory.read_write_other (m : Memory) (k j : Nat) (b : Byte) (h : j ≠ k) :
    Memory.read (Memory.write m k b) j = Memory.read m j := by
  induction m with
  | nil => simp [Memory.write, Memory.read, Ne.symm h]
  | cons c rest ih =>
    obtain ⟨a, v⟩ := c
    unfold Memory.write
    split
    · simp [Memory.read, Ne.symm h]
    · split
      · rename_i _ e
        subst e
        simp [Memory.read, Ne.symm h]
      · simp only [Memory.read, ih]

/-- The canonical form of a non-empty list: the first index is below all others, and the rest is canonical. -/
theorem Memory.wf_cons (c : Host.Cell) (rest : Memory) :
    Memory.wf (c :: rest) = true ↔ (∀ d ∈ rest.head?, c.1 < d.1) ∧ Memory.wf rest = true := by
  cases rest with
  | nil => simp [Memory.wf]
  | cons d rest => simp [Memory.wf]

/-- The first index after a write is the written one or the first before it. -/
theorem Memory.head_write (m : Memory) (k : Nat) (b : Byte) :
    ∀ d ∈ (Memory.write m k b).head?, d.1 = k ∨ ∃ c ∈ m.head?, d.1 = c.1 := by
  cases m with
  | nil => simp [Memory.write]
  | cons c rest =>
    obtain ⟨a, v⟩ := c
    unfold Memory.write
    split
    · simp
    · split
      · simp
      · simp

/-- A write keeps the canonical form. -/
theorem Memory.write_wf (m : Memory) (k : Nat) (b : Byte) (h : Memory.wf m = true) : Memory.wf (Memory.write m k b) = true := by
  induction m with
  | nil => simp [Memory.write, Memory.wf]
  | cons c rest ih =>
    obtain ⟨a, v⟩ := c
    have hr := ((Memory.wf_cons _ _).1 h)
    unfold Memory.write
    split
    · rename_i hk
      simp [Memory.wf, hk, h]
    · split
      · rename_i _ e
        subst e
        exact (Memory.wf_cons _ _).2 hr
      · rename_i h1 h2
        refine (Memory.wf_cons _ _).2 ⟨?_, ih hr.2⟩
        intro d hd
        rcases Memory.head_write rest k b d hd with e | ⟨c, hc, e⟩
        · simp only [e]
          omega
        · rw [e]
          exact hr.1 c hc

/-- A write lists no index but the written one and those listed before. -/
theorem Memory.mem_write (m : Memory) (k : Nat) (b : Byte) (c : Host.Cell) (h : c ∈ Memory.write m k b) :
    c.1 = k ∨ c ∈ m := by
  induction m with
  | nil =>
    simp [Memory.write] at h
    simp [h]
  | cons d rest ih =>
    obtain ⟨a, v⟩ := d
    unfold Memory.write at h
    split at h
    · rcases List.mem_cons.1 h with e | e
      · simp [e]
      · exact .inr e
    · split at h
      · rcases List.mem_cons.1 h with e | e
        · simp [e]
        · exact .inr (List.mem_cons_of_mem _ e)
      · rcases List.mem_cons.1 h with e | e
        · exact .inr (by simp [e])
        · rcases ih e with e | e
          · exact .inl e
          · exact .inr (List.mem_cons_of_mem _ e)

/-- What a list of bytes laid out from an index reads as. -/
theorem Memory.read_ofBytesFrom (bytes : List Byte) (k j : Nat) :
    Memory.read (Memory.ofBytesFrom k bytes) j = if k ≤ j then bytes[j - k]? else none := by
  induction bytes generalizing k with
  | nil => simp [Memory.ofBytesFrom, Memory.read]
  | cons b rest ih =>
    simp only [Memory.ofBytesFrom, Memory.read, ih]
    rcases Nat.lt_trichotomy k j with h | h | h
    · have e : j - k = (j - (k + 1)) + 1 := by omega
      have h1 : k ≠ j := by omega
      have h2 : k + 1 ≤ j := h
      have h3 : k ≤ j := by omega
      simp [h1, h2, h3, e]
    · subst h
      simp
    · have h1 : k ≠ j := by omega
      have h2 : ¬ k + 1 ≤ j := by omega
      have h3 : ¬ k ≤ j := by omega
      simp [h1, h2, h3]

/-- `ROW` holding exactly some bytes reads them, and no value above. -/
@[simp] theorem Memory.read_ofBytes (bytes : List Byte) (j : Nat) : Memory.read (Memory.ofBytes bytes) j = bytes[j]? := by
  simp [Memory.ofBytes, Memory.read_ofBytesFrom]

/-- Bytes laid out one after the other are in canonical form. -/
theorem Memory.ofBytesFrom_wf (bytes : List Byte) (k : Nat) : Memory.wf (Memory.ofBytesFrom k bytes) = true := by
  induction bytes generalizing k with
  | nil => rfl
  | cons b rest ih =>
    refine (Memory.wf_cons _ _).2 ⟨?_, ih (k + 1)⟩
    cases rest with
    | nil => simp [Memory.ofBytesFrom]
    | cons b' rest' => simp [Memory.ofBytesFrom]

/-- A loaded row is in canonical form. -/
theorem Memory.ofBytes_wf (bytes : List Byte) : Memory.wf (Memory.ofBytes bytes) = true := Memory.ofBytesFrom_wf bytes 0

/-- The row buffer after reset is in canonical form. -/
theorem reset_row_wf : Memory.wf State.reset.row = true := rfl

end Sys2Proof.Machine
end

