-- ==== Sys2Proof/Laws/Row.lean ====
section
/-! SUPPORT. Reading bits of the row: what a read answers, and that it depends on the bits it names only. -/

namespace Sys2Proof.Machine

@[simp] theorem rowRead_zero (m : Memory) (off : Nat) : rowRead m off 0 = .ok 0 := rfl

/-- One more bit on the right. -/
theorem rowRead_succ (m : Memory) (off n : Nat) :
    rowRead m off (n + 1) = (rowRead m off n).bind (fun hi => (rowBit m (off + n)).bind (fun b => .ok (2 * hi + b.toNat))) := rfl

/-- One more byte on the left. -/
theorem rowFrame_succ (m : Memory) (off n : Nat) :
    rowFrame m off (n + 1) =
      (rowRead m off 8).bind (fun b => (rowFrame m (off + 8) n).bind (fun rest => .ok (BitVec.ofNat 8 b :: rest))) := rfl

/-- A read depends on the bits it names only. -/
theorem rowRead_congr (m m' : Memory) (off n : Nat)
    (h : ∀ j, off ≤ j → j < off + n → rowBit m j = rowBit m' j) : rowRead m off n = rowRead m' off n := by
  induction n with
  | zero => rfl
  | succ n ih =>
    rw [rowRead_succ, rowRead_succ, ih (fun j h1 h2 => h j h1 (by omega)), h (off + n) (by omega) (by omega)]

/-- An extracted frame depends on its own bits only. -/
theorem rowFrame_congr (m m' : Memory) (off n : Nat)
    (h : ∀ j, off ≤ j → j < off + 8 * n → rowBit m j = rowBit m' j) : rowFrame m off n = rowFrame m' off n := by
  induction n generalizing off with
  | zero => rfl
  | succ n ih =>
    rw [rowFrame_succ, rowFrame_succ, rowRead_congr m m' off 8 (fun j h1 h2 => h j h1 (by omega)),
      ih (off + 8) (fun j h1 h2 => h j (by omega) (by omega))]

/-- A read of bits that all hold a value answers a value of its width. -/
theorem rowRead_ok (m : Memory) (off n : Nat) (h : ∀ j, off ≤ j → j < off + n → ∃ b, rowBit m j = .ok b) :
    ∃ x, rowRead m off n = .ok x ∧ x < 2 ^ n := by
  induction n with
  | zero => exact ⟨0, rfl, by simp⟩
  | succ n ih =>
    obtain ⟨x, hx, hlt⟩ := ih (fun j h1 h2 => h j h1 (by omega))
    obtain ⟨b, hb⟩ := h (off + n) (by omega) (by omega)
    refine ⟨2 * x + b.toNat, by simp [rowRead_succ, hx, hb, Except.bind], ?_⟩
    have : b.toNat ≤ 1 := by cases b <;> simp
    rw [Nat.pow_succ]
    omega

/-- A frame of bits that all hold a value is read. -/
theorem rowFrame_ok (m : Memory) (off n : Nat) (h : ∀ j, off ≤ j → j < off + 8 * n → ∃ b, rowBit m j = .ok b) :
    ∃ f, rowFrame m off n = .ok f ∧ f.length = n := by
  induction n generalizing off with
  | zero => exact ⟨[], rfl, rfl⟩
  | succ n ih =>
    obtain ⟨x, hx, -⟩ := rowRead_ok m off 8 (fun j h1 h2 => h j h1 (by omega))
    obtain ⟨f, hf, hl⟩ := ih (off + 8) (fun j h1 h2 => h j (by omega) (by omega))
    exact ⟨BitVec.ofNat 8 x :: f, by simp [rowFrame_succ, hx, hf, Except.bind], by simp [hl]⟩

/-- The upper bits of a read are the read of its first bits. -/
theorem rowRead_upper (m : Memory) (off n k x : Nat) (h : rowRead m off (n + k) = .ok x) :
    rowRead m off n = .ok (x / 2 ^ k) := by
  induction k generalizing x with
  | zero => simpa using h
  | succ k ih =>
    rw [← Nat.add_assoc, rowRead_succ] at h
    cases hr : rowRead m off (n + k) with
    | error e => simp [hr, Except.bind] at h
    | ok y =>
      cases hb : rowBit m (off + (n + k)) with
      | error e => simp [hr, hb, Except.bind] at h
      | ok b =>
        simp only [hr, hb, Except.bind] at h
        injection h with h
        have hb1 : b.toNat ≤ 1 := Bool.toNat_le _
        rw [ih y hr, Nat.pow_succ, Nat.mul_comm (2 ^ k) 2, ← Nat.div_div_eq_div_mul]
        congr 2
        omega

/-- A read that succeeds answers a value of its width. -/
theorem rowRead_lt (m : Memory) (off n x : Nat) (h : rowRead m off n = .ok x) : x < 2 ^ n := by
  induction n generalizing x with
  | zero =>
    cases h
    simp
  | succ n ih =>
    rw [rowRead_succ] at h
    cases hr : rowRead m off n with
    | error e => simp [hr, Except.bind] at h
    | ok y =>
      cases hb : rowBit m (off + n) with
      | error e => simp [hr, hb, Except.bind] at h
      | ok b =>
        simp only [hr, hb, Except.bind] at h
        injection h with h
        have hb1 : b.toNat ≤ 1 := Bool.toNat_le _
        have := ih y hr
        rw [Nat.pow_succ]
        omega

/-- The first byte of an extracted frame is a read of its own. -/
theorem rowFrame_first (m : Memory) (off n : Nat) (f : List Byte) (h : rowFrame m off (n + 1) = .ok f) :
    rowRead m off 8 = .ok (f.getD 0 0).toNat := by
  rw [rowFrame_succ] at h
  cases hr : rowRead m off 8 with
  | error e => simp [hr, Except.bind] at h
  | ok x =>
    cases hf : rowFrame m (off + 8) n with
    | error e => simp [hr, hf, Except.bind] at h
    | ok g =>
      simp only [hr, hf, Except.bind] at h
      injection h with h
      subst h
      have := rowRead_lt m off 8 x hr
      simp
      omega

/-- An extracted frame has the length asked for. -/
theorem rowFrame_length (m : Memory) (off n : Nat) (f : List Byte) (h : rowFrame m off n = .ok f) : f.length = n := by
  induction n generalizing off f with
  | zero =>
    cases h
    rfl
  | succ n ih =>
    rw [rowFrame_succ] at h
    cases hr : rowRead m off 8 with
    | error e => simp [hr, Except.bind] at h
    | ok x =>
      cases hf : rowFrame m (off + 8) n with
      | error e => simp [hr, hf, Except.bind] at h
      | ok g =>
        simp [hr, hf, Except.bind] at h
        subst h
        simp [ih _ _ hf]

/-- The bits of a byte that holds a value are read. -/
theorem rowBit_ok (m : Memory) (i : Nat) (b : Byte) (h : Memory.read m (i / 8) = some b) :
    rowBit m i = .ok (b.getLsbD (7 - i % 8)) := by
  simp [rowBit, h]

/-- A bit of a byte that holds no value stops the transaction (spec/70_reset_and_hazards.md R212). -/
theorem rowBit_unwritten (m : Memory) (i : Nat) (h : Memory.read m (i / 8) = none) :
    rowBit m i = .error (.unwritten (i / 8)) := by
  simp [rowBit, h]

/-- A read of the row stops for one reason only: one of its bits lies in a byte that holds no value. -/
theorem rowRead_error (m : Memory) (off n : Nat) (e : Stop) (h : rowRead m off n = .error e) :
    ∃ j, off ≤ j ∧ j < off + n ∧ e = .unwritten (j / 8) ∧ Memory.read m (j / 8) = none := by
  induction n with
  | zero => cases h
  | succ n ih =>
    rw [rowRead_succ] at h
    cases hr : rowRead m off n with
    | error e' =>
      simp [hr, Except.bind] at h
      subst h
      obtain ⟨j, h1, h2, h3⟩ := ih hr
      exact ⟨j, h1, by omega, h3⟩
    | ok x =>
      cases hb : rowBit m (off + n) with
      | ok b => simp [hr, hb, Except.bind] at h
      | error e' =>
        simp [hr, hb, Except.bind] at h
        subst h
        unfold rowBit at hb
        split at hb
        · cases hb
        · rename_i hk
          cases hb
          exact ⟨off + n, by omega, by omega, rfl, hk⟩

/-- An extraction of a frame stops for one reason only: one of its bits lies in a byte that holds no value. -/
theorem rowFrame_error (m : Memory) (off n : Nat) (e : Stop) (h : rowFrame m off n = .error e) :
    ∃ j, off ≤ j ∧ j < off + 8 * n ∧ e = .unwritten (j / 8) ∧ Memory.read m (j / 8) = none := by
  induction n generalizing off with
  | zero => cases h
  | succ n ih =>
    rw [rowFrame_succ] at h
    cases hr : rowRead m off 8 with
    | error e' =>
      simp [hr, Except.bind] at h
      subst h
      obtain ⟨j, h1, h2, h3⟩ := rowRead_error _ _ _ _ hr
      exact ⟨j, h1, by omega, h3⟩
    | ok x =>
      cases hf : rowFrame m (off + 8) n with
      | ok g => simp [hr, hf, Except.bind] at h
      | error e' =>
        simp [hr, hf, Except.bind] at h
        subst h
        obtain ⟨j, h1, h2, h3⟩ := ih _ hf
        exact ⟨j, by omega, by omega, h3⟩

end Sys2Proof.Machine
end

