-- ==== Sys2Proof/Laws/Locator.lean ====
section
/-! SUPPORT. The preamble search and the extraction: when they find, when they do not, what they depend on. -/

namespace Sys2Proof.Machine

/-- One turn of the search loop. -/
theorem searchPreamble_succ (c : Config) (n : Nat) (m : Memory) (fuel i : Nat) :
    searchPreamble c n m (fuel + 1) i =
      if i + 24 ≤ n then
        (rowRead m i 24).bind
          (fun x => if x = c.preamble.toNat then .ok (some i) else searchPreamble c n m fuel (i + 1))
      else .ok none := rfl

/-- From an index at or below the first match, with fuel to reach it, the search finds it. -/
theorem searchPreamble_found (c : Config) (n : Nat) (m : Memory) (p : Nat) (h : FirstPreamble c n m p) (fuel i : Nat)
    (hi : i ≤ p) (hf : p < i + fuel) : searchPreamble c n m fuel i = .ok (some p) := by
  obtain ⟨hn, hp, hb⟩ := h
  induction fuel generalizing i with
  | zero => omega
  | succ fuel ih =>
    rw [searchPreamble_succ, if_pos (by omega)]
    rcases Nat.lt_or_eq_of_le hi with hlt | rfl
    · obtain ⟨x, hx, hne⟩ := hb i hlt
      simp [hx, Except.bind, hne, ih (i + 1) hlt (by omega)]
    · simp [hp, Except.bind]

/-- Where the preamble stands nowhere, the search answers `NOTFOUND`. -/
theorem searchPreamble_none (c : Config) (n : Nat) (m : Memory) (h : NoPreamble c n m) (fuel i : Nat) :
    searchPreamble c n m fuel i = .ok none := by
  induction fuel generalizing i with
  | zero => rfl
  | succ fuel ih =>
    rw [searchPreamble_succ]
    split
    · rename_i hi
      obtain ⟨x, hx, hne⟩ := h i hi
      simp [hx, Except.bind, hne, ih]
    · rfl

/-- `LOCATE_PREAMBLE()` finds the first match (spec/40_locator.md R91). -/
theorem locatePreamble_found (c : Config) (n : Nat) (m : Memory) (p : Nat) (h : FirstPreamble c n m p) :
    locatePreamble c n m = .ok (some p) :=
  searchPreamble_found c n m p h (n + 1) 0 (by omega) (by have := h.1; omega)

/-- `LOCATE_PREAMBLE()` answers `NOTFOUND` where there is none (spec/40_locator.md R91). -/
theorem locatePreamble_none (c : Config) (n : Nat) (m : Memory) (h : NoPreamble c n m) : locatePreamble c n m = .ok none :=
  searchPreamble_none c n m h (n + 1) 0

/-- What the search found lies inside the row. -/
theorem searchPreamble_bound (c : Config) (n : Nat) (m : Memory) (fuel i p : Nat)
    (h : searchPreamble c n m fuel i = .ok (some p)) : p + 24 ≤ n := by
  induction fuel generalizing i with
  | zero => simp [searchPreamble] at h
  | succ fuel ih =>
    rw [searchPreamble_succ] at h
    split at h
    · rename_i hi
      cases hr : rowRead m i 24 with
      | error e => simp [hr, Except.bind] at h
      | ok x =>
        simp only [hr, Except.bind] at h
        split at h
        · cases h
          exact hi
        · exact ih (i + 1) h
    · simp at h

/-- The search stops for one reason only: a row bit below `bit_count` in a byte that holds no value. -/
theorem searchPreamble_error (c : Config) (n : Nat) (m : Memory) (fuel i : Nat) (e : Stop)
    (h : searchPreamble c n m fuel i = .error e) : ∃ j < n, e = .unwritten (j / 8) ∧ Memory.read m (j / 8) = none := by
  induction fuel generalizing i with
  | zero => simp [searchPreamble] at h
  | succ fuel ih =>
    rw [searchPreamble_succ] at h
    split at h
    · rename_i hi
      cases hr : rowRead m i 24 with
      | error e' =>
        simp [hr, Except.bind] at h
        subst h
        obtain ⟨j, -, h2, h3⟩ := rowRead_error _ _ _ _ hr
        exact ⟨j, by omega, h3⟩
      | ok x =>
        simp only [hr, Except.bind] at h
        split at h
        · cases h
        · exact ih (i + 1) h
    · cases h

/-- The search depends on the first `n` row bits only. -/
theorem searchPreamble_congr (c : Config) (n : Nat) (m m' : Memory) (h : ∀ j < n, rowBit m j = rowBit m' j) (fuel i : Nat) :
    searchPreamble c n m fuel i = searchPreamble c n m' fuel i := by
  induction fuel generalizing i with
  | zero => rfl
  | succ fuel ih =>
    rw [searchPreamble_succ, searchPreamble_succ]
    split
    · rename_i hi
      rw [rowRead_congr m m' i 24 (fun j _ h2 => h j (by omega)), ih]
    · rfl

/-- The search ends where every row bit holds a value. -/
theorem searchPreamble_total (c : Config) (n : Nat) (m : Memory) (h : ∀ j < n, ∃ b, rowBit m j = .ok b) (fuel i : Nat) :
    ∃ r, searchPreamble c n m fuel i = .ok r := by
  induction fuel generalizing i with
  | zero => exact ⟨none, rfl⟩
  | succ fuel ih =>
    rw [searchPreamble_succ]
    split
    · rename_i hi
      obtain ⟨x, hx, -⟩ := rowRead_ok m i 24 (fun j _ h2 => h j (by omega))
      simp only [hx, Except.bind]
      split
      · exact ⟨_, rfl⟩
      · exact ih (i + 1)
    · exact ⟨none, rfl⟩

/-- `EXTRACT` fails by length first (spec/40_locator.md R92). -/
theorem extract_short (n : Nat) (m : Memory) (off len : Nat) (h : n < off + 8 * len) :
    extract n m off len = .error (.outcome .abortLength) := by simp [extract, h]

/-- `EXTRACT` copies where the frame fits. -/
theorem extract_fits (n : Nat) (m : Memory) (off len : Nat) (h : off + 8 * len ≤ n) :
    extract n m off len = rowFrame m off len := by simp [extract, Nat.not_lt.2 h]

/-- What an extraction that succeeds says. -/
theorem extract_ok (n : Nat) (m : Memory) (off len : Nat) (f : List Byte) (h : extract n m off len = .ok f) :
    off + 8 * len ≤ n ∧ rowFrame m off len = .ok f ∧ f.length = len := by
  unfold extract at h
  split at h
  · cases h
  · exact ⟨by omega, h, rowFrame_length _ _ _ _ h⟩

/-- An extraction depends on the first `n` row bits only. -/
theorem extract_congr (n : Nat) (m m' : Memory) (off len : Nat) (h : ∀ j < n, rowBit m j = rowBit m' j) :
    extract n m off len = extract n m' off len := by
  unfold extract
  split
  · rfl
  · exact rowFrame_congr m m' off len (fun j _ h2 => h j (by omega))

/-- `LOCATE_FSK` as its two stages. -/
theorem locateFsk_eq (c : Config) (n : Nat) (m : Memory) (len : Nat) :
    locateFsk c n m len = (locatePreamble c n m).bind (fun r => match r with
      | none => .error (.outcome .abortLength)
      | some i => (extract n m (i + 24) len).bind (fun f => .ok (i + 24, f))) := rfl

/-- `LOCATE_FSK` on a row with a preamble is the extraction after its first occurrence (spec/40_locator.md R94). -/
theorem locateFsk_found (c : Config) (n : Nat) (m : Memory) (len p : Nat) (h : FirstPreamble c n m p) :
    locateFsk c n m len = (extract n m (p + 24) len).bind (fun f => .ok (p + 24, f)) := by
  rw [locateFsk_eq, locatePreamble_found c n m p h]
  rfl

/-- `LOCATE_FSK` on a row without a preamble (spec/40_locator.md R94). -/
theorem locateFsk_none (c : Config) (n : Nat) (m : Memory) (len : Nat) (h : NoPreamble c n m) :
    locateFsk c n m len = .error (.outcome .abortLength) := by
  rw [locateFsk_eq, locatePreamble_none c n m h]
  rfl

/-- What `LOCATE_FSK` says when it succeeds. -/
theorem locateFsk_ok (c : Config) (n : Nat) (m : Memory) (len off : Nat) (f : List Byte)
    (h : locateFsk c n m len = .ok (off, f)) :
    24 ≤ off ∧ off + 8 * len ≤ n ∧ rowFrame m off len = .ok f ∧ f.length = len := by
  rw [locateFsk_eq] at h
  cases hp : locatePreamble c n m with
  | error e => simp [hp, Except.bind] at h
  | ok r =>
    cases r with
    | none => simp [hp, Except.bind] at h
    | some i =>
      simp only [hp, Except.bind] at h
      cases he : extract n m (i + 24) len with
      | error e => simp [he] at h
      | ok g =>
        simp [he] at h
        obtain ⟨rfl, rfl⟩ := h
        exact ⟨by omega, extract_ok _ _ _ _ _ he⟩

/-- `LOCATE_FSK` depends on the first `n` row bits only. -/
theorem locateFsk_congr (c : Config) (n : Nat) (m m' : Memory) (len : Nat) (h : ∀ j < n, rowBit m j = rowBit m' j) :
    locateFsk c n m len = locateFsk c n m' len := by
  rw [locateFsk_eq, locateFsk_eq]
  unfold locatePreamble
  rw [searchPreamble_congr c n m m' h]
  congr 1
  funext r
  cases r with
  | none => rfl
  | some i => simp only [extract_congr n m m' (i + 24) len h]

/-- The fixed offset of a PWM-family variant is not past the row when the frame fits. -/
theorem locateFixed_eq (c : Config) (n : Nat) (m : Memory) (v : Variant) (off : Nat) (h : c.fixedOff v = some off) :
    locateFixed c n m v = (extract n m off (c.frameLen v)).bind (fun f => .ok ⟨v, off, f⟩) := by
  simp only [locateFixed, h]
  rfl

/-- What the fixed-position location says when it succeeds. -/
theorem locateFixed_ok (c : Config) (n : Nat) (m : Memory) (v : Variant) (l : Located) (h : locateFixed c n m v = .ok l) :
    l.variant = v ∧ l.frame.length = c.frameLen v ∧ l.off + 8 * c.frameLen v ≤ n := by
  cases ho : c.fixedOff v with
  | none => simp [locateFixed, ho] at h
  | some off =>
    rw [locateFixed_eq c n m v off ho] at h
    cases he : extract n m off (c.frameLen v) with
    | error e => simp [he, Except.bind] at h
    | ok f =>
      simp [he, Except.bind] at h
      subst h
      have := extract_ok _ _ _ _ _ he
      exact ⟨rfl, this.2.2, this.1⟩

/-- The fixed-position location depends on the first `n` row bits only. -/
theorem locateFixed_congr (c : Config) (n : Nat) (m m' : Memory) (v : Variant) (h : ∀ j < n, rowBit m j = rowBit m' j) :
    locateFixed c n m v = locateFixed c n m' v := by
  cases ho : c.fixedOff v with
  | none => simp [locateFixed, ho]
  | some off => rw [locateFixed_eq c n m v off ho, locateFixed_eq c n m' v off ho, extract_congr n m m' _ _ h]

end Sys2Proof.Machine
end

