-- ==== Sys2Proof/Laws/Classifier.lean ====
section
/-! SUPPORT. The decision trees: what they say when they locate a frame, for which reasons they stop, and that they depend
on the first `bit_count` row bits only. -/

namespace Sys2Proof.Machine

/-- A header test as a read and a comparison. -/
theorem headerTest_eq (m : Memory) (off w value : Nat) :
    headerTest m off w value =
      (rowRead m off w).bind (fun x => if x = value then .ok () else .error (.outcome .abortEarly)) := rfl

/-- A header that holds the value passes. -/
theorem headerTest_pass (m : Memory) (off w value : Nat) (h : rowRead m off w = .ok value) :
    headerTest m off w value = .ok () := by simp [headerTest_eq, h, Except.bind]

/-- A header that holds another value ends in `ABORT_EARLY` (spec/60_exceptions.md R193). -/
theorem headerTest_fail (m : Memory) (off w value x : Nat) (h : rowRead m off w = .ok x) (hne : x ≠ value) :
    headerTest m off w value = .error (.outcome .abortEarly) := by simp [headerTest_eq, h, Except.bind, hne]

/-- A header test depends on its own bits only. -/
theorem headerTest_congr (m m' : Memory) (off w value : Nat)
    (h : ∀ j, off ≤ j → j < off + w → rowBit m j = rowBit m' j) : headerTest m off w value = headerTest m' off w value := by
  rw [headerTest_eq, headerTest_eq, rowRead_congr m m' off w h]

/-- A `BITCNT` that fits the buffer leaves the decision to the tree (spec/60_exceptions.md R197). -/
theorem classify_tree (e : Entry) (n : Nat) (m : Memory) (h : n ≤ 1024) : classify fpl e n m = classifyTree fpl e n m :=
  if_neg (Nat.not_lt.2 h)

/-- An oversized `BITCNT` is illegal (spec/60_exceptions.md R197). -/
theorem classify_oversized (e : Entry) (n : Nat) (m : Memory) (h : 1024 < n) :
    classify fpl e n m = .error (.outcome .cmdIllegal) := if_pos h

/-- `E_WH24` at the spec's constants (spec/43_classifier.md R137). -/
theorem treeWh24_eq (n : Nat) (m : Memory) :
    treeWh24 fpl n m =
      if n < 190 ∨ 215 < n then .error (.outcome .abortLength)
      else (locateFsk fpl n m 17).bind (fun r => .ok (Located.mk (wh24OrWh65b fpl n r.1) r.1 r.2)) := rfl

/-- `WH0290` at the spec's constants (spec/43_classifier.md R141). -/
theorem treeWh0290_eq (n : Nat) (m : Memory) :
    treeWh0290 fpl n m = (locateFsk fpl n m 8).bind (fun r => .ok (Located.mk .wh0290 r.1 r.2)) := rfl

/-- `E_WH25` from its tentative variant, at the spec's constants (spec/43_classifier.md R139). -/
theorem treeWh25Tentative_eq (n : Nat) (m : Memory) (t : Variant) :
    treeWh25Tentative fpl n m t = (locateFsk fpl n m 8).bind (fun r =>
      if t = .wh32b ∧ byteSlice (r.2.getD 0 0) 7 4 = 0xD then .ok (Located.mk .wh32 r.1 r.2)
      else if byteSlice (r.2.getD 0 0) 7 4 = 0xE then .ok (Located.mk t r.1 r.2)
      else if r.2.getD 0 0 = 0x41 then treeWh0290 fpl n m
      else .error (.outcome .abortEarly)) := rfl

/-- `E_WH25` at the spec's constants (spec/43_classifier.md R139). -/
theorem treeWh25_eq (n : Nat) (m : Memory) :
    treeWh25 fpl n m =
      if n < 160 then treeWh0290 fpl n m
      else if n < 190 then treeWh25Tentative fpl n m .wh32b
      else if n < 440 then treeWh24 fpl n m
      else if n ≤ 510 then treeWh25Tentative fpl n m .wh25
      else treeWh25Tentative fpl n m .wh32b := rfl

/-- `E_WH51` at the spec's constants (spec/43_classifier.md R142). -/
theorem treeWh51_eq (n : Nat) (m : Memory) :
    treeWh51 fpl n m = (locateFsk fpl n m 11).bind (fun r =>
      if r.2.getD 0 0 = 0x51 then .ok (Located.mk .wh51 r.1 r.2) else .error (.outcome .abortEarly)) := rfl

/-- What is true of every frame a tree locates. -/
def LocatedOk (c : Config) (n : Nat) (l : Located) : Prop :=
  l.frame.length = c.frameLen l.variant ∧ l.off + 8 * c.frameLen l.variant ≤ n

/-- What a stage answers after an earlier one, when it succeeds. -/
theorem bind_ok {α β : Type} (x : Except Stop α) (f : α → Except Stop β) (b : β) (h : x.bind f = .ok b) :
    ∃ a, x = .ok a ∧ f a = .ok b := by
  cases x with
  | error e => cases h
  | ok a => exact ⟨a, rfl, h⟩

/-- A fixed-position location is of its variant's frame length. -/
theorem locatedOk_fixed (c : Config) (n : Nat) (m : Memory) (v : Variant) (l : Located)
    (h : locateFixed c n m v = .ok l) : LocatedOk c n l := by
  have := locateFixed_ok c n m v l h
  unfold LocatedOk
  rw [this.1]
  exact this.2

/-- What `E_WH2` locates is of its variant's frame length. -/
theorem treeWh2_ok (c : Config) (n : Nat) (m : Memory) (l : Located) (h : treeWh2 c n m = .ok l) : LocatedOk c n l := by
  unfold treeWh2 at h
  repeat' split at h
  · obtain ⟨-, -, h⟩ := bind_ok _ _ _ h
    exact locatedOk_fixed _ _ _ _ _ h
  · obtain ⟨-, -, h⟩ := bind_ok _ _ _ h
    exact locatedOk_fixed _ _ _ _ _ h
  · obtain ⟨-, -, h⟩ := bind_ok _ _ _ h
    exact locatedOk_fixed _ _ _ _ _ h
  · obtain ⟨-, -, h⟩ := bind_ok _ _ _ h
    obtain ⟨-, -, h⟩ := bind_ok _ _ _ h
    exact locatedOk_fixed _ _ _ _ _ h
  · cases h

/-- What `ALECTO_V2` locates is of its variant's frame length. -/
theorem treeAlectoV2_ok (c : Config) (n : Nat) (m : Memory) (l : Located) (h : treeAlectoV2 c n m = .ok l) :
    LocatedOk c n l := by
  unfold treeAlectoV2 at h
  obtain ⟨-, -, h⟩ := bind_ok _ _ _ h
  obtain ⟨t, -, h⟩ := bind_ok _ _ _ h
  split at h
  · exact locatedOk_fixed _ _ _ _ _ h
  · obtain ⟨-, -, h⟩ := bind_ok _ _ _ h
    exact locatedOk_fixed _ _ _ _ _ h

/-- What `E_WH0530` locates is of its variant's frame length. -/
theorem treeWh0530_ok (c : Config) (n : Nat) (m : Memory) (l : Located) (h : treeWh0530 c n m = .ok l) :
    LocatedOk c n l := by
  unfold treeWh0530 at h
  repeat' split at h
  · unfold treeAlectoV1 at h
    obtain ⟨-, -, h⟩ := bind_ok _ _ _ h
    obtain ⟨-, -, h⟩ := bind_ok _ _ _ h
    exact locatedOk_fixed _ _ _ _ _ h
  · exact treeAlectoV2_ok _ _ _ _ h
  · obtain ⟨-, -, h⟩ := bind_ok _ _ _ h
    obtain ⟨-, -, h⟩ := bind_ok _ _ _ h
    exact locatedOk_fixed _ _ _ _ _ h
  · cases h

/-- The two variants of `E_WH24` have one frame length in the spec's table. -/
theorem frameLen_wh24OrWh65b (n off : Nat) : fpl.frameLen (wh24OrWh65b fpl n off) = fpl.frameLen .wh24 := by
  unfold wh24OrWh65b
  split <;> rfl

/-- What `E_WH24` locates is of its variant's frame length. -/
theorem treeWh24_ok (n : Nat) (m : Memory) (l : Located) (h : treeWh24 fpl n m = .ok l) : LocatedOk fpl n l := by
  unfold treeWh24 at h
  split at h
  · cases h
  · obtain ⟨⟨off, f⟩, hl, h⟩ := bind_ok _ _ _ h
    have hk := locateFsk_ok _ _ _ _ _ _ hl
    injection h with h
    subst h
    refine ⟨?_, ?_⟩
    · rw [frameLen_wh24OrWh65b]
      exact hk.2.2.2
    · rw [frameLen_wh24OrWh65b]
      exact hk.2.1

/-- What `WH0290` locates is of its variant's frame length. -/
theorem treeWh0290_ok (c : Config) (n : Nat) (m : Memory) (l : Located) (h : treeWh0290 c n m = .ok l) :
    LocatedOk c n l := by
  unfold treeWh0290 at h
  obtain ⟨⟨off, f⟩, hl, h⟩ := bind_ok _ _ _ h
  cases h
  have := locateFsk_ok _ _ _ _ _ _ hl
  exact ⟨this.2.2.2, this.2.1⟩

/-- What `E_WH25` locates from its tentative variant is of its variant's frame length. -/
theorem treeWh25Tentative_ok (n : Nat) (m : Memory) (t : Variant) (ht : fpl.frameLen t = 8) (l : Located)
    (h : treeWh25Tentative fpl n m t = .ok l) : LocatedOk fpl n l := by
  unfold treeWh25Tentative at h
  obtain ⟨⟨off, f⟩, hl, h⟩ := bind_ok _ _ _ h
  have hk := locateFsk_ok _ _ _ _ _ _ hl
  have e : fpl.frameLen .wh25 = 8 := rfl
  rw [e] at hk
  dsimp only at h
  repeat' split at h
  · cases h
    exact ⟨hk.2.2.2, hk.2.1⟩
  · cases h
    exact ⟨by rw [ht]; exact hk.2.2.2, by rw [ht]; exact hk.2.1⟩
  · exact treeWh0290_ok _ _ _ _ h
  · cases h

/-- What `E_WH51` locates is of its variant's frame length. -/
theorem treeWh51_ok (c : Config) (n : Nat) (m : Memory) (l : Located) (h : treeWh51 c n m = .ok l) : LocatedOk c n l := by
  unfold treeWh51 at h
  obtain ⟨⟨off, f⟩, hl, h⟩ := bind_ok _ _ _ h
  have hk := locateFsk_ok _ _ _ _ _ _ hl
  dsimp only at h
  split at h
  · cases h
    exact ⟨hk.2.2.2, hk.2.1⟩
  · cases h

/-- What any entry point locates is of its variant's frame length and inside the row, which fits in the buffer. -/
theorem classify_ok (e : Entry) (n : Nat) (m : Memory) (l : Located) (h : classify fpl e n m = .ok l) :
    n ≤ 8 * fpl.rowCapBytes ∧ LocatedOk fpl n l := by
  unfold classify at h
  split at h
  · cases h
  · rename_i hn
    refine ⟨by omega, ?_⟩
    cases e with
    | wh2 => exact treeWh2_ok _ _ _ _ h
    | wh0530 => exact treeWh0530_ok _ _ _ _ h
    | wh24 => exact treeWh24_ok _ _ _ h
    | wh51 => exact treeWh51_ok _ _ _ _ h
    | wh25 =>
      change treeWh25 fpl n m = .ok l at h
      unfold treeWh25 at h
      repeat' split at h
      · exact treeWh0290_ok _ _ _ _ h
      · exact treeWh25Tentative_ok _ _ _ rfl _ h
      · exact treeWh24_ok _ _ _ h
      · exact treeWh25Tentative_ok _ _ _ rfl _ h
      · exact treeWh25Tentative_ok _ _ _ rfl _ h

section congr
variable (c : Config) (n : Nat) (m m' : Memory) (h : ∀ j < n, rowBit m j = rowBit m' j)
include h

/-- `E_WH2` depends on the first `bit_count` row bits only (spec/20_memory.md R43). -/
theorem treeWh2_congr : treeWh2 c n m = treeWh2 c n m' := by
  unfold treeWh2
  repeat' split
  all_goals first
    | rfl
    | simp only [headerTest_congr m m' 0 8 _ (fun j _ h2 => h j (by omega)),
        headerTest_congr m m' 8 1 _ (fun j _ h2 => h j (by omega)), locateFixed_congr c n m m' _ h]

/-- `ALECTO_V1` depends on the first `bit_count` row bits only. -/
theorem treeAlectoV1_congr (hn : 15 ≤ n) : treeAlectoV1 c n m = treeAlectoV1 c n m' := by
  unfold treeAlectoV1
  simp only [headerTest_congr m m' 0 7 _ (fun j _ h2 => h j (by omega)),
    headerTest_congr m m' 7 4 _ (fun j _ h2 => h j (by omega)), locateFixed_congr c n m m' _ h]

/-- `ALECTO_V2` depends on the first `bit_count` row bits only. -/
theorem treeAlectoV2_congr (hn : 15 ≤ n) : treeAlectoV2 c n m = treeAlectoV2 c n m' := by
  unfold treeAlectoV2
  simp only [headerTest_congr m m' 0 7 _ (fun j _ h2 => h j (by omega)),
    headerTest_congr m m' 7 4 _ (fun j _ h2 => h j (by omega)),
    rowRead_congr m m' 7 8 (fun j _ h2 => h j (by omega)), locateFixed_congr c n m m' _ h]

/-- `E_WH0530` depends on the first `bit_count` row bits only. -/
theorem treeWh0530_congr : treeWh0530 c n m = treeWh0530 c n m' := by
  unfold treeWh0530
  repeat' split
  · exact treeAlectoV1_congr c n m m' h (by omega)
  · exact treeAlectoV2_congr c n m m' h (by omega)
  · simp only [headerTest_congr m m' 0 7 _ (fun j _ h2 => h j (by omega)),
      headerTest_congr m m' 7 4 _ (fun j _ h2 => h j (by omega)), locateFixed_congr c n m m' _ h]
  · rfl

/-- `E_WH24` depends on the first `bit_count` row bits only. -/
theorem treeWh24_congr : treeWh24 c n m = treeWh24 c n m' := by
  unfold treeWh24
  rw [locateFsk_congr c n m m' _ h]

/-- `WH0290` depends on the first `bit_count` row bits only. -/
theorem treeWh0290_congr : treeWh0290 c n m = treeWh0290 c n m' := by
  unfold treeWh0290
  rw [locateFsk_congr c n m m' _ h]

/-- `E_WH25` from its tentative variant depends on the first `bit_count` row bits only. -/
theorem treeWh25Tentative_congr (t : Variant) : treeWh25Tentative c n m t = treeWh25Tentative c n m' t := by
  unfold treeWh25Tentative
  rw [locateFsk_congr c n m m' _ h, treeWh0290_congr c n m m' h]

/-- Every decision tree depends on the first `bit_count` row bits only (spec/20_memory.md R43). -/
theorem classify_congr (e : Entry) : classify c e n m = classify c e n m' := by
  unfold classify
  split
  · rfl
  · cases e with
    | wh2 => exact treeWh2_congr c n m m' h
    | wh0530 => exact treeWh0530_congr c n m m' h
    | wh24 => exact treeWh24_congr c n m m' h
    | wh51 =>
      change treeWh51 c n m = treeWh51 c n m'
      unfold treeWh51
      rw [locateFsk_congr c n m m' _ h]
    | wh25 =>
      change treeWh25 c n m = treeWh25 c n m'
      unfold treeWh25
      rw [treeWh0290_congr c n m m' h, treeWh24_congr c n m m' h, treeWh25Tentative_congr c n m m' h,
        treeWh25Tentative_congr c n m m' h]

end congr

section errors

/-- Why a stage stops after an earlier one: the earlier one stopped, or it did. -/
theorem bind_error {α β : Type} (x : Except Stop α) (f : α → Except Stop β) (e : Stop) (h : x.bind f = .error e) :
    x = .error e ∨ ∃ a, x = .ok a ∧ f a = .error e := by
  cases x with
  | error e' =>
    cases h
    exact .inl rfl
  | ok a => exact .inr ⟨a, rfl, h⟩

/-- A reason for which a decision tree may stop: one of the two aborts, or a byte of the row below `bit_count` that holds
no value. -/
def TreeStop (n : Nat) (m : Memory) : Stop → Prop
  | .outcome o => o = .abortLength ∨ o = .abortEarly
  | .unwritten k => Memory.read m k = none ∧ 8 * k < n

/-- `ABORT_LENGTH` is such a reason. -/
theorem treeStop_length (n : Nat) (m : Memory) : TreeStop n m (.outcome .abortLength) := .inl rfl

/-- `ABORT_EARLY` is such a reason. -/
theorem treeStop_early (n : Nat) (m : Memory) : TreeStop n m (.outcome .abortEarly) := .inr rfl

/-- A row bit below `bit_count` in a byte that holds no value is such a reason. -/
theorem treeStop_unwritten (n j : Nat) (m : Memory) (e : Stop) (hj : j < n)
    (h : e = .unwritten (j / 8) ∧ Memory.read m (j / 8) = none) : TreeStop n m e := by
  obtain ⟨rfl, hr⟩ := h
  exact ⟨hr, by omega⟩

/-- A read below `bit_count` stops for such a reason. -/
theorem rowRead_treeStop (n : Nat) (m : Memory) (off w : Nat) (e : Stop) (hn : off + w ≤ n)
    (h : rowRead m off w = .error e) : TreeStop n m e := by
  obtain ⟨j, -, hj, h⟩ := rowRead_error _ _ _ _ h
  exact treeStop_unwritten n j m e (by omega) h

/-- A header test below `bit_count` stops for such a reason. -/
theorem headerTest_error (n : Nat) (m : Memory) (off w value : Nat) (e : Stop) (hn : off + w ≤ n)
    (h : headerTest m off w value = .error e) : TreeStop n m e := by
  rw [headerTest_eq] at h
  rcases bind_error _ _ _ h with h | ⟨x, -, h⟩
  · exact rowRead_treeStop n m off w e hn h
  · split at h
    · cases h
    · cases h
      exact treeStop_early n m

/-- An extraction stops for such a reason. -/
theorem extract_error (n : Nat) (m : Memory) (off len : Nat) (e : Stop) (h : extract n m off len = .error e) :
    TreeStop n m e := by
  unfold extract at h
  split at h
  · cases h
    exact treeStop_length n m
  · obtain ⟨j, -, hj, h⟩ := rowFrame_error _ _ _ _ h
    exact treeStop_unwritten n j m e (by omega) h

/-- The preamble location stops for such a reason. -/
theorem locateFsk_error (c : Config) (n : Nat) (m : Memory) (len : Nat) (e : Stop) (h : locateFsk c n m len = .error e) :
    TreeStop n m e := by
  rw [locateFsk_eq] at h
  rcases bind_error _ _ _ h with h | ⟨r, -, h⟩
  · obtain ⟨j, hj, h⟩ := searchPreamble_error _ _ _ _ _ _ h
    exact treeStop_unwritten n j m e hj h
  · cases r with
    | none =>
      cases h
      exact treeStop_length n m
    | some i =>
      rcases bind_error _ _ _ h with h | ⟨f, -, h⟩
      · exact extract_error _ _ _ _ _ h
      · cases h

/-- The fixed-position location stops for such a reason. -/
theorem locateFixed_error (c : Config) (n : Nat) (m : Memory) (v : Variant) (e : Stop)
    (h : locateFixed c n m v = .error e) : TreeStop n m e := by
  cases ho : c.fixedOff v with
  | none =>
    simp [locateFixed, ho] at h
    subst h
    exact treeStop_length n m
  | some off =>
    rw [locateFixed_eq c n m v off ho] at h
    rcases bind_error _ _ _ h with h | ⟨f, -, h⟩
    · exact extract_error _ _ _ _ _ h
    · cases h

/-- `WH0290` stops for such a reason. -/
theorem treeWh0290_error (c : Config) (n : Nat) (m : Memory) (e : Stop) (h : treeWh0290 c n m = .error e) :
    TreeStop n m e := by
  unfold treeWh0290 at h
  rcases bind_error _ _ _ h with h | ⟨r, -, h⟩
  · exact locateFsk_error _ _ _ _ _ h
  · cases h

/-- `E_WH24` stops for such a reason. -/
theorem treeWh24_error (c : Config) (n : Nat) (m : Memory) (e : Stop) (h : treeWh24 c n m = .error e) :
    TreeStop n m e := by
  unfold treeWh24 at h
  split at h
  · cases h
    exact treeStop_length n m
  · rcases bind_error _ _ _ h with h | ⟨r, -, h⟩
    · exact locateFsk_error _ _ _ _ _ h
    · cases h

/-- `E_WH25` from its tentative variant stops for such a reason. -/
theorem treeWh25Tentative_error (c : Config) (n : Nat) (m : Memory) (t : Variant) (e : Stop)
    (h : treeWh25Tentative c n m t = .error e) : TreeStop n m e := by
  unfold treeWh25Tentative at h
  rcases bind_error _ _ _ h with h | ⟨r, -, h⟩
  · exact locateFsk_error _ _ _ _ _ h
  · dsimp only at h
    repeat' split at h
    · cases h
    · cases h
    · exact treeWh0290_error _ _ _ _ h
    · cases h
      exact treeStop_early n m

/-- A header test and the fixed-position location after it stop for such a reason. -/
theorem headerFixed_error (c : Config) (n : Nat) (m : Memory) (off w value : Nat) (v : Variant) (e : Stop)
    (hn : off + w ≤ n) (h : (headerTest m off w value).bind (fun _ => locateFixed c n m v) = .error e) :
    TreeStop n m e := by
  rcases bind_error _ _ _ h with h | ⟨_, -, h⟩
  · exact headerTest_error n m off w value e hn h
  · exact locateFixed_error _ _ _ _ _ h

/-- Two header tests and the fixed-position location after them stop for such a reason. -/
theorem headersFixed_error (c : Config) (n : Nat) (m : Memory) (off w value off' w' value' : Nat) (v : Variant) (e : Stop)
    (hn : off + w ≤ n) (hn' : off' + w' ≤ n)
    (h : (headerTest m off w value).bind (fun _ => (headerTest m off' w' value').bind (fun _ => locateFixed c n m v)) =
      .error e) : TreeStop n m e := by
  rcases bind_error _ _ _ h with h | ⟨_, -, h⟩
  · exact headerTest_error n m off w value e hn h
  · exact headerFixed_error c n m off' w' value' v e hn' h

/-- `E_WH2` stops for such a reason. -/
theorem treeWh2_error (c : Config) (n : Nat) (m : Memory) (e : Stop) (h : treeWh2 c n m = .error e) : TreeStop n m e := by
  unfold treeWh2 at h
  split at h
  · exact headerFixed_error c n m 0 8 _ _ e (by omega) h
  split at h
  · exact headerFixed_error c n m 0 8 _ _ e (by omega) h
  split at h
  · exact headerFixed_error c n m 0 8 _ _ e (by omega) h
  split at h
  · exact headersFixed_error c n m 0 8 _ 8 1 _ _ e (by omega) (by omega) h
  · cases h
    exact treeStop_length n m

/-- `E_WH0530` stops for such a reason. -/
theorem treeWh0530_error (c : Config) (n : Nat) (m : Memory) (e : Stop) (h : treeWh0530 c n m = .error e) :
    TreeStop n m e := by
  unfold treeWh0530 at h
  split at h
  · exact headersFixed_error c n m 0 7 _ 7 4 _ _ e (by omega) (by omega) h
  split at h
  · unfold treeAlectoV2 at h
    rcases bind_error _ _ _ h with h | ⟨_, -, h⟩
    · exact headerTest_error n m 0 7 _ e (by omega) h
    rcases bind_error _ _ _ h with h | ⟨t, -, h⟩
    · exact rowRead_treeStop n m 7 8 e (by omega) h
    split at h
    · exact locateFixed_error _ _ _ _ _ h
    · exact headerFixed_error c n m 7 4 _ _ e (by omega) h
  split at h
  · exact headersFixed_error c n m 0 7 _ 7 4 _ _ e (by omega) (by omega) h
  · cases h
    exact treeStop_length n m

/-- `E_WH51` stops for such a reason. -/
theorem treeWh51_error (c : Config) (n : Nat) (m : Memory) (e : Stop) (h : treeWh51 c n m = .error e) :
    TreeStop n m e := by
  unfold treeWh51 at h
  rcases bind_error _ _ _ h with h | ⟨r, -, h⟩
  · exact locateFsk_error _ _ _ _ _ h
  · dsimp only at h
    split at h
    · cases h
    · cases h
      exact treeStop_early n m

/-- Every decision tree stops with one of the two aborts, or at a byte below `bit_count` that holds no value. -/
theorem classifyTree_error (c : Config) (e : Entry) (n : Nat) (m : Memory) (x : Stop)
    (h : classifyTree c e n m = .error x) : TreeStop n m x := by
  cases e with
  | wh2 => exact treeWh2_error _ _ _ _ h
  | wh0530 => exact treeWh0530_error _ _ _ _ h
  | wh24 => exact treeWh24_error _ _ _ _ h
  | wh51 => exact treeWh51_error _ _ _ _ h
  | wh25 =>
    change treeWh25 c n m = .error x at h
    unfold treeWh25 at h
    repeat' split at h
    · exact treeWh0290_error _ _ _ _ h
    · exact treeWh25Tentative_error _ _ _ _ _ h
    · exact treeWh24_error _ _ _ _ h
    · exact treeWh25Tentative_error _ _ _ _ _ h
    · exact treeWh25Tentative_error _ _ _ _ _ h

/-- Why the first stage stops (spec/60_exceptions.md R192, R193, R197): an oversized `BITCNT`, or what stops a tree. -/
theorem classify_error (c : Config) (e : Entry) (n : Nat) (m : Memory) (x : Stop) (h : classify c e n m = .error x) :
    (8 * c.rowCapBytes < n ∧ x = .outcome .cmdIllegal) ∨ TreeStop n m x := by
  unfold classify at h
  split at h
  · rename_i hn
    cases h
    exact .inl ⟨hn, rfl⟩
  · exact .inr (classifyTree_error c e n m x h)

/-- The first stage never stops with `OK`: that outcome comes from the validation only (spec/60_exceptions.md R196). -/
theorem classify_not_ok (c : Config) (e : Entry) (n : Nat) (m : Memory) : classify c e n m ≠ .error (.outcome .ok) := by
  intro h
  rcases classify_error c e n m _ h with ⟨-, h⟩ | h | h <;> cases h

end errors

end Sys2Proof.Machine
end

