-- ==== Sys2Proof/Laws/Encode.lean ====
section
/-! SUPPORT. The bits of an encoded row: what the row buffer reads as after the encoder has packed a bit sequence into
it. -/

namespace Sys2Proof.Machine

/-- The value of `n` bits given by their index, the first the most significant. -/
def bitsNat (g : Nat → Bool) : Nat → Nat
  | 0 => 0
  | n + 1 => 2 * bitsNat g n + (g n).toNat

/-- A value of `n` bits is below `2 ^ n`. -/
theorem bitsNat_lt (g : Nat → Bool) (n : Nat) : bitsNat g n < 2 ^ n := by
  induction n with
  | zero => simp [bitsNat]
  | succ n ih =>
    have : (g n).toNat ≤ 1 := Bool.toNat_le _
    simp only [bitsNat, Nat.pow_succ]
    omega

/-- A value whose first bit is 0 is below half its range. -/
theorem bitsNat_lt_half (g : Nat → Bool) (n : Nat) (h : g 0 = false) : bitsNat g (n + 1) < 2 ^ n := by
  induction n with
  | zero => simp [bitsNat, h]
  | succ n ih =>
    have : (g (n + 1)).toNat ≤ 1 := Bool.toNat_le _
    rw [bitsNat, Nat.pow_succ]
    omega

/-- The value depends on the bits it names only. -/
theorem bitsNat_congr (g h : Nat → Bool) (n : Nat) (e : ∀ k < n, g k = h k) : bitsNat g n = bitsNat h n := by
  induction n with
  | zero => rfl
  | succ n ih => rw [bitsNat, bitsNat, ih (fun k hk => e k (by omega)), e n (by omega)]

/-- The eight bits of a byte are its value. -/
theorem bitsNat_byte (b : Byte) : bitsNat (fun k => b.getLsbD (7 - k)) 8 = b.toNat := by
  revert b
  decide

/-- A read of bits that are known. -/
theorem rowRead_bits (m : Memory) (off n : Nat) (g : Nat → Bool) (h : ∀ k < n, rowBit m (off + k) = .ok (g k)) :
    rowRead m off n = .ok (bitsNat g n) := by
  induction n with
  | zero => rfl
  | succ n ih =>
    rw [rowRead_succ, ih (fun k hk => h k (by omega)), h n (by omega)]
    rfl

/-- A frame whose bits are known. -/
theorem rowFrame_bits (m : Memory) (off : Nat) (f : List Byte)
    (h : ∀ k < f.length, ∀ j < 8, rowBit m (off + 8 * k + j) = .ok ((f.getD k 0).getLsbD (7 - j))) :
    rowFrame m off f.length = .ok f := by
  induction f generalizing off with
  | nil => rfl
  | cons b rest ih =>
    have hb : rowRead m off 8 = .ok b.toNat := by
      rw [← bitsNat_byte b]
      exact rowRead_bits m off 8 _ (fun j hj => by simpa using h 0 (by simp) j hj)
    rw [List.length_cons, rowFrame_succ, hb, ih (off + 8) ?_]
    · simp [Except.bind]
    · intro k hk j hj
      have := h (k + 1) (by simpa using hk) j hj
      rw [List.getD_cons_succ] at this
      rw [← this]
      congr 1
      omega

/-- Eight bits made a byte are its bits (spec/00_scope.md R6). -/
theorem byteOfBits_getLsbD (b7 b6 b5 b4 b3 b2 b1 b0 : Bool) (i : Nat) (h : i < 8) :
    (byteOfBits b7 b6 b5 b4 b3 b2 b1 b0).getLsbD (7 - i) = [b7, b6, b5, b4, b3, b2, b1, b0].getD i false := by
  unfold byteOfBits
  simp only [BitVec.getLsbD_append, BitVec.getLsbD_ofBool]
  interval_cases i <;> simp

/-- A packed bit sequence holds each bit in its place (spec/00_scope.md R6). -/
theorem packBits_get (bs : List Bool) (i : Nat) (h : i < bs.length) :
    ∃ b, (packBits bs)[i / 8]? = some b ∧ b.getLsbD (7 - i % 8) = bs.getD i false := by
  induction bs using packBits.induct generalizing i with
  | case1 b7 b6 b5 b4 b3 b2 b1 b0 rest ih =>
    rw [packBits]
    rcases Nat.lt_or_ge i 8 with hi | hi
    · refine ⟨byteOfBits b7 b6 b5 b4 b3 b2 b1 b0, by simp [Nat.div_eq_of_lt hi], ?_⟩
      rw [Nat.mod_eq_of_lt hi, byteOfBits_getLsbD _ _ _ _ _ _ _ _ _ hi]
      interval_cases i <;> simp
    · obtain ⟨j, rfl⟩ := Nat.exists_eq_add_of_le hi
      obtain ⟨b, hb, hg⟩ := ih j (by simpa using (by simp at h; omega))
      refine ⟨b, ?_, ?_⟩
      · rw [show (8 + j) / 8 = j / 8 + 1 by omega, List.getElem?_cons_succ, hb]
      · rw [show (8 + j) % 8 = j % 8 by omega, hg, Nat.add_comm 8 j]
        simp
  | case2 => simp at h
  | case3 bs hlong hne =>
    have hl : bs.length < 8 := by
      rcases bs with _ | ⟨_, _ | ⟨_, _ | ⟨_, _ | ⟨_, _ | ⟨_, _ | ⟨_, _ | ⟨_, _ | ⟨_, _⟩⟩⟩⟩⟩⟩⟩⟩ <;>
        first | exact (hlong _ _ _ _ _ _ _ _ _ rfl).elim | simp
    have hi : i < 8 := by omega
    rw [packBits]
    · refine ⟨_, by rw [Nat.div_eq_of_lt hi]; rfl, ?_⟩
      rw [Nat.mod_eq_of_lt hi, byteOfBits_getLsbD _ _ _ _ _ _ _ _ _ hi]
      interval_cases i <;> simp
    · exact hlong
    · exact hne

/-- The row buffer loaded with a packed bit sequence reads it. -/
theorem rowBit_packBits (bs : List Bool) (i : Nat) (h : i < bs.length) :
    rowBit (Memory.ofBytes (packBits bs)) i = .ok (bs.getD i false) := by
  obtain ⟨b, hb, hg⟩ := packBits_get bs i h
  rw [rowBit_ok _ _ b (by simpa using hb), hg]

@[simp] theorem bitsOfBytes_length (f : List Byte) : (bitsOfBytes f).length = 8 * f.length := by
  induction f with
  | nil => rfl
  | cons b rest ih =>
    simp only [bitsOfBytes, List.length_append, ih, List.length_cons]
    simp only [bitsOfByte, List.length_cons, List.length_nil]
    omega

/-- The bits of a byte sequence, by byte and bit. -/
theorem bitsOfBytes_getD (f : List Byte) (k j : Nat) (hk : k < f.length) (hj : j < 8) :
    (bitsOfBytes f).getD (8 * k + j) false = (f.getD k 0).getLsbD (7 - j) := by
  induction f generalizing k with
  | nil => simp at hk
  | cons b rest ih =>
    cases k with
    | zero =>
      simp only [bitsOfBytes, bitsOfByte]
      interval_cases j <;> simp
    | succ k =>
      have := ih k (by simpa using hk)
      rw [List.getD_cons_succ, ← this, show 8 * (k + 1) + j = (8 * k + j) + 8 by omega]
      simp [bitsOfBytes, bitsOfByte]

/-- Bits before and after a point of a concatenation. -/
theorem getD_append_bits (a b : List Bool) (i : Nat) :
    (a ++ b).getD i false = if i < a.length then a.getD i false else b.getD (i - a.length) false := by
  simp only [List.getD_eq_getElem?_getD, List.getElem?_append]
  split <;> rfl

/-- A run of equal bits. -/
theorem getD_replicate_bits (n i : Nat) (b : Bool) (h : i < n) : (List.replicate n b).getD i false = b := by
  simp [List.getD_eq_getElem?_getD, h]

/-- A PWM-family row starts with its ones (spec/30_encoding.md R63). -/
theorem pwmRow_ones (ones : Nat) (f : List Byte) (i : Nat) (h : i < ones) :
    rowBit (Memory.ofBytes (packBits (pwmRowBits ones f))) i = .ok true := by
  rw [rowBit_packBits _ _ (by simp [pwmRowBits]; omega), pwmRowBits, getD_append_bits, if_pos (by simpa using h),
    getD_replicate_bits _ _ _ h]

/-- A PWM-family row goes on with its frame (spec/30_encoding.md R63). -/
theorem pwmRow_frameBit (ones : Nat) (f : List Byte) (k j : Nat) (hk : k < f.length) (hj : j < 8) :
    rowBit (Memory.ofBytes (packBits (pwmRowBits ones f))) (ones + 8 * k + j) = .ok ((f.getD k 0).getLsbD (7 - j)) := by
  rw [rowBit_packBits _ _ (by simp [pwmRowBits]; omega), pwmRowBits, getD_append_bits, if_neg (by simp; omega),
    List.length_replicate, show ones + 8 * k + j - ones = 8 * k + j by omega, bitsOfBytes_getD _ _ _ hk hj]

/-- The frame of a PWM-family row is read back. -/
theorem pwmRow_frame (ones : Nat) (f : List Byte) :
    rowFrame (Memory.ofBytes (packBits (pwmRowBits ones f))) ones f.length = .ok f :=
  rowFrame_bits _ _ _ (fun k hk j hj => pwmRow_frameBit ones f k j hk hj)

/-- How long an FSK-family row is. -/
theorem fskRowBits_length (n off : Nat) (f : List Byte) (h : 24 ≤ off) (hn : off + 8 * f.length ≤ n) :
    (fskRowBits n off f).length = n := by
  simp only [fskRowBits, List.length_append, List.length_replicate, bitsOfBytes_length, List.length_cons, List.length_nil]
  omega

/-- An FSK-family row starts with zeros (notes/assumptions 6). -/
theorem fskRow_lead (n off : Nat) (f : List Byte) (h : 24 ≤ off) (hn : off + 8 * f.length ≤ n) (i : Nat)
    (hi : i + 24 < off) : rowBit (Memory.ofBytes (packBits (fskRowBits n off f))) i = .ok false := by
  rw [rowBit_packBits _ _ (by rw [fskRowBits_length n off f h hn]; omega)]
  unfold fskRowBits
  rw [getD_append_bits, if_pos (by simp; omega), getD_append_bits, if_pos (by simp; omega), getD_append_bits,
    if_pos (by simp; omega), getD_replicate_bits _ _ _ (by omega)]

/-- The preamble of an FSK-family row (spec/30_encoding.md R65). -/
theorem fskRow_preamble (n off : Nat) (f : List Byte) (h : 24 ≤ off) (hn : off + 8 * f.length ≤ n) (k j : Nat) (hk : k < 3)
    (hj : j < 8) : rowBit (Memory.ofBytes (packBits (fskRowBits n off f))) (off - 24 + 8 * k + j) =
      .ok ((([0xAA, 0x2D, 0xD4] : List Byte).getD k 0).getLsbD (7 - j)) := by
  rw [rowBit_packBits _ _ (by rw [fskRowBits_length n off f h hn]; omega)]
  unfold fskRowBits
  rw [getD_append_bits, if_pos (by simp; omega), getD_append_bits, if_pos (by simp; omega), getD_append_bits,
    if_neg (by simp; omega), List.length_replicate, show off - 24 + 8 * k + j - (off - 24) = 8 * k + j by omega,
    bitsOfBytes_getD _ _ _ (by simpa using hk) hj]

/-- The frame bits of an FSK-family row (spec/30_encoding.md R65). -/
theorem fskRow_frameBit (n off : Nat) (f : List Byte) (h : 24 ≤ off) (hn : off + 8 * f.length ≤ n) (k j : Nat)
    (hk : k < f.length) (hj : j < 8) :
    rowBit (Memory.ofBytes (packBits (fskRowBits n off f))) (off + 8 * k + j) = .ok ((f.getD k 0).getLsbD (7 - j)) := by
  rw [rowBit_packBits _ _ (by rw [fskRowBits_length n off f h hn]; omega)]
  unfold fskRowBits
  rw [getD_append_bits, if_pos (by simp; omega), getD_append_bits, if_neg (by simp; omega)]
  simp only [List.length_append, List.length_replicate, bitsOfBytes_length, List.length_cons, List.length_nil]
  rw [show off + 8 * k + j - (off - 24 + 8 * (0 + 1 + 1 + 1)) = 8 * k + j by omega, bitsOfBytes_getD _ _ _ hk hj]

/-- The frame of an FSK-family row is read back. -/
theorem fskRow_frame (n off : Nat) (f : List Byte) (h : 24 ≤ off) (hn : off + 8 * f.length ≤ n) :
    rowFrame (Memory.ofBytes (packBits (fskRowBits n off f))) off f.length = .ok f :=
  rowFrame_bits _ _ _ (fun k hk j hj => fskRow_frameBit n off f h hn k j hk hj)

/-- The first preamble of an encoded FSK-family row is the one written before the frame. -/
theorem fskRow_firstPreamble (n off : Nat) (f : List Byte) (h : 24 ≤ off) (hn : off + 8 * f.length ≤ n) :
    FirstPreamble fpl n (Memory.ofBytes (packBits (fskRowBits n off f))) (off - 24) := by
  have hbit : ∀ i < n, ∃ b, rowBit (Memory.ofBytes (packBits (fskRowBits n off f))) i = .ok b := fun i hi =>
    ⟨_, rowBit_packBits _ _ (by rw [fskRowBits_length n off f h hn]; exact hi)⟩
  refine ⟨by omega, ?_, ?_⟩
  · rw [rowRead_bits _ _ 24 (fun i => (([0xAA, 0x2D, 0xD4] : List Byte).getD (i / 8) 0).getLsbD (7 - i % 8))]
    · decide
    · intro i hi
      have := fskRow_preamble n off f h hn (i / 8) (i % 8) (by omega) (by omega)
      rw [← this]
      congr 1
      omega
  · intro j hj
    let g : Nat → Bool := fun k => (fskRowBits n off f).getD (j + k) false
    have hg : ∀ k < 24, rowBit (Memory.ofBytes (packBits (fskRowBits n off f))) (j + k) = .ok (g k) := fun k hk =>
      rowBit_packBits _ _ (by rw [fskRowBits_length n off f h hn]; omega)
    have h0 : g 0 = false := by
      have h1 := hg 0 (by omega)
      rw [Nat.add_zero, fskRow_lead n off f h hn j (by omega)] at h1
      injection h1 with h1
      exact h1.symm
    refine ⟨_, rowRead_bits _ _ 24 g hg, Nat.ne_of_lt (Nat.lt_of_lt_of_le (bitsNat_lt_half g 23 h0) ?_)⟩
    decide

/-- A row of zeros holds no preamble. -/
theorem zeroRow_noPreamble (n : Nat) : NoPreamble fpl n (Memory.ofBytes (packBits (List.replicate n false))) := by
  intro j hj
  refine ⟨_, rowRead_bits _ j 24 (fun _ => false) (fun k hk => ?_), by decide⟩
  rw [rowBit_packBits _ _ (by simp; omega), getD_replicate_bits _ _ _ (by omega)]

end Sys2Proof.Machine
end

