-- ==== Sys2Proof/Laws/Frames.lean ====
section
/-! SUPPORT. Frame bytes to operands and back: no bit of a frame is dropped. The other direction is in
Laws/PerInstr.lean. -/

namespace Sys2Proof.Machine

/-- A byte is its two nibbles. -/
theorem byte_nibbles (a : Byte) : a.extractLsb' 4 4 ++ a.extractLsb' 0 4 = a := by
  revert a
  decide

/-- The upper nibble of a byte as a number. -/
theorem byteSlice_upper (a : Byte) : byteSlice a 7 4 = (a.extractLsb' 4 4).toNat := by
  revert a
  decide

/-- A WH2, WH5 or Telldus frame is the bytes of its operands. -/
theorem wh2Bytes_of (f : List Byte) (h : f.length = 5) : wh2Bytes (wh2Of f) = f := by
  match f, h with
  | [a, b, c, d, e], _ =>
    simp only [wh2Bytes, wh2Of, byteAt, List.getD_cons_zero, List.getD_cons_succ, List.cons.injEq, and_true]
    refine ⟨?_, ?_, ?_⟩ <;>
      (apply BitVec.eq_of_getLsbD_eq; intro i hi; simp only [BitVec.getLsbD_append, BitVec.getLsbD_extractLsb'];
        interval_cases i <;> simp)

/-- The first five bytes of a WH0530 or Alecto frame of type nibble 3 are those of its operands. -/
theorem rainBytes_of (a b c d e : Byte) (g : List Byte) (h : a.extractLsb' 4 4 = 0x3#4) :
    rainBytes (rainOf (a :: b :: c :: d :: e :: g)) = [a, b, c, d, e] := by
  simp only [rainBytes, rainOf, byteAt, List.getD_cons_zero, List.getD_cons_succ, List.cons.injEq, and_true, ← h]
  refine ⟨?_, ?_, ?_⟩ <;>
    (apply BitVec.eq_of_getLsbD_eq; intro i hi; simp only [BitVec.getLsbD_append, BitVec.getLsbD_extractLsb'];
      interval_cases i <;> simp)

/-- A WH0530 frame is the bytes of its operands. -/
theorem wh0530Bytes_of (f : List Byte) (h : f.length = 8) (h3 : (byteAt f 0).extractLsb' 4 4 = 0x3#4) :
    wh0530Bytes (rainOf f) (byteAt f 5) (byteAt f 6) (byteAt f 7) = f := by
  match f, h with
  | [a, b, c, d, e, x, y, z], _ =>
    rw [wh0530Bytes, rainBytes_of a b c d e _ h3]
    rfl

/-- An Alecto-WS1200-v1 frame is the bytes of its operands. -/
theorem alectoV1Bytes_of (f : List Byte) (h : f.length = 7) (h3 : (byteAt f 0).extractLsb' 4 4 = 0x3#4) :
    alectoV1Bytes (rainOf f) (byteAt f 5) (byteAt f 6) = f := by
  match f, h with
  | [a, b, c, d, e, x, y], _ =>
    rw [alectoV1Bytes, rainBytes_of a b c d e _ h3]
    rfl

/-- Four bytes are read back from their word. -/
theorem bytes_of_word (a b c d : Byte) :
    (a ++ b ++ c ++ d).extractLsb' 24 8 = a ∧ (a ++ b ++ c ++ d).extractLsb' 16 8 = b ∧
    (a ++ b ++ c ++ d).extractLsb' 8 8 = c ∧ (a ++ b ++ c ++ d).extractLsb' 0 8 = d := by
  refine ⟨?_, ?_, ?_, ?_⟩ <;>
    (apply BitVec.eq_of_getLsbD_eq; intro i hi; simp only [BitVec.getLsbD_append, BitVec.getLsbD_extractLsb'];
      interval_cases i <;> simp)

/-- An Alecto-WS1200-v2 frame is the bytes of its operands. -/
theorem alectoV2Bytes_of (f : List Byte) (h : f.length = 11) (h3 : (byteAt f 0).extractLsb' 4 4 = 0x3#4) :
    alectoV2Bytes (rainOf f) (byteAt f 5 ++ byteAt f 6 ++ byteAt f 7 ++ byteAt f 8) (byteAt f 9) (byteAt f 10) = f := by
  match f, h with
  | [a, b, c, d, e, x0, x1, x2, x3, x4, x5], _ =>
    have hw := bytes_of_word x0 x1 x2 x3
    rw [alectoV2Bytes, rainBytes_of a b c d e _ h3]
    simp only [byteAt, List.getD_cons_zero, List.getD_cons_succ, hw, List.cons_append, List.nil_append]

/-- An Alecto-WS1200-v2-DCF frame is the bytes of its operands. -/
theorem dcfBytes_of (f : List Byte) (h : f.length = 11) (h0 : byteAt f 0 = 0x52) : dcfBytes (dcfOf f) = f := by
  match f, h with
  | [a, x0, x1, x2, x3, x4, x5, x6, x7, x8, x9], _ =>
    simp only [byteAt, List.getD_cons_zero] at h0
    subst h0
    simp only [dcfBytes, dcfOf, byteAt, List.getD_cons_zero, List.getD_cons_succ, List.cons.injEq, and_true, true_and]
    apply BitVec.eq_of_getLsbD_eq
    intro i hi
    simp only [BitVec.getLsbD_append, BitVec.getLsbD_extractLsb']
    interval_cases i <;> simp

/-- A WH24 or WH65B frame is the bytes of its operands. -/
theorem wh24Bytes_of (f : List Byte) (h : f.length = 17) : wh24Bytes (wh24Of f) = f := by
  match f, h with
  | [x0, x1, x2, x3, x4, x5, x6, x7, x8, x9, y0, y1, y2, y3, y4, y5, y6], _ =>
    simp only [wh24Bytes, wh24Of, byteAt, List.getD_cons_zero, List.getD_cons_succ, List.cons.injEq, and_true, true_and]
    refine ⟨?_, ?_, ?_, ?_, ?_, ?_, ?_, ?_, ?_⟩ <;>
      (apply BitVec.eq_of_getLsbD_eq; intro i hi; simp only [BitVec.getLsbD_append, BitVec.getLsbD_extractLsb'];
        interval_cases i <;> simp)

/-- A WH25, WH32 or WH32B frame is the bytes of its operands and its type nibble. -/
theorem wh25Bytes_of (type : BitVec 4) (f : List Byte) (h : f.length = 8) (h0 : (byteAt f 0).extractLsb' 4 4 = type) :
    wh25Bytes type (wh25Of f) = f := by
  match f, h with
  | [x0, x1, x2, x3, x4, x5, x6, x7], _ =>
    subst h0
    simp only [wh25Bytes, wh25Of, byteAt, List.getD_cons_zero, List.getD_cons_succ, List.cons.injEq, and_true, true_and]
    refine ⟨?_, ?_, ?_, ?_, ?_⟩ <;>
      (apply BitVec.eq_of_getLsbD_eq; intro i hi; simp only [BitVec.getLsbD_append, BitVec.getLsbD_extractLsb'];
        interval_cases i <;> simp)

/-- A WH0290 frame is the bytes of its operands. -/
theorem wh0290Bytes_of (f : List Byte) (h : f.length = 8) : wh0290Bytes (wh0290Of f) = f := by
  match f, h with
  | [x0, x1, x2, x3, x4, x5, x6, x7], _ =>
    simp only [wh0290Bytes, wh0290Of, byteAt, List.getD_cons_zero, List.getD_cons_succ, List.cons.injEq, and_true, true_and]
    refine ⟨?_, ?_, ?_, ?_⟩ <;>
      (apply BitVec.eq_of_getLsbD_eq; intro i hi; simp only [BitVec.getLsbD_append, BitVec.getLsbD_extractLsb'];
        interval_cases i <;> simp)

/-- A WH51 frame is the bytes of its operands. -/
theorem wh51Bytes_of (f : List Byte) (h : f.length = 11) (h0 : byteAt f 0 = 0x51) : wh51Bytes (wh51Of f) = f := by
  match f, h with
  | [x0, x1, x2, x3, x4, x5, x6, x7, x8, x9, y0], _ =>
    simp only [byteAt, List.getD_cons_zero] at h0
    subst h0
    simp only [wh51Bytes, wh51Of, byteAt, List.getD_cons_zero, List.getD_cons_succ, List.cons.injEq, and_true, true_and]
    refine ⟨?_, ?_, ?_, ?_, ?_, ?_⟩ <;>
      (apply BitVec.eq_of_getLsbD_eq; intro i hi; simp only [BitVec.getLsbD_append, BitVec.getLsbD_extractLsb'];
        interval_cases i <;> simp)

end Sys2Proof.Machine
end

