-- ==== Sys2Proof/Laws/State.lean ====
section
/-! SUPPORT. What each update of the state leaves in each field: `raise`, `commit`, `resetBlock`. -/

namespace Sys2Proof.Machine

@[simp] theorem raise_bitcnt (o : OutcomeCode) (s : State) : (raise o s).bitcnt = s.bitcnt := rfl
@[simp] theorem raise_row (o : OutcomeCode) (s : State) : (raise o s).row = s.row := rfl
@[simp] theorem raise_phase (o : OutcomeCode) (s : State) : (raise o s).phase = .done := rfl
@[simp] theorem raise_outcome (o : OutcomeCode) (s : State) : (raise o s).outcome = o := rfl
@[simp] theorem raise_variant (o : OutcomeCode) (s : State) : (raise o s).variant = none := rfl
@[simp] theorem raise_micOk (o : OutcomeCode) (s : State) : (raise o s).micOk = false := rfl
@[simp] theorem raise_bitoff (o : OutcomeCode) (s : State) : (raise o s).bitoff = 0 := rfl
@[simp] theorem raise_flen (o : OutcomeCode) (s : State) : (raise o s).flen = 0 := rfl
@[simp] theorem raise_frame (o : OutcomeCode) (s : State) : (raise o s).frame = zeroFrame := rfl
@[simp] theorem raise_record (o : OutcomeCode) (s : State) : (raise o s).record = Record.empty := rfl
@[simp] theorem raise_port (o : OutcomeCode) (s : State) : (raise o s).port = s.port := rfl
@[simp] theorem raise_rdata (o : OutcomeCode) (s : State) : (raise o s).rdata = s.rdata := rfl

section commit
variable (l : Located) (n : Nat) (r : Record) (s : State)
@[simp] theorem commit_bitcnt : (commit l n r s).bitcnt = s.bitcnt := rfl
@[simp] theorem commit_row : (commit l n r s).row = s.row := rfl
@[simp] theorem commit_phase : (commit l n r s).phase = .done := rfl
@[simp] theorem commit_outcome : (commit l n r s).outcome = .ok := rfl
@[simp] theorem commit_variant : (commit l n r s).variant = some l.variant := rfl
@[simp] theorem commit_micOk : (commit l n r s).micOk = true := rfl
@[simp] theorem commit_bitoff : (commit l n r s).bitoff = BitVec.ofNat 16 l.off := rfl
@[simp] theorem commit_flen : (commit l n r s).flen = BitVec.ofNat 5 n := rfl
@[simp] theorem commit_frame : (commit l n r s).frame = frameRegisters l.frame := rfl
@[simp] theorem commit_record : (commit l n r s).record = r := rfl
@[simp] theorem commit_port : (commit l n r s).port = s.port := rfl
@[simp] theorem commit_rdata : (commit l n r s).rdata = s.rdata := rfl
end commit

@[simp] theorem resetBlock_bitcnt (s : State) : (resetBlock s).bitcnt = 0 := rfl
@[simp] theorem resetBlock_row (s : State) : (resetBlock s).row = [] := rfl
@[simp] theorem resetBlock_phase (s : State) : (resetBlock s).phase = .idle := rfl
@[simp] theorem resetBlock_outcome (s : State) : (resetBlock s).outcome = .ok := rfl
@[simp] theorem resetBlock_variant (s : State) : (resetBlock s).variant = none := rfl
@[simp] theorem resetBlock_micOk (s : State) : (resetBlock s).micOk = false := rfl
@[simp] theorem resetBlock_bitoff (s : State) : (resetBlock s).bitoff = 0 := rfl
@[simp] theorem resetBlock_flen (s : State) : (resetBlock s).flen = 0 := rfl
@[simp] theorem resetBlock_frame (s : State) : (resetBlock s).frame = zeroFrame := rfl
@[simp] theorem resetBlock_record (s : State) : (resetBlock s).record = Record.empty := rfl
@[simp] theorem resetBlock_port (s : State) : (resetBlock s).port = s.port := rfl
@[simp] theorem resetBlock_rdata (s : State) : (resetBlock s).rdata = s.rdata := rfl

/-- A frame register reads the frame byte, 0 above the frame. -/
@[simp] theorem frameRegisters_get (f : List Byte) (k : Nat) (h : k < 17) : (frameRegisters f)[k] = f.getD k 0 := by
  simp [frameRegisters]

/-- Every frame register reads 0 after reset and after a failure. -/
@[simp] theorem zeroFrame_get (k : Nat) (h : k < 17) : zeroFrame[k] = 0 := by simp [zeroFrame]

/-- The frame registers read as a list, at any index. -/
theorem frameRegisters_getD (f : List Byte) (k : Nat) :
    (frameRegisters f).toList.getD k 0 = if k < 17 then f.getD k 0 else 0 := by
  by_cases h : k < 17
  · have : (frameRegisters f).toList.getD k 0 = (frameRegisters f)[k] := by
      rw [List.getD_eq_getElem?_getD, List.getElem?_eq_getElem (by simpa using h)]
      simp
    rw [this, frameRegisters_get f k h, if_pos h]
  · rw [if_neg h, List.getD_eq_default]
    simpa using Nat.le_of_not_lt h

end Sys2Proof.Machine
end

