-- ==== Sys2Proof/Laws/Unpack.lean ====
section
/-! SUPPORT. The record: what a field register holds after a set, and what evaluating a descriptor list leaves alone. -/

namespace Sys2Proof.Machine

/-- The `PRESENT` bits of two field registers differ. -/
theorem presentBit_injective (f g : Field) (h : presentBit f = presentBit g) : f = g := by
  cases f <;> cases g <;> first | rfl | (simp [presentBit] at h)

/-- Every `PRESENT` bit of a field register lies below the bit of `mic`. -/
theorem presentBit_lt (f : Field) : presentBit f < micBit := by cases f <;> decide

/-- Setting a `PRESENT` bit sets that bit and no other (spec/10_state.md R19). -/
theorem setPresentBit_getLsbD (mask : BitVec 32) (n i : Nat) (hn : n < 32) :
    (setPresentBit mask n).getLsbD i = (mask.getLsbD i || decide (i = n)) := by
  unfold setPresentBit
  rw [BitVec.getLsbD_or, BitVec.getLsbD_twoPow]
  by_cases h : i = n
  · subst h
    simp [hn]
  · simp [h, Ne.symm h]

/-- The mask after a field register is set. -/
theorem Record.set_present (r : Record) (f : Field) (n : Int) :
    (r.set f n).present = setPresentBit r.present (presentBit f) := by cases f <;> rfl

/-- Setting a field register leaves every other one as it was. -/
theorem Record.value_set_other (r : Record) (f g : Field) (n : Int) (h : g ≠ f) : (r.set f n).value g = r.value g := by
  cases f <;> cases g <;> first | rfl | (exact absurd rfl h)

/-- A field register just set carries a value. -/
theorem Record.value_set_isSome (r : Record) (f : Field) (n : Int) : ((r.set f n).value f).isSome = true := by
  cases f <;> rfl

/-- The width of a field register (spec/10_state.md R20). -/
def fieldWidth : Field → Nat
  | .id => 24 | .batt => 16 | .battMv => 12 | .temp => 16 | .hum => 8 | .press => 16 | .wdir => 9 | .wavg => 24
  | .wmax => 24 | .rain => 25 | .uv => 16 | .uvi => 4 | .light => 24 | .pm25 => 14 | .pm10 => 14 | .moist => 8
  | .boost => 3 | .adRaw => 9 | .rclk => 48

/-- The two's complement registers (spec/10_state.md R20). -/
def fieldSigned : Field → Bool
  | .batt => true
  | .temp => true
  | .id | .battMv | .hum | .press | .wdir | .wavg | .wmax | .rain | .uv | .uvi | .light | .pm25 | .pm10 | .moist
  | .boost | .adRaw | .rclk => false

/-- The integers a field register can hold. -/
def FieldFits (f : Field) (n : Int) : Prop :=
  if fieldSigned f then -(2 ^ (fieldWidth f - 1) : Int) ≤ n ∧ n < (2 ^ (fieldWidth f - 1) : Int)
  else 0 ≤ n ∧ n < (2 ^ fieldWidth f : Int)

/-- An unsigned value within its width is held exactly. -/
theorem toNat_ofInt_of_fits (w : Nat) (n : Int) (h0 : 0 ≤ n) (h1 : n < (2 ^ w : Int)) :
    ((BitVec.ofInt w n).toNat : Int) = n := by
  rw [BitVec.toNat_ofInt]
  have : n % ((2 ^ w : Nat) : Int) = n := Int.emod_eq_of_lt h0 (by exact_mod_cast h1)
  rw [this]
  omega

/-- A field register holds exactly the integer it was set to, where that fits (spec/42_unpack_scale.md R118, R128). -/
theorem Record.value_set_same (r : Record) (f : Field) (n : Int) (h : FieldFits f n) : (r.set f n).value f = some n := by
  cases f <;> simp only [FieldFits, fieldSigned, fieldWidth, if_true, Bool.false_eq_true, if_false] at h
  case batt => simp only [Record.set, Record.value, Option.map_some, BitVec.toInt_ofInt]; congr 1; apply Int.bmod_eq_of_le <;> omega
  case temp => simp only [Record.set, Record.value, Option.map_some, BitVec.toInt_ofInt]; congr 1; apply Int.bmod_eq_of_le <;> omega
  all_goals
    simp only [Record.set, Record.value, Option.map_some]
    congr 1
    exact toNat_ofInt_of_fits _ _ h.1 h.2

/-- Evaluating one descriptor touches its own register only (spec/42_unpack_scale.md R111). -/
theorem applyField_other (c : Config) (v : Variant) (f : List Byte) (r : Record) (d : FieldDesc) (g : Field)
    (h : g ≠ d.reg) : (applyField c v f r d).value g = r.value g := by
  unfold applyField
  split
  · rfl
  · exact Record.value_set_other _ _ _ _ h

/-- A raw value equal to the sentinel leaves the record as it was (spec/42_unpack_scale.md R110). -/
theorem applyField_absent (c : Config) (v : Variant) (f : List Byte) (r : Record) (d : FieldDesc)
    (h : d.sentinel = some (rawValue f d.segs)) : applyField c v f r d = r := by simp [applyField, h]

/-- Any other raw value sets the register to its conversion (spec/42_unpack_scale.md R110). -/
theorem applyField_present (c : Config) (v : Variant) (f : List Byte) (r : Record) (d : FieldDesc)
    (h : d.sentinel ≠ some (rawValue f d.segs)) :
    applyField c v f r d = r.set d.reg (convert c v d.width d.conv (rawValue f d.segs)) := by simp [applyField, h]

@[simp] theorem setMic_value (r : Record) (f : Field) : (setMic r).value f = r.value f := by cases f <;> rfl

/-- The mask of a decoded record is that of its descriptors and the bit of `mic`. -/
theorem setMic_present (r : Record) : (setMic r).present = setPresentBit r.present micBit := rfl

/-- The coherence of the mask with the field registers is kept by setting one (spec/10_state.md R19). -/
theorem presentOk_set (r : Record) (f : Field) (n : Int)
    (h : ∀ g : Field, r.present.getLsbD (presentBit g) = (r.value g).isSome) (g : Field) :
    (r.set f n).present.getLsbD (presentBit g) = ((r.set f n).value g).isSome := by
  rw [Record.set_present, setPresentBit_getLsbD _ _ _ (by have := presentBit_lt f; simp [micBit] at this; omega)]
  by_cases e : g = f
  · subst e
    simp [Record.value_set_isSome]
  · have : presentBit g ≠ presentBit f := fun he => e (presentBit_injective g f he)
    simp [this, Record.value_set_other _ _ _ _ e, h g]

/-- The coherence is kept by a descriptor list. -/
theorem presentOk_applyFields (c : Config) (v : Variant) (f : List Byte) (ds : List FieldDesc) (r : Record)
    (h : ∀ g : Field, r.present.getLsbD (presentBit g) = (r.value g).isSome) (g : Field) :
    (applyFields c v f r ds).present.getLsbD (presentBit g) = ((applyFields c v f r ds).value g).isSome := by
  induction ds generalizing r with
  | nil => exact h g
  | cons d ds ih =>
    refine ih _ ?_
    unfold applyField
    split
    · exact h
    · exact presentOk_set r _ _ h

/-- The coherence holds of every decoded record (spec/10_state.md R19, R20). -/
theorem presentOk_decodeFields (c : Config) (v : Variant) (f : List Byte) (g : Field) :
    (decodeFields c v f).present.getLsbD (presentBit g) = ((decodeFields c v f).value g).isSome := by
  unfold decodeFields
  rw [setMic_present, setMic_value, setPresentBit_getLsbD _ _ _ (by decide),
    presentOk_applyFields c v f (c.layout v) Record.empty (by intro g; cases g <;> rfl) g]
  have := presentBit_lt g
  simp [Nat.ne_of_lt this]

/-- A raw value is below two to the width of its parts. -/
theorem rawFrom_lt (f : List Byte) (segs : List Seg) (acc w : Nat) (h : acc < 2 ^ w) :
    rawFrom f acc segs < 2 ^ (w + segsWidth segs) := by
  induction segs generalizing acc w with
  | nil => simpa [rawFrom, segsWidth] using h
  | cons g rest ih =>
    unfold rawFrom segsWidth
    rw [← Nat.add_assoc]
    apply ih
    have hb : byteSlice (f.getD g.byte 0) g.hi g.lo < 2 ^ (g.hi - g.lo + 1) :=
      Nat.mod_lt _ (Nat.two_pow_pos _)
    rw [Nat.pow_add 2 w (g.hi - g.lo + 1)]
    calc acc * 2 ^ (g.hi - g.lo + 1) + byteSlice (f.getD g.byte 0) g.hi g.lo
        < acc * 2 ^ (g.hi - g.lo + 1) + 2 ^ (g.hi - g.lo + 1) := by omega
      _ = (acc + 1) * 2 ^ (g.hi - g.lo + 1) := by rw [Nat.add_mul, Nat.one_mul]
      _ ≤ 2 ^ w * 2 ^ (g.hi - g.lo + 1) := Nat.mul_le_mul_right _ h

/-- The raw value of a field lies in its width (spec/00_scope.md R8). -/
theorem rawValue_lt (f : List Byte) (segs : List Seg) : rawValue f segs < 2 ^ segsWidth segs := by
  have := rawFrom_lt f segs 0 0 (by simp)
  rwa [Nat.zero_add] at this

end Sys2Proof.Machine
end

