-- ==== Sys2Proof/Laws/Transaction.lean ====
section
/-! SUPPORT. What the tail of a transaction, a transaction, an instruction and a host access can do: one lemma each. -/

namespace Sys2Proof.Machine

/-- A sound frame ends in the output write of `OK` (spec/43_classifier.md R130). -/
theorem finish_ok (c : Config) (l : Located) (s : State) (h : verdict c l.variant l.frame = .ok) :
    finish c l s = commit l (c.frameLen l.variant) (decodeFields c l.variant l.frame) s := by simp [finish, h]

/-- Any other verdict is raised (spec/60_exceptions.md R190). -/
theorem finish_fail (c : Config) (l : Located) (s : State) (h : verdict c l.variant l.frame ≠ .ok) :
    finish c l s = raise (verdict c l.variant l.frame) s := by
  unfold finish
  split
  · rename_i e
    exact absurd e h
  · rfl

/-- The three verdicts (spec/41_integrity.md R104, spec/43_classifier.md R144, spec/60_exceptions.md R198). -/
theorem verdict_cases (c : Config) (v : Variant) (f : List Byte) :
    (checkPasses c v f = false ∧ verdict c v f = .failIntegrity) ∨
    (checkPasses c v f = true ∧ sanityPasses c v f = false ∧ verdict c v f = .failSanity) ∨
    (checkPasses c v f = true ∧ sanityPasses c v f = true ∧ verdict c v f = .ok) := by
  unfold verdict
  cases checkPasses c v f <;> cases sanityPasses c v f <;> simp

/-- A transaction whose first stage locates a frame runs the tail on it. -/
theorem transact_located (c : Config) (e : Entry) (s : State) (l : Located) (h : classify c e s.bitcnt.toNat s.row = .ok l) :
    transact c e s = .next (finish c l s) := by simp [transact, h]

/-- A transaction whose first stage raises an outcome ends with it. -/
theorem transact_raised (c : Config) (e : Entry) (s : State) (o : OutcomeCode)
    (h : classify c e s.bitcnt.toNat s.row = .error (.outcome o)) : transact c e s = .next (raise o s) := by
  simp [transact, h, stopWith]

/-- A transaction that reads a byte holding no value is refused (spec/70_reset_and_hazards.md R212). -/
theorem transact_unwritten (c : Config) (e : Entry) (s : State) (k : Nat)
    (h : classify c e s.bitcnt.toNat s.row = .error (.unwritten k)) : transact c e s = .refused (.unwrittenRow k) := by
  simp [transact, h, stopWith]

/-- What an output write can be: one failing outcome raised, or one sound frame committed. -/
def OutputWrite (s t : State) : Prop :=
  (∃ o, o ≠ .ok ∧ t = raise o s) ∨
  (∃ l, verdict fpl l.variant l.frame = .ok ∧ l.frame.length = fpl.frameLen l.variant ∧
    t = commit l (fpl.frameLen l.variant) (decodeFields fpl l.variant l.frame) s)

/-- The tail of a transaction on a frame of its variant's length is one output write. -/
theorem finish_outputWrite (l : Located) (s : State) (h : l.frame.length = fpl.frameLen l.variant) :
    OutputWrite s (finish fpl l s) := by
  by_cases hv : verdict fpl l.variant l.frame = .ok
  · exact .inr ⟨l, hv, h, finish_ok fpl l s hv⟩
  · exact .inl ⟨_, hv, finish_fail fpl l s hv⟩

/-- What a transaction can do: one output write, or a refusal at a byte below `BITCNT` that holds no value. -/
theorem transact_cases (e : Entry) (s : State) :
    (∃ t, transact fpl e s = .next t ∧ OutputWrite s t) ∨
    (∃ k, transact fpl e s = .refused (.unwrittenRow k) ∧ Memory.read s.row k = none ∧ 8 * k < s.bitcnt.toNat) := by
  cases h : classify fpl e s.bitcnt.toNat s.row with
  | ok l =>
    exact .inl ⟨_, transact_located fpl e s l h, finish_outputWrite l s (classify_ok e _ _ l h).2.1⟩
  | error x =>
    cases x with
    | outcome o =>
      refine .inl ⟨_, transact_raised fpl e s o h, .inl ⟨o, ?_, rfl⟩⟩
      rintro rfl
      exact classify_not_ok fpl e _ _ h
    | unwritten k =>
      rcases classify_error fpl e _ _ _ h with ⟨-, hk⟩ | hk
      · cases hk
      · exact .inr ⟨k, transact_unwritten fpl e s k h, hk⟩

/-- What an instruction can do: one output write, or a refusal at a byte of the row below `BITCNT` that holds no value. -/
theorem exec_cases (i : Instr) (s : State) :
    (∃ t, exec i s = .next t ∧ OutputWrite s t) ∨
    (∃ k, exec i s = .refused (.unwrittenRow k) ∧ Memory.read s.row k = none ∧ 8 * k < s.bitcnt.toNat) := by
  cases i with
  | decodeWh2 => exact transact_cases .wh2 s
  | decodeWh0530 => exact transact_cases .wh0530 s
  | decodeWh24 => exact transact_cases .wh24 s
  | decodeWh25 => exact transact_cases .wh25 s
  | decodeWh51 => exact transact_cases .wh51 s
  | reserved5 => exact .inl ⟨_, rfl, .inl ⟨.cmdIllegal, by decide, rfl⟩⟩
  | reserved6 => exact .inl ⟨_, rfl, .inl ⟨.cmdIllegal, by decide, rfl⟩⟩
  | reserved7 => exact .inl ⟨_, rfl, .inl ⟨.cmdIllegal, by decide, rfl⟩⟩
  | wh2 x => exact .inl ⟨_, rfl, finish_outputWrite _ s rfl⟩
  | wh2a x pad => exact .inl ⟨_, rfl, finish_outputWrite _ s rfl⟩
  | wh5 x => exact .inl ⟨_, rfl, finish_outputWrite _ s rfl⟩
  | telldus x => exact .inl ⟨_, rfl, finish_outputWrite _ s rfl⟩
  | wh0530 x ign crc sum => exact .inl ⟨_, rfl, finish_outputWrite _ s rfl⟩
  | alectoV1 x ign crc => exact .inl ⟨_, rfl, finish_outputWrite _ s rfl⟩
  | alectoV2 x ign crc sum => exact .inl ⟨_, rfl, finish_outputWrite _ s rfl⟩
  | alectoV2Dcf x => exact .inl ⟨_, rfl, finish_outputWrite _ s rfl⟩
  | wh24 off x => exact .inl ⟨_, rfl, finish_outputWrite _ s rfl⟩
  | wh65b off x => exact .inl ⟨_, rfl, finish_outputWrite _ s rfl⟩
  | wh25 off x => exact .inl ⟨_, rfl, finish_outputWrite _ s rfl⟩
  | wh32b off x => exact .inl ⟨_, rfl, finish_outputWrite _ s rfl⟩
  | wh32 off x => exact .inl ⟨_, rfl, finish_outputWrite _ s rfl⟩
  | wh0290 off x => exact .inl ⟨_, rfl, finish_outputWrite _ s rfl⟩
  | wh51 off x => exact .inl ⟨_, rfl, finish_outputWrite _ s rfl⟩

/-- What an instruction that answers a next state did. -/
theorem exec_next (i : Instr) (s t : State) (h : exec i s = .next t) : OutputWrite s t := by
  rcases exec_cases i s with ⟨t', ht, hw⟩ | ⟨k, hk, -⟩
  · rw [ht] at h
    cases h
    exact hw
  · rw [hk] at h
    cases h

/-- The command of an entry point is its transaction (spec/43_classifier.md R130). -/
theorem exec_commandOf (e : Entry) (s : State) : exec (commandOf e) s = transact fpl e s := by cases e <;> rfl

/-- A row instruction is the tail of a transaction on its own frame (spec/43_classifier.md R130). -/
theorem exec_located (i : Instr) (l : Located) (s : State) (h : locatedOf i = some l) :
    exec i s = .next (finish fpl l s) := by
  cases i <;> first
    | (injection h with h; subst h; rfl)
    | (simp [locatedOf] at h)

/-- A raised outcome is the end of a failing transaction (spec/60_exceptions.md R200). -/
theorem raise_failedWith (o : OutcomeCode) (s : State) : FailedWith o s (raise o s) :=
  ⟨rfl, rfl, ⟨rfl, rfl, rfl, rfl, rfl, rfl⟩, rfl, rfl, rfl, rfl⟩

/-- A command whose first stage raises an outcome ends with it. -/
theorem endsWith_of_classify (e : Entry) (o : OutcomeCode) (s : State)
    (h : classify fpl e s.bitcnt.toNat s.row = .error (.outcome o)) : EndsWith (commandOf e) o s :=
  ⟨raise o s, by rw [exec_commandOf, transact_raised fpl e s o h], raise_failedWith o s⟩

/-- A command whose first stage locates a frame ends with `FINISH` on it. -/
theorem finishesWith_of_classify (e : Entry) (l : Located) (s : State) (h : classify fpl e s.bitcnt.toNat s.row = .ok l) :
    FinishesWith (commandOf e) l s := by rw [FinishesWith, exec_commandOf, transact_located fpl e s l h]

/-- A command whose first stage locates the frame of a row instruction does what that instruction does. -/
theorem runsAs_of_classify (e : Entry) (i : Instr) (l : Located) (s : State) (hl : locatedOf i = some l)
    (h : classify fpl e s.bitcnt.toNat s.row = .ok l) : RunsAs (commandOf e) i s :=
  ⟨finish fpl l s, by rw [exec_commandOf, transact_located fpl e s l h], exec_located i l s hl⟩

/-- A host read changes nothing but the word it returns (spec/20_memory.md R44). -/
theorem hostRead_next (c : Config) (off : Nat) (s t : State) (h : hostRead c off s = .next t) : ∃ w, t = { s with rdata := w } := by
  unfold hostRead at h
  repeat' split at h
  all_goals first | (injection h with h; exact ⟨_, h.symm⟩) | cases h

/-- What a host write can do: a transaction, a new `BITCNT`, a byte of `ROW`, or nothing (spec/20_memory.md R45). -/
theorem hostWrite_next (c : Config) (run : Runs) (off : Nat) (v : Word) (s t : State)
    (h : hostWrite c run off v s = .next t) :
    (regAt c off = .cmd ∧ run (decodeCommand v) s = .next t) ∨
    (regAt c off = .bitcnt ∧ t = { s with bitcnt := v.setWidth 16 }) ∨
    (∃ k, regAt c off = .row k ∧ t = { s with row := Memory.write s.row k (v.setWidth 8) }) ∨ t = s := by
  unfold hostWrite at h
  split at h
  all_goals first
    | (rename_i e; exact .inl ⟨e, h⟩)
    | (rename_i e; injection h with h; exact .inr (.inl ⟨e, h.symm⟩))
    | (rename_i k e; injection h with h; exact .inr (.inr (.inl ⟨k, e, h.symm⟩)))
    | (injection h with h; exact .inr (.inr (.inr h.symm)))
    | cases h

/-- A `ROW` offset of the map names a byte of the buffer (spec/20_memory.md R45). -/
theorem regAt_row (c : Config) (off k : Nat) (h : regAt c off = .row k) : off = 0x100 + k ∧ k < c.rowCapBytes := by
  unfold regAt at h
  split at h
  · simp at h
  split at h
  · injection h with h
    omega
  repeat' split at h
  all_goals simp at h

/-- What a host access can do (spec/10_state.md R25). -/
theorem hostAccess_next (c : Config) (run : Runs) (op : HostOp) (s t : State) (h : hostAccess c run op s = .next t) :
    t = resetBlock s ∨ (∃ w, t = { s with rdata := w }) ∨
    (∃ v, run (decodeCommand v) s = .next t ∧ s.phase ≠ .busy) ∨
    (∃ n, t = { s with bitcnt := n }) ∨
    (∃ k b, k < c.rowCapBytes ∧ t = { s with row := Memory.write s.row k b }) ∨ t = s := by
  cases op with
  | reset =>
    cases h
    exact .inl rfl
  | read off =>
    simp only [hostAccess] at h
    split at h
    · cases h
    · exact .inr (.inl (hostRead_next c off s t h))
  | write off v =>
    simp only [hostAccess] at h
    split at h
    · cases h
    · rename_i hb
      rcases hostWrite_next c run off v s t h with ⟨-, e⟩ | ⟨-, e⟩ | ⟨k, hk, e⟩ | e
      · exact .inr (.inr (.inl ⟨v, e, hb⟩))
      · exact .inr (.inr (.inr (.inl ⟨_, e⟩)))
      · exact .inr (.inr (.inr (.inr (.inl ⟨k, _, (regAt_row _ _ _ hk).2, e⟩))))
      · exact .inr (.inr (.inr (.inr (.inr e))))

/-- A row instruction at any configuration is the tail of a transaction on its frame (spec/43_classifier.md R130). -/
theorem execWith_located (c : Config) (i : Instr) (l : Located) (s : State) (he : entryOf i = none)
    (h : locatedOf i = some l) : execWith c i s = .next (finish c (atFixedOff c l) s) := by
  simp only [execWith, he, h]

/-- What the tail of a transaction can do at any configuration: one failing outcome raised, or one frame committed. -/
theorem finish_cases (c : Config) (l : Located) :
    (∃ o, o ≠ .ok ∧ ∀ u, finish c l u = raise o u) ∨
    (∀ u, finish c l u = commit l (c.frameLen l.variant) (decodeFields c l.variant l.frame) u) := by
  by_cases hv : verdict c l.variant l.frame = .ok
  · exact .inr fun u => finish_ok c l u hv
  · exact .inl ⟨_, hv, fun u => finish_fail c l u hv⟩

/-- What an instruction can do at any configuration, on every state of the same inputs alike: one failing outcome raised,
one frame committed, or a refusal. -/
theorem execWith_cases (c : Config) (i : Instr) (s : State) :
    (∃ o, o ≠ .ok ∧ ∀ u : State, u.bitcnt = s.bitcnt → u.row = s.row → execWith c i u = .next (raise o u)) ∨
    (∃ l, ∀ u : State, u.bitcnt = s.bitcnt → u.row = s.row →
      execWith c i u = .next (commit l (c.frameLen l.variant) (decodeFields c l.variant l.frame) u)) ∨
    ∃ k, ∀ u : State, u.bitcnt = s.bitcnt → u.row = s.row → execWith c i u = .refused (.unwrittenRow k) := by
  unfold execWith
  split
  · rename_i e _
    cases h : classify c e s.bitcnt.toNat s.row with
    | ok l =>
      have hu : ∀ u : State, u.bitcnt = s.bitcnt → u.row = s.row → transact c e u = .next (finish c l u) :=
        fun u hb hr => transact_located c e u l (by rw [hb, hr, h])
      rcases finish_cases c l with ⟨o, ho, hf⟩ | hf
      · exact .inl ⟨o, ho, fun u hb hr => by rw [hu u hb hr, hf]⟩
      · exact .inr (.inl ⟨l, fun u hb hr => by rw [hu u hb hr, hf]⟩)
    | error x =>
      cases x with
      | outcome o =>
        refine .inl ⟨o, ?_, fun u hb hr => transact_raised c e u o (by rw [hb, hr, h])⟩
        rintro rfl
        exact classify_not_ok c e _ _ h
      | unwritten k => exact .inr (.inr ⟨k, fun u hb hr => transact_unwritten c e u k (by rw [hb, hr, h])⟩)
  · split
    · rename_i l _
      rcases finish_cases c (atFixedOff c l) with ⟨o, ho, hf⟩ | hf
      · exact .inl ⟨o, ho, fun u _ _ => by rw [hf]⟩
      · exact .inr (.inl ⟨atFixedOff c l, fun u _ _ => by rw [hf]⟩)
    · exact .inl ⟨.cmdIllegal, by decide, fun _ _ _ => rfl⟩

/-- A step at any configuration with an access pending makes that access (spec/10_state.md R21). -/
theorem stepWith_access (c : Config) (s : State) (op : HostOp) (rest : List HostOp) (h : s.port = op :: rest) :
    stepWith c s = hostAccess c (execWith c) op { s with port := rest } := by simp [stepWith, hostStep, h]

/-- One step with an access pending makes that access. -/
theorem step_access (s : State) (op : HostOp) (rest : List HostOp) (h : s.port = op :: rest) :
    step s = hostAccess fpl exec op { s with port := rest } := by simp [step, hostStep, h]

/-- One step with none pending leaves the block as it is (spec/60_exceptions.md R208). -/
theorem step_idle (s : State) (h : s.port = []) : step s = .next s := by simp [step, hostStep, h]

end Sys2Proof.Machine
end

