-- ==== Sys2Proof/Laws/HostPort.lean ====
section
/-! SUPPORT. The register map by name, and runs of several steps. -/

namespace Sys2Proof.Machine

/-- The offset of a byte of `ROW` (spec/20_memory.md R45). -/
theorem regAt_rowByte (k : Nat) (hk : k < 128) : regAt fpl (0x100 + k) = .row k := by
  have hc : fpl.rowCapBytes = 128 := rfl
  unfold regAt
  rw [if_neg (by omega), if_pos (by omega), Nat.add_sub_cancel_left]

/-- The offset of a byte of `FRAME` (spec/20_memory.md R45). -/
theorem regAt_frameByte (k : Nat) (hk : k < 17) : regAt fpl (0x080 + k) = .frame k := by
  have hc : fpl.rowCapBytes = 128 := rfl
  unfold regAt
  rw [if_neg (by omega), if_neg (by omega), if_neg (by omega), if_pos (by omega), Nat.add_sub_cancel_left]

/-- The offset of a field register (spec/10_state.md R20). -/
theorem regAt_field (f : Field) : regAt fpl (0x018 + 4 * presentBit f) = .field f := by cases f <;> decide

/-- The two reserved ranges of the map (spec/20_memory.md R45). -/
theorem regAt_reserved (off : Nat) (h : (0x068 ≤ off ∧ off < 0x080) ∨ (0x091 ≤ off ∧ off < 0x100)) :
    regAt fpl off = .reserved := by
  have hc : fpl.rowCapBytes = 128 := rfl
  unfold regAt
  rcases h with h | h
  · rw [if_neg (by omega), if_neg (by omega), if_neg (by omega), if_neg (by omega), if_pos (by omega)]
  · rw [if_neg (by omega), if_neg (by omega), if_pos (by omega)]

/-- No other offset names `STATUS` (spec/20_memory.md R45). -/
theorem regAt_status (off : Nat) (h : regAt fpl off = .status) : off = 0x008 := by
  by_cases hlt : off < 0x068
  · by_cases hm : off % 4 = 0
    · obtain ⟨q, rfl⟩ : ∃ q, off = 4 * q := ⟨off / 4, by omega⟩
      have hq : q < 26 := by omega
      interval_cases q <;> first | rfl | (revert h; decide)
    · have hc : fpl.rowCapBytes = 128 := rfl
      unfold regAt at h
      rw [if_neg (by omega), if_neg (by omega), if_neg (by omega), if_neg (by omega), if_neg (by omega),
        if_pos hm] at h
      cases h
  · have hc : fpl.rowCapBytes = 128 := rfl
    unfold regAt at h
    repeat' split at h
    all_goals first | omega | cases h

/-- `CMD` stands at offset 0 at every configuration (spec/20_memory.md R45). -/
theorem regAt_cmd (c : Config) : regAt c 0x000 = .cmd := by
  unfold regAt
  rw [if_neg (by omega), if_neg (by omega), if_neg (by omega), if_neg (by omega), if_neg (by omega), if_neg (by omega)]
  rfl

/-- A register below the `F_RCLK` high word stands at one offset (spec/20_memory.md R45). -/
theorem regAt_word (off : Nat) (r : HostReg) (h : regAt fpl off = r) (hw : r = .cmd ∨ r = .bitcnt) :
    off = (if r = .cmd then 0x000 else 0x004) := by
  by_cases hlt : off < 0x068
  · by_cases hm : off % 4 = 0
    · obtain ⟨q, rfl⟩ : ∃ q, off = 4 * q := ⟨off / 4, by omega⟩
      have hq : q < 26 := by omega
      rcases hw with rfl | rfl <;> interval_cases q <;> first | rfl | (revert h; decide)
    · have hc : fpl.rowCapBytes = 128 := rfl
      unfold regAt at h
      rw [if_neg (by omega), if_neg (by omega), if_neg (by omega), if_neg (by omega), if_neg (by omega),
        if_pos hm] at h
      rcases hw with rfl | rfl <;> cases h
  · have hc : fpl.rowCapBytes = 128 := rfl
    unfold regAt at h
    rcases hw with rfl | rfl
    all_goals
      repeat' split at h
      all_goals first | omega | cases h

/-- What a write of the host can do when it answers, by its offset (spec/20_memory.md R45). -/
theorem hostWrite_effect (off : Nat) (v : Word) (s t : State) (h : hostWrite fpl exec off v s = .next t) :
    (off = 0x000 ∧ exec (decodeCommand v) s = .next t) ∨ (off = 0x004 ∧ t = { s with bitcnt := v.setWidth 16 }) ∨
    (∃ k, off = 0x100 + k ∧ k < 128 ∧ t = { s with row := Memory.write s.row k (v.setWidth 8) }) ∨ t = s := by
  unfold hostWrite at h
  split at h
  case h_1 hr => exact .inl ⟨regAt_word off _ hr (.inl rfl), h⟩
  case h_2 hr =>
    injection h with h
    exact .inr (.inl ⟨regAt_word off _ hr (.inr rfl), h.symm⟩)
  case h_3 k hr =>
    injection h with h
    exact .inr (.inr (.inl ⟨k, (regAt_row fpl off k hr).1, (regAt_row fpl off k hr).2, h.symm⟩))
  all_goals first | cases h; exact .inr (.inr (.inr rfl)) | cases h

/-- An access of the host outside `BUSY` reads or writes the register named (spec/10_state.md R25). -/
theorem step_read (s : State) (off : Nat) (rest : List HostOp) (h : s.port = .read off :: rest) (hb : s.phase ≠ .busy) :
    step s = hostRead fpl off { s with port := rest } := by
  rw [step_access s _ _ h]
  simp only [hostAccess]
  rw [if_neg (fun hx => hb hx.1)]

/-- A write of the host outside `BUSY` (spec/10_state.md R25). -/
theorem step_write (s : State) (off : Nat) (v : Word) (rest : List HostOp) (h : s.port = .write off v :: rest)
    (hb : s.phase ≠ .busy) : step s = hostWrite fpl exec off v { s with port := rest } := by
  rw [step_access s _ _ h]
  simp only [hostAccess]
  rw [if_neg hb]

/-- The host's write of an entry point's word is that command (spec/30_encoding.md R60). -/
theorem hostAccess_command (e : Entry) (s : State) (hb : s.phase ≠ .busy) :
    hostAccess fpl exec (.write 0x000 (entryWord e)) s = exec (commandOf e) s := by
  simp only [hostAccess]
  rw [if_neg hb]
  cases e <;> rfl

/-- The host's read of STATUS, in every phase (spec/10_state.md R17, R25). -/
theorem hostAccess_status (s : State) : hostAccess fpl exec (.read 0x008) s = .next { s with rdata := statusWord s } := by
  have e : regAt fpl 0x008 = .status := by decide
  simp only [hostAccess, e]
  rw [if_neg (by simp)]
  simp only [hostRead, e]

/-- When a STATUS word sends the host to the next entry point (spec/30_encoding.md R80). -/
theorem saysTryNext_statusWord (s : State) :
    saysTryNext (statusWord s) = true ↔ s.outcome = .abortLength ∨ s.outcome = .abortEarly := by
  have h : (statusWord s).extractLsb' 2 3 = outcomeCode s.outcome := by
    unfold statusWord
    apply BitVec.eq_of_getLsbD_eq
    intro i hi
    simp only [BitVec.getLsbD_extractLsb', BitVec.getLsbD_append]
    interval_cases i <;> simp
  unfold saysTryNext
  rw [h]
  cases s.outcome <;> decide

/-- A run whose first step goes on. -/
theorem core_run_next (k : Nat) (s t : State) (h : step s = .next t) :
    Sys2Proof.core.run (k + 1) s = Sys2Proof.core.run k t := by
  have h' : Sys2Proof.core.step s = .next t := h
  simp only [Host.Core.run, h']

/-- A run whose first step faults. -/
theorem core_run_fault (k : Nat) (s : State) (r : Fault) (h : step s = .fault r) :
    Sys2Proof.core.run (k + 1) s = .fault r := by
  have h' : Sys2Proof.core.step s = .fault r := h
  simp only [Host.Core.run, h']

/-- A run whose first step is refused. -/
theorem core_run_refused (k : Nat) (s : State) (r : Refusal) (h : step s = .refused r) :
    Sys2Proof.core.run (k + 1) s = .refused r := by
  have h' : Sys2Proof.core.step s = .refused r := h
  simp only [Host.Core.run, h']

end Sys2Proof.Machine
end

