-- ==== Sys2Proof/Laws/PerInstr.lean ====
section
/-! SUPPORT. A statement about every instruction as syntax, one lemma per constructor: a row instruction is read back from
its frame, and its frame has its variant's length. -/

namespace Sys2Proof.Laws.FrameRoundTrip

open Sys2Proof.Machine

/-- The frame of a row instruction has its variant's length and holds every operand (spec/30_encoding.md R64, R66 to
R74). -/
def Statement (i : Instr) : Prop :=
  ∀ l, locatedOf i = some l → l.frame.length = fpl.frameLen l.variant ∧ instrOf l = i

/-- The offset of an FSK-family frame fits its register. -/
theorem ofNat_toNat_off (off : BitVec 16) : BitVec.ofNat 16 off.toNat = off := by simp

/-- The frame of WH2, WH5 and Telldus holds its operands. -/
theorem wh2Of_bytes (x : Wh2Frame) (rest : List Byte) : wh2Of ((wh2Bytes x) ++ rest) = x := by
  obtain ⟨type, id, temp, hum, crc⟩ := x
  simp only [wh2Of, wh2Bytes, byteAt, List.cons_append, List.nil_append, List.getD_cons_zero, List.getD_cons_succ,
    Wh2Frame.mk.injEq, and_true]
  refine ⟨?_, ?_, ?_⟩ <;>
    (apply BitVec.eq_of_getLsbD_eq; intro i hi; simp only [BitVec.getLsbD_append, BitVec.getLsbD_extractLsb'];
      interval_cases i <;> simp)

/-- The shared bytes of WH0530 and Alecto-WS1200-v1, -v2 hold their operands. -/
theorem rainOf_bytes (x : RainFrame) (rest : List Byte) : rainOf ((rainBytes x) ++ rest) = x := by
  obtain ⟨id, batt, temp, lo, hi⟩ := x
  simp only [rainOf, rainBytes, byteAt, List.cons_append, List.nil_append, List.getD_cons_zero, List.getD_cons_succ,
    RainFrame.mk.injEq, and_true]
  refine ⟨?_, ?_, ?_⟩ <;>
    (apply BitVec.eq_of_getLsbD_eq; intro i hi; simp only [BitVec.getLsbD_append, BitVec.getLsbD_extractLsb'];
      interval_cases i <;> simp)

/-- The Alecto-WS1200-v2-DCF frame holds its operands. -/
theorem dcfOf_bytes (x : DcfFrame) (rest : List Byte) : dcfOf ((dcfBytes x) ++ rest) = x := by
  obtain ⟨id, batt, ign, y, mo, d, h, mi, s, crc, sum⟩ := x
  simp only [dcfOf, dcfBytes, byteAt, List.cons_append, List.nil_append, List.getD_cons_zero, List.getD_cons_succ,
    DcfFrame.mk.injEq, and_true, true_and]
  refine ⟨?_, ?_⟩ <;>
    (apply BitVec.eq_of_getLsbD_eq; intro i hi; simp only [BitVec.getLsbD_append, BitVec.getLsbD_extractLsb'];
      interval_cases i <;> simp)

/-- The WH24 and WH65B frame holds its operands. -/
theorem wh24Of_bytes (x : Wh24Frame) (rest : List Byte) : wh24Of ((wh24Bytes x) ++ rest) = x := by
  obtain ⟨fam, id, wdir, ign, wspd, batt, temp, hum, gust, lo, hi, uv, light, crc, sum⟩ := x
  simp only [wh24Of, wh24Bytes, byteAt, List.cons_append, List.nil_append, List.getD_cons_zero, List.getD_cons_succ,
    Wh24Frame.mk.injEq, and_true, true_and]
  refine ⟨?_, ?_, ?_, ?_, ?_, ?_, ?_⟩ <;>
    (apply BitVec.eq_of_getLsbD_eq; intro i hi; simp only [BitVec.getLsbD_append, BitVec.getLsbD_extractLsb'];
      interval_cases i <;> simp)

/-- The WH0290 frame holds its operands. -/
theorem wh0290Of_bytes (x : Wh0290Frame) (rest : List Byte) : wh0290Of ((wh0290Bytes x) ++ rest) = x := by
  obtain ⟨fam, id, st, pm25, bars, pm10, crc, sum⟩ := x
  simp only [wh0290Of, wh0290Bytes, byteAt, List.cons_append, List.nil_append, List.getD_cons_zero, List.getD_cons_succ,
    Wh0290Frame.mk.injEq, and_true, true_and]
  refine ⟨?_, ?_, ?_, ?_⟩ <;>
    (apply BitVec.eq_of_getLsbD_eq; intro i hi; simp only [BitVec.getLsbD_append, BitVec.getLsbD_extractLsb'];
      interval_cases i <;> simp)

/-- The WH51 frame holds its operands. -/
theorem wh51Of_bytes (x : Wh51Frame) (rest : List Byte) : wh51Of ((wh51Bytes x) ++ rest) = x := by
  obtain ⟨id, boost, batt, ign5, moist, ign7, ad, crc, sum⟩ := x
  simp only [wh51Of, wh51Bytes, byteAt, List.cons_append, List.nil_append, List.getD_cons_zero, List.getD_cons_succ,
    Wh51Frame.mk.injEq, and_true, true_and]
  refine ⟨?_, ?_, ?_, ?_, ?_⟩ <;>
    (apply BitVec.eq_of_getLsbD_eq; intro i hi; simp only [BitVec.getLsbD_append, BitVec.getLsbD_extractLsb'];
      interval_cases i <;> simp)

/-- The frame of WH25, WH32 and WH32B holds its operands. -/
theorem wh25Of_bytes (ty : BitVec 4) (x : Wh25Frame) (rest : List Byte) : wh25Of ((wh25Bytes ty x) ++ rest) = x := by
  obtain ⟨id, batt, ign, temp, hum, press, sum, last⟩ := x
  simp only [wh25Of, wh25Bytes, byteAt, List.cons_append, List.nil_append, List.getD_cons_zero, List.getD_cons_succ,
    Wh25Frame.mk.injEq, and_true, true_and]
  refine ⟨?_, ?_, ?_, ?_, ?_⟩ <;>
    (apply BitVec.eq_of_getLsbD_eq; intro i hi; simp only [BitVec.getLsbD_append, BitVec.getLsbD_extractLsb'];
      interval_cases i <;> simp)

/-- The four ignored bytes of an Alecto-WS1200-v2 frame are read back. -/
theorem fourBytes (x : BitVec 32) :
    x.extractLsb' 24 8 ++ x.extractLsb' 16 8 ++ x.extractLsb' 8 8 ++ x.extractLsb' 0 8 = x := by
  apply BitVec.eq_of_getLsbD_eq
  intro i hi
  simp only [BitVec.getLsbD_append, BitVec.getLsbD_extractLsb']
  interval_cases i <;> simp

theorem decodeWh2 : Statement .decodeWh2 := fun _ h => by cases h
theorem decodeWh0530 : Statement .decodeWh0530 := fun _ h => by cases h
theorem decodeWh24 : Statement .decodeWh24 := fun _ h => by cases h
theorem decodeWh25 : Statement .decodeWh25 := fun _ h => by cases h
theorem decodeWh51 : Statement .decodeWh51 := fun _ h => by cases h
theorem reserved5 : Statement .reserved5 := fun _ h => by cases h
theorem reserved6 : Statement .reserved6 := fun _ h => by cases h
theorem reserved7 : Statement .reserved7 := fun _ h => by cases h

theorem wh2 (x : Wh2Frame) : Statement (.wh2 x) := by
  intro l h
  cases h
  exact ⟨rfl, congrArg Instr.wh2 (wh2Of_bytes x [])⟩

theorem wh2a (x : Wh2Frame) (pad : BitVec 8) : Statement (.wh2a x pad) := by
  intro l h
  cases h
  exact ⟨rfl, congrArg (Instr.wh2a · pad) (wh2Of_bytes x [pad])⟩

theorem wh5 (x : Wh2Frame) : Statement (.wh5 x) := by
  intro l h
  cases h
  exact ⟨rfl, congrArg Instr.wh5 (wh2Of_bytes x [])⟩

theorem telldus (x : Wh2Frame) : Statement (.telldus x) := by
  intro l h
  cases h
  exact ⟨rfl, congrArg Instr.telldus (wh2Of_bytes x [])⟩

theorem wh0530 (x : RainFrame) (ign crc sum : BitVec 8) : Statement (.wh0530 x ign crc sum) := by
  intro l h
  cases h
  exact ⟨rfl, congrArg (Instr.wh0530 · ign crc sum) (rainOf_bytes x [ign, crc, sum])⟩

theorem alectoV1 (x : RainFrame) (ign crc : BitVec 8) : Statement (.alectoV1 x ign crc) := by
  intro l h
  cases h
  exact ⟨rfl, congrArg (Instr.alectoV1 · ign crc) (rainOf_bytes x [ign, crc])⟩

theorem alectoV2 (x : RainFrame) (ign : BitVec 32) (crc sum : BitVec 8) : Statement (.alectoV2 x ign crc sum) := by
  intro l h
  cases h
  refine ⟨rfl, ?_⟩
  have hx := rainOf_bytes x
    [ign.extractLsb' 24 8, ign.extractLsb' 16 8, ign.extractLsb' 8 8, ign.extractLsb' 0 8, crc, sum]
  exact congr (congrArg (fun a b => Instr.alectoV2 a b crc sum) hx) (fourBytes ign)

theorem alectoV2Dcf (x : DcfFrame) : Statement (.alectoV2Dcf x) := by
  intro l h
  cases h
  exact ⟨rfl, congrArg Instr.alectoV2Dcf (dcfOf_bytes x [])⟩

theorem wh24 (off : BitVec 16) (x : Wh24Frame) : Statement (.wh24 off x) := by
  intro l h
  cases h
  exact ⟨rfl, congr (congrArg Instr.wh24 (ofNat_toNat_off off)) (wh24Of_bytes x [])⟩

theorem wh65b (off : BitVec 16) (x : Wh24Frame) : Statement (.wh65b off x) := by
  intro l h
  cases h
  exact ⟨rfl, congr (congrArg Instr.wh65b (ofNat_toNat_off off)) (wh24Of_bytes x [])⟩

theorem wh25 (off : BitVec 16) (x : Wh25Frame) : Statement (.wh25 off x) := by
  intro l h
  cases h
  exact ⟨rfl, congr (congrArg Instr.wh25 (ofNat_toNat_off off)) (wh25Of_bytes 0xE x [])⟩

theorem wh32b (off : BitVec 16) (x : Wh25Frame) : Statement (.wh32b off x) := by
  intro l h
  cases h
  exact ⟨rfl, congr (congrArg Instr.wh32b (ofNat_toNat_off off)) (wh25Of_bytes 0xE x [])⟩

theorem wh32 (off : BitVec 16) (x : Wh25Frame) : Statement (.wh32 off x) := by
  intro l h
  cases h
  exact ⟨rfl, congr (congrArg Instr.wh32 (ofNat_toNat_off off)) (wh25Of_bytes 0xD x [])⟩

theorem wh0290 (off : BitVec 16) (x : Wh0290Frame) : Statement (.wh0290 off x) := by
  intro l h
  cases h
  exact ⟨rfl, congr (congrArg Instr.wh0290 (ofNat_toNat_off off)) (wh0290Of_bytes x [])⟩

theorem wh51 (off : BitVec 16) (x : Wh51Frame) : Statement (.wh51 off x) := by
  intro l h
  cases h
  exact ⟨rfl, congr (congrArg Instr.wh51 (ofNat_toNat_off off)) (wh51Of_bytes x [])⟩

end Sys2Proof.Laws.FrameRoundTrip
end

