-- ==== Sys2Proof/Laws/Record.lean ====
section
/-! SUPPORT. What a decoded record holds: every field register of a variant from its descriptor, none beside them, and the
mask. -/

namespace Sys2Proof.Machine

/-- Bytes put together, as numbers. -/
theorem toNat_append_mul {n m : Nat} (x : BitVec n) (y : BitVec m) : (x ++ y).toNat = x.toNat * 2 ^ m + y.toNat := by
  rw [BitVec.toNat_append, Nat.shiftLeft_eq, Nat.mul_comm, Nat.two_pow_add_eq_or_of_lt y.isLt]

/-- A slice of a vector, as a number. -/
theorem toNat_extract (n s l : Nat) (x : BitVec n) : (x.extractLsb' s l).toNat = x.toNat / 2 ^ s % 2 ^ l := by
  rw [BitVec.extractLsb'_toNat, Nat.shiftRight_eq_div_pow]

/-- Registers that no descriptor of the list names keep their value. -/
theorem applyFields_other (c : Config) (v : Variant) (f : List Byte) (ds : List FieldDesc) (r : Record) (g : Field)
    (h : ∀ d ∈ ds, d.reg ≠ g) : (applyFields c v f r ds).value g = r.value g := by
  induction ds generalizing r with
  | nil => rfl
  | cons d ds ih =>
    rw [applyFields, ih _ (fun e he => h e (List.mem_cons_of_mem _ he)),
      applyField_other c v f r d g (h d (List.mem_cons_self)).symm]

/-- A register that one descriptor of the list names holds that descriptor's conversion, or is left alone where the raw
value is the sentinel (spec/42_unpack_scale.md R110). -/
theorem applyFields_value (c : Config) (v : Variant) (f : List Byte) (ds : List FieldDesc) (r : Record) (d : FieldDesc)
    (hd : d ∈ ds) (hn : ds.Pairwise (fun a b => a.reg ≠ b.reg))
    (hf : FieldFits d.reg (convert c v d.width d.conv (rawValue f d.segs))) :
    (applyFields c v f r ds).value d.reg =
      if d.sentinel = some (rawValue f d.segs) then r.value d.reg
      else some (convert c v d.width d.conv (rawValue f d.segs)) := by
  induction ds generalizing r with
  | nil => cases hd
  | cons e ds ih =>
    rw [List.pairwise_cons] at hn
    rw [applyFields]
    rcases List.mem_cons.1 hd with rfl | hd
    · rw [applyFields_other c v f ds _ d.reg (fun x hx => (hn.1 x hx).symm)]
      split
      · rename_i h
        rw [applyField_absent c v f r d h]
      · rename_i h
        rw [applyField_present c v f r d h, Record.value_set_same _ _ _ hf]
    · rw [ih _ hd hn.2, applyField_other c v f r e d.reg (hn.1 d hd).symm]

/-- The mask bits above `mic` are never set by a descriptor list. -/
theorem applyFields_present_above (c : Config) (v : Variant) (f : List Byte) (ds : List FieldDesc) (r : Record) (n : Nat)
    (hn : micBit ≤ n) (h : r.present.getLsbD n = false) : (applyFields c v f r ds).present.getLsbD n = false := by
  induction ds generalizing r with
  | nil => exact h
  | cons d ds ih =>
    refine ih _ ?_
    unfold applyField
    split
    · exact h
    · have hb := presentBit_lt d.reg
      rw [Record.set_present, setPresentBit_getLsbD _ _ _ (by simp [micBit] at hb; omega), h]
      simp
      omega

/-- No two descriptors of a variant name one register. -/
theorem layout_regs_distinct (v : Variant) : (fpl.layout v).Pairwise (fun a b => a.reg ≠ b.reg) := by
  cases v <;> decide

/-- The width a descriptor states is that of its parts (spec/30_encoding.md R75). -/
theorem layout_width (v : Variant) : ∀ d ∈ fpl.layout v, segsWidth d.segs = d.width := by
  cases v <;> decide

/-- The UV index is at most the number of thresholds (spec/42_unpack_scale.md R122). -/
theorem uvIndex_le (ts : List Nat) (raw : Nat) : uvIndex ts raw ≤ ts.length := by
  induction ts with
  | nil => simp [uvIndex]
  | cons t ts ih =>
    unfold uvIndex
    split
    · simpa using ih
    · simp

section convert
variable (v : Variant) (w raw : Nat)
theorem convert_raw : convert fpl v w .raw raw = raw := rfl
theorem convert_uvIndex : convert fpl v w .uvIndex raw = (uvIndex fpl.uviThresh raw : Nat) := rfl
theorem convert_battFlag : convert fpl v w .battFlag raw = 1 - (raw : Int) := rfl
theorem convert_milliVolt : convert fpl v w .milliVolt raw = (raw * 100 : Nat) := rfl
theorem convert_battFraction : convert fpl v w .battFraction raw = ((raw * 100 : Nat) : Int) - 700 := rfl
theorem convert_rain : convert fpl v w .rain raw = (raw * rainMilliTable defaultParams v : Nat) := rfl
theorem convert_wind : convert fpl v w .wind raw = (raw * (125 * windFactorTable v) : Nat) := rfl
theorem convert_temp : convert fpl v w .temp raw = temperature (tempPolicyTable defaultParams v) w raw := rfl
end convert

/-- Every conversion of every variant fits its register, for every raw value of the field's width
(spec/42_unpack_scale.md R119, R128). -/
theorem convert_fits (v : Variant) (d : FieldDesc) (hd : d ∈ fpl.layout v) (raw : Nat) (h : raw < 2 ^ d.width) :
    FieldFits d.reg (convert fpl v d.width d.conv raw) := by
  have hu : uvIndex fpl.uviThresh raw ≤ 13 := uvIndex_le fpl.uviThresh raw
  cases v <;>
    (simp only [fpl, configOf, layoutTable, wh2Layout, rainLayout, dcfLayout, wh24Layout, wh25Layout, wh32Layout,
        wh0290Layout, wh51Layout, List.cons_append, List.nil_append, List.mem_cons, List.not_mem_nil, or_false] at hd
     rcases hd with rfl | rfl | rfl | rfl | rfl | rfl | rfl | rfl | rfl | rfl | rfl <;>
       (simp only [FieldFits, fieldSigned, fieldWidth, if_true, Bool.false_eq_true, if_false, convert_raw,
          convert_battFlag, convert_uvIndex, convert_milliVolt, convert_battFraction, convert_rain, convert_wind,
          convert_temp, rainMilliTable, windFactorTable, tempPolicyTable, defaultParams, temperature, tempOffset40] at *
        first | omega | (unfold tempSignMag; split <;> omega)))

/-- A decoded record holds, in a register that a descriptor of the variant names, that descriptor's conversion, and
nothing where the raw value is the sentinel (spec/42_unpack_scale.md R110). -/
theorem decodeFields_value (v : Variant) (f : List Byte) (d : FieldDesc) (hd : d ∈ fpl.layout v) :
    (decodeFields fpl v f).value d.reg =
      if d.sentinel = some (rawValue f d.segs) then none
      else some (convert fpl v d.width d.conv (rawValue f d.segs)) := by
  have hlt := rawValue_lt f d.segs
  rw [layout_width v d hd] at hlt
  unfold decodeFields
  rw [setMic_value, applyFields_value fpl v f _ _ d hd (layout_regs_distinct v) (convert_fits v d hd _ hlt)]
  have he : Record.empty.value d.reg = none := by cases d.reg <;> rfl
  rw [he]

/-- A decoded record holds nothing in a register that no descriptor of the variant names. -/
theorem decodeFields_other (v : Variant) (f : List Byte) (g : Field) (h : ∀ d ∈ fpl.layout v, d.reg ≠ g) :
    (decodeFields fpl v f).value g = none := by
  unfold decodeFields
  rw [setMic_value, applyFields_other fpl v f _ _ g h]
  cases g <;> rfl

/-- The bit of `mic` is set in every decoded record (spec/44_decode_pwm.md R150). -/
theorem decodeFields_mic (v : Variant) (f : List Byte) : (decodeFields fpl v f).present.getLsbD 19 = true := by
  unfold decodeFields
  rw [setMic_present, setPresentBit_getLsbD _ _ _ (by decide)]
  simp [micBit]

/-- No mask bit above that of `mic` is set in a decoded record (spec/10_state.md R19). -/
theorem decodeFields_above (v : Variant) (f : List Byte) (n : Nat) (h : 20 ≤ n) :
    (decodeFields fpl v f).present.getLsbD n = false := by
  unfold decodeFields
  rw [setMic_present, setPresentBit_getLsbD _ _ _ (by decide),
    applyFields_present_above fpl v f _ _ n (by simp [micBit]; omega) (by simp [Record.empty])]
  have : n ≠ micBit := by simp [micBit]; omega
  simp [this]

end Sys2Proof.Machine
end

