-- ==== Sys2Proof/Tests/Slice0.lean ====
section
/-! SUPPORT. Tests. Expected values are the vectors of spec/95_test_vectors.md (named T1, T2, ...) or are worked out by hand
from the spec's encodings. After the tests stand the witnesses: for every statement with hypotheses, one theorem that shows
a state and operands that meet all of them together. -/

namespace Sys2Proof.Tests

open Sys2Proof Sys2Proof.Machine

set_option Elab.async false

/-- A block whose row buffer holds `bytes` and whose `BITCNT` is `n`, otherwise as after reset. -/
def loaded (n : Nat) (bytes : List Byte) : State :=
  { State.reset with bitcnt := BitVec.ofNat 16 n, row := Memory.ofBytes bytes }

/-- The state after an instruction, the reset state where there is none. -/
def after (o : Host.Outcome State Fault Refusal) : State :=
  match o with
  | .next t => t
  | .fault _ => State.reset
  | .refused _ => State.reset

/-- The outcome, the variant and the frame's offset that an instruction ends with. -/
def told (o : Host.Outcome State Fault Refusal) : OutcomeCode × Option Variant × Nat :=
  ((after o).outcome, (after o).variant, (after o).bitoff.toNat)

/-- Some field registers after an instruction. -/
def fields (o : Host.Outcome State Fault Refusal) (fs : List Field) : List (Option Int) :=
  fs.map (after o).record.value

/-- The row of T20: a WH24 frame at bit 60. -/
def rowT20 : List Byte :=
  [0x55, 0x55, 0x55, 0x55, 0x5A, 0xA2, 0xDD, 0x42, 0x47, 0xE2, 0xD9, 0x0F, 0x13, 0xB2, 0x80, 0xC1, 0x00, 0x00, 0x3E, 0x80,
   0x02, 0x71, 0x0F, 0xAE, 0xB0]

/-- The row `R(frame, n)` of the vectors T30 to T48: 40 lead bits, the preamble, the frame, zeros. -/
def rowR (frame : List Byte) (n : Nat) : List Byte :=
  [0x55, 0x55, 0x55, 0x55, 0x55, 0xAA, 0x2D, 0xD4] ++ frame ++ List.replicate ((n + 7) / 8 - 16) 0

/-! ## WellFormed: one ill-formed instruction for each check -/

/-- A WH2-family frame for the tests below. -/
def wh2Sample : Wh2Frame := ⟨0x4, 0x31, 0x296, 0x00, 0x43⟩

/-- A type nibble with its top bit set cannot follow seven ones as `0xFE`. -/
theorem test_wf_wh2a : (Instr.wh2a ⟨0x8, 0x31, 0x296, 0x00, 0x43⟩ 0).wf = false := by decide

theorem test_wf_wh5 : (Instr.wh5 ⟨0xC, 0x31, 0x296, 0x00, 0x43⟩).wf = false := by decide

/-- The frame of F24 (spec/95_test_vectors.md section 5). -/
def wh24Sample : Wh24Frame := ⟨0x24, 0x7E, 0x12D, 0, 0x128, 0, 0x0F1, 0x3B, 0x0C, 0x10, 0x00, 0x03E8, 0x002710, 0xFA, 0xEB⟩

theorem test_wf_wh24 :
    (Instr.wh24 46 wh24Sample).wf = false ∧ (Instr.wh24 61 wh24Sample).wf = false ∧
    (Instr.wh24 60 wh24Sample).wf = true := by decide

theorem test_wf_wh65b :
    (Instr.wh65b 23 wh24Sample).wf = false ∧ (Instr.wh65b 80 wh24Sample).wf = false ∧
    (Instr.wh65b 79 wh24Sample).wf = true := by decide

/-- The frame of T30. -/
def wh25Sample : Wh25Frame := ⟨0x50, 0, 0, 0x272, 0x28, 0x2721, 0xC9, 0xBB⟩

theorem test_wf_wh25 :
    (Instr.wh25 23 wh25Sample).wf = false ∧ (Instr.wh25 447 wh25Sample).wf = false ∧
    (Instr.wh25 446 wh25Sample).wf = true := by decide

theorem test_wf_wh32b :
    (Instr.wh32b 23 wh25Sample).wf = false ∧ (Instr.wh32b 961 wh25Sample).wf = false ∧
    (Instr.wh32b 960 wh25Sample).wf = true := by decide

theorem test_wf_wh32 :
    (Instr.wh32 23 wh25Sample).wf = false ∧ (Instr.wh32 961 wh25Sample).wf = false ∧
    (Instr.wh32 960 wh25Sample).wf = true := by decide

/-- The frame of T36, family `0x42`: only a row below 160 bits reaches WH0290. -/
def wh0290Sample : Wh0290Frame := ⟨0x42, 0xCC, 1, 0x019A, 1, 0x01AE, 0xC1, 0x99⟩

theorem test_wf_wh0290 :
    (Instr.wh0290 23 wh0290Sample).wf = false ∧ (Instr.wh0290 96 wh0290Sample).wf = false ∧
    (Instr.wh0290 95 wh0290Sample).wf = true ∧
    (Instr.wh0290 960 { wh0290Sample with family := 0x41 }).wf = true := by decide

/-- The frame of T54. -/
def wh51Sample : Wh51Frame := ⟨0x000001, 0, 0x10, 0x00, 0x64, 0, 0x000, 0x0C, 0xD2⟩

theorem test_wf_wh51 :
    (Instr.wh51 23 wh51Sample).wf = false ∧ (Instr.wh51 937 wh51Sample).wf = false ∧
    (Instr.wh51 936 wh51Sample).wf = true := by decide

/-! ## Decode: every constructor from a word written out -/

/-- R60: the eight codes, the bits above `[2:0]` ignored. -/
theorem test_decode_commands :
    decodeCommand 0x00000000 = .decodeWh2 ∧ decodeCommand 0x00000001 = .decodeWh0530 ∧
    decodeCommand 0x00000002 = .decodeWh24 ∧ decodeCommand 0x00000003 = .decodeWh25 ∧
    decodeCommand 0xFFFFFFFC = .decodeWh51 ∧ decodeCommand 0x0000000D = .reserved5 ∧
    decodeCommand 0x80000006 = .reserved6 ∧ decodeCommand 0x00000007 = .reserved7 := by decide

/-- T1: `11111111 0100 00110001 001010010110 00000000 01000011`. -/
theorem test_decode_wh2 :
    decode (.row .wh2 48 [0xFF, 0x43, 0x12, 0x96, 0x00, 0x43]) = .ok (.wh2 wh2Sample) := by decide

/-- T4: frame `47 B1 05 40 76 00` after seven ones. -/
theorem test_decode_wh2a :
    decode (.row .wh2 55 [0xFE, 0x8F, 0x62, 0x0A, 0x80, 0xEC, 0x00]) =
      .ok (.wh2a ⟨0x4, 0x7B, 0x105, 0x40, 0x76⟩ 0x00) := by decide

/-- T5: frame `4C 32 A3 2D BB`. -/
theorem test_decode_wh5 :
    decode (.row .wh2 47 [0xFE, 0x98, 0x65, 0x46, 0x5B, 0x76]) = .ok (.wh5 ⟨0x4, 0xC3, 0x2A3, 0x2D, 0xBB⟩) := by decide

/-- T6: frame `49 90 EB 3C C2` after nine ones. -/
theorem test_decode_telldus :
    decode (.row .wh2 49 [0xFF, 0xA4, 0xC8, 0x75, 0x9E, 0x61, 0x00]) =
      .ok (.telldus ⟨0x4, 0x99, 0x0EB, 0x3C, 0xC2⟩) := by decide

/-- T11: frame `38 A2 8F 02 00 FF E7 51`. -/
theorem test_decode_wh0530 :
    decode (.row .wh0530 71 [0xFE, 0x71, 0x45, 0x1E, 0x04, 0x01, 0xFF, 0xCE, 0xA2]) =
      .ok (.wh0530 ⟨0x8A, 0, 0x28F, 0x02, 0x00⟩ 0xFF 0xE7 0x51) := by decide

/-- T12: frame `3C 5A 13 34 12 FF 56`. -/
theorem test_decode_alectoV1 :
    decode (.row .wh0530 63 [0xFE, 0x78, 0xB4, 0x26, 0x68, 0x25, 0xFE, 0xAC]) =
      .ok (.alectoV1 ⟨0xC5, 1, 0x213, 0x34, 0x12⟩ 0xFF 0x56) := by decide

/-- T13: frame `37 21 A5 10 00 FF 00 00 00 99 A5`. -/
theorem test_decode_alectoV2 :
    decode (.row .wh0530 95 [0xFE, 0x6E, 0x43, 0x4A, 0x20, 0x01, 0xFE, 0x00, 0x00, 0x01, 0x33, 0x4A]) =
      .ok (.alectoV2 ⟨0x72, 0, 0x1A5, 0x10, 0x00⟩ 0xFF000000 0x99 0xA5) := by decide

/-- T14: frame `52 7B 80 24 11 10 13 45 59 1C 5F`. -/
theorem test_decode_alectoV2Dcf :
    decode (.row .wh0530 95 [0xFE, 0xA4, 0xF7, 0x00, 0x48, 0x22, 0x20, 0x26, 0x8A, 0xB2, 0x38, 0xBE]) =
      .ok (.alectoV2Dcf ⟨0x7B, 1, 0, 0x24, 0x11, 0x10, 0x13, 0x45, 0x59, 0x1C, 0x5F⟩) := by decide

/-- T20: F24 at bit 60, slack 3. -/
theorem test_decode_wh24 : decode (.row .wh24 199 rowT20) = .ok (.wh24 60 wh24Sample) := by decide

/-- T22: the same frame with slack 8. -/
theorem test_decode_wh65b : decode (.row .wh24 204 (rowT20 ++ [0x00])) = .ok (.wh65b 60 wh24Sample) := by decide

/-- T30. -/
theorem test_decode_wh25 :
    decode (.row .wh25 460 (rowR [0xE5, 0x02, 0x72, 0x28, 0x27, 0x21, 0xC9, 0xBB] 460)) = .ok (.wh25 64 wh25Sample) := by
  decide

/-- T31. -/
theorem test_decode_wh32b :
    decode (.row .wh25 170 (rowR [0xE5, 0x02, 0x72, 0x28, 0x27, 0x21, 0xC9, 0xBB] 170)) = .ok (.wh32b 64 wh25Sample) := by
  decide

/-- T32. -/
theorem test_decode_wh32 :
    decode (.row .wh25 170 (rowR [0xD5, 0x0A, 0x72, 0x28, 0xFF, 0xFF, 0x77, 0x85] 170)) =
      .ok (.wh32 64 ⟨0x50, 1, 0, 0x272, 0x28, 0xFFFF, 0x77, 0x85⟩) := by decide

/-- T36. -/
theorem test_decode_wh0290 :
    decode (.row .wh25 140 (rowR [0x42, 0xCC, 0x41, 0x9A, 0x41, 0xAE, 0xC1, 0x99] 140)) = .ok (.wh0290 64 wh0290Sample) := by
  decide

/-- T54. -/
theorem test_decode_wh51 :
    decode (.row .wh51 112 [0xAA, 0x2D, 0xD4, 0x51, 0x00, 0x00, 0x01, 0x10, 0x00, 0x64, 0x00, 0x00, 0x0C, 0xD2]) =
      .ok (.wh51 24 wh51Sample) := by decide

/-- T38, T8, T7: rejected by the outcome's name. -/
theorem test_decode_rejects :
    decode (.row .wh25 170 (rowR [0x42, 0xCC, 0x41, 0x9A, 0x41, 0xAE, 0xC1, 0x99] 170)) = .error (.outcome .abortEarly) ∧
    decode (.row .wh2 48 [0xFE, 0x43, 0x12, 0x96, 0x00, 0x43]) = .error (.outcome .abortEarly) ∧
    decode (.row .wh2 50 [0xFF, 0x43, 0x12, 0x96, 0x00, 0x43, 0x00]) = .error (.outcome .abortLength) := by decide

/-! ## One step each -/

/-- T1 and T9: a sound row, then one flipped bit. -/
theorem test_decodeWh2 :
    told (exec .decodeWh2 (loaded 48 [0xFF, 0x43, 0x12, 0x96, 0x00, 0x43])) = (.ok, some .wh2, 8) ∧
    told (exec .decodeWh2 (loaded 48 [0xFF, 0x43, 0x12, 0x97, 0x00, 0x43])) = (.failIntegrity, none, 0) := by decide +kernel

/-- T7b and T62: an empty row and a row of the full buffer are legal operands. T61: one bit more is not. -/
theorem test_decodeWh2_lengths :
    told (exec .decodeWh2 (loaded 0 [])) = (.abortLength, none, 0) ∧
    told (exec .decodeWh2 (loaded 1024 [])) = (.abortLength, none, 0) ∧
    told (exec .decodeWh2 (loaded 1025 [])) = (.cmdIllegal, none, 0) := by decide +kernel

/-- T15, T16 and T19. -/
theorem test_decodeWh0530 :
    told (exec .decodeWh0530 (loaded 71 [0xFC, 0x71, 0x45, 0x1E, 0x04, 0x01, 0xFF, 0xCE, 0xA2])) =
      (.abortEarly, none, 0) ∧
    told (exec .decodeWh0530 (loaded 71 [0xFE, 0x91, 0x45, 0x1E, 0x04, 0x01, 0xFF, 0xCE, 0xA2])) =
      (.abortEarly, none, 0) ∧
    told (exec .decodeWh0530
      (loaded 95 [0xFE, 0xCE, 0x43, 0x4A, 0x20, 0x01, 0xFE, 0x00, 0x00, 0x01, 0x53, 0xCA])) = (.abortEarly, none, 0) := by
  decide +kernel

/-- T20 and T26. -/
theorem test_decodeWh24 :
    told (exec .decodeWh24 (loaded 199 rowT20)) = (.ok, some .wh24, 60) ∧
    told (exec .decodeWh24 (loaded 189 rowT20)) = (.abortLength, none, 0) := by decide +kernel

/-- T35, T39 and T47: the nibble, the delegation to `E_WH24`, the WH0290 route. -/
theorem test_decodeWh25 :
    told (exec .decodeWh25 (loaded 460 (rowR [0xD5, 0x0A, 0x72, 0x28, 0xFF, 0xFF, 0x77, 0x85] 460))) =
      (.abortEarly, none, 0) ∧
    told (exec .decodeWh25 (loaded 199 rowT20)) = (.ok, some .wh24, 60) ∧
    told (exec .decodeWh25 (loaded 159 (rowR [0xE5, 0x02, 0x72, 0x28, 0x27, 0x21, 0xC9, 0xBB] 159))) =
      (.failIntegrity, none, 0) := by decide +kernel

/-- T55: the first preamble is taken, the second never tried. T56. -/
theorem test_decodeWh51 :
    told (exec .decodeWh51 (loaded 136
      [0xAA, 0x2D, 0xD4, 0xAA, 0x2D, 0xD4, 0x51, 0x00, 0x00, 0x01, 0x10, 0x00, 0x64, 0x00, 0x00, 0x0C, 0xD2])) =
      (.abortEarly, none, 0) ∧
    told (exec .decodeWh51 (loaded 199 rowT20)) = (.abortEarly, none, 0) := by decide +kernel

/-- T60. -/
theorem test_reserved :
    told (exec .reserved5 State.reset) = (.cmdIllegal, none, 0) ∧
    told (exec .reserved6 State.reset) = (.cmdIllegal, none, 0) ∧
    told (exec .reserved7 State.reset) = (.cmdIllegal, none, 0) := by decide +kernel

/-- R212: a byte the host has not written is never taken as zero. -/
theorem test_unwritten :
    exec .decodeWh51 (loaded 112 [0xAA, 0x2D, 0xD4, 0x51]) = .refused (.unwrittenRow 4) := by rfl

/-- T1, T2 and T3. -/
theorem test_wh2 :
    fields (exec (.wh2 wh2Sample) State.reset) [.id, .temp, .hum, .batt] = [some 49, some 662, some 0, none] ∧
    fields (exec (.wh2 ⟨0x4, 0x5A, 0x80C, 0x37, 0x6D⟩) State.reset) [.id, .temp, .hum] =
      [some 90, some (-12), some 55] ∧
    fields (exec (.wh2 ⟨0x4, 0x5A, 0x0D7, 0xFF, 0x1F⟩) State.reset) [.id, .temp, .hum] =
      [some 90, some 215, none] := by decide +kernel

/-- T10 and T10b: the sanity constant, after the check. -/
theorem test_wh2_sanity :
    told (exec (.wh2 ⟨0x5, 0x31, 0x296, 0x00, 0x7B⟩) State.reset) = (.failSanity, none, 0) ∧
    told (exec (.wh2 ⟨0x5, 0x31, 0x296, 0x00, 0x00⟩) State.reset) = (.failIntegrity, none, 0) := by decide +kernel

/-- T4; the sixth byte is ignored. -/
theorem test_wh2a :
    fields (exec (.wh2a ⟨0x4, 0x7B, 0x105, 0x40, 0x76⟩ 0xAB) State.reset) [.id, .temp, .hum] =
      [some 123, some 261, some 64] := by decide +kernel

/-- T5 and T5b. -/
theorem test_wh5 :
    fields (exec (.wh5 ⟨0x4, 0xC3, 0x2A3, 0x2D, 0xBB⟩) State.reset) [.id, .temp, .hum] = [some 195, some 275, some 45] ∧
    fields (exec (.wh5 ⟨0x4, 0x00, 0x000, 0x00, 0xE0⟩) State.reset) [.id, .temp, .hum] = [some 0, some (-400), some 0] := by
  decide +kernel

/-- T6. -/
theorem test_telldus :
    fields (exec (.telldus ⟨0x4, 0x99, 0x0EB, 0x3C, 0xC2⟩) State.reset) [.id, .temp, .hum] =
      [some 153, some 235, some 60] := by decide +kernel

/-- T11 and T18: the sum trailer `52`. -/
theorem test_wh0530 :
    fields (exec (.wh0530 ⟨0x8A, 0, 0x28F, 0x02, 0x00⟩ 0xFF 0xE7 0x51) State.reset) [.id, .batt, .temp, .rain, .hum] =
      [some 138, some 1, some 255, some 600, none] ∧
    told (exec (.wh0530 ⟨0x8A, 0, 0x28F, 0x02, 0x00⟩ 0xFF 0xE7 0x52) State.reset) = (.failIntegrity, none, 0) := by decide +kernel

/-- T12. -/
theorem test_alectoV1 :
    fields (exec (.alectoV1 ⟨0xC5, 1, 0x213, 0x34, 0x12⟩ 0xFF 0x56) State.reset) [.id, .batt, .temp, .rain] =
      [some 197, some 0, some 131, some 1398000] := by decide +kernel

/-- T13. -/
theorem test_alectoV2 :
    fields (exec (.alectoV2 ⟨0x72, 0, 0x1A5, 0x10, 0x00⟩ 0xFF000000 0x99 0xA5) State.reset) [.id, .batt, .temp, .rain] =
      [some 114, some 1, some 21, some 4800] := by decide +kernel

/-- T14. -/
theorem test_alectoV2Dcf :
    fields (exec (.alectoV2Dcf ⟨0x7B, 1, 0, 0x24, 0x11, 0x10, 0x13, 0x45, 0x59, 0x1C, 0x5F⟩) State.reset)
      [.id, .batt, .rclk, .temp] = [some 123, some 0, some 0x241110134559, none] := by decide +kernel

/-- T20. -/
theorem test_wh24 :
    fields (exec (.wh24 60 wh24Sample) State.reset)
      [.id, .batt, .temp, .hum, .wdir, .wavg, .wmax, .rain, .uv, .uvi, .light, .press] =
      [some 126, some 1, some (-159), some 59, some 301, some 4144000, some 168000, some 4800, some 1000, some 2,
       some 10000, none] := by decide +kernel

/-- T23: every sentinel. -/
theorem test_wh24_sentinels :
    (after (exec (.wh24 60 ⟨0x24, 0x7E, 0x1FF, 0, 0x1FF, 0, 0x7FF, 0xFF, 0xFF, 0x00, 0x00, 0xFFFF, 0xFFFFFF, 0x3D, 0x6C⟩)
      State.reset)).record.present = 0x80203 := by decide +kernel

/-- T21. -/
theorem test_wh65b :
    fields (exec (.wh65b 61 wh24Sample) State.reset) [.wavg, .wmax, .rain] =
      [some 1887000, some 76500, some 4064] := by decide +kernel

/-- T30 and T34: the plain XOR in `f[7]`. -/
theorem test_wh25 :
    fields (exec (.wh25 64 wh25Sample) State.reset) [.id, .batt, .temp, .hum, .press] =
      [some 80, some 1, some 226, some 40, some 10017] ∧
    told (exec (.wh25 64 ⟨0x50, 0, 0, 0x273, 0x28, 0x2721, 0xCA, 0xBA⟩) State.reset) = (.failIntegrity, none, 0) := by decide +kernel

/-- T34c and T48. -/
theorem test_wh32b :
    fields (exec (.wh32b 64 ⟨0x50, 0, 0, 0x273, 0x28, 0x2721, 0xCA, 0xBA⟩) State.reset) [.temp, .press] =
      [some 227, some 10017] ∧
    fields (exec (.wh32b 64 ⟨0x50, 0, 0, 0x272, 0x28, 0xFFFF, 0x7F, 0xBB⟩) State.reset) [.temp, .press] =
      [some 226, none] := by decide +kernel

/-- T32. -/
theorem test_wh32 :
    fields (exec (.wh32 64 ⟨0x50, 1, 0, 0x272, 0x28, 0xFFFF, 0x77, 0x85⟩) State.reset) [.id, .batt, .temp, .hum, .press] =
      [some 80, some 0, some 226, some 40, none] := by decide +kernel

/-- T36. -/
theorem test_wh0290 :
    fields (exec (.wh0290 64 wh0290Sample) State.reset) [.id, .batt, .pm25, .pm10] =
      [some 204, some 1, some 410, some 430] := by decide +kernel

/-- T54 and S2. -/
theorem test_wh51 :
    fields (exec (.wh51 24 wh51Sample) State.reset) [.id, .batt, .battMv, .moist, .boost, .adRaw] =
      [some 1, some 900, some 1600, some 100, some 0, some 0] ∧
    fields (exec (.wh51 40 ⟨0xA1B2C3, 3, 4, 0x00, 0x32, 0, 0x17F, 0x6F, 0xEC⟩) State.reset)
      [.id, .batt, .battMv, .moist, .boost, .adRaw] =
      [some 10597059, some (-300), some 400, some 50, some 3, some 383] := by decide +kernel

/-! ## The functional units (spec/95_test_vectors.md sections 2.1 to 2.5) -/

theorem test_checks :
    crc8 fpl [0x31, 0x32, 0x33, 0x34, 0x35, 0x36, 0x37, 0x38, 0x39] = 0xA2 ∧ crc8 fpl [0x80] = 0x7A ∧
    sum8 [0x31, 0x32, 0x33, 0x34, 0x35, 0x36, 0x37, 0x38, 0x39] = 0xDD ∧
    xorSwap8 [0xE5, 0x02, 0x73, 0x28, 0x27, 0x21] = 0xAB := by decide +kernel

theorem test_preamble :
    locatePreamble fpl 25 (Memory.ofBytes [0x55, 0x16, 0xEA, 0x00]) = .ok (some 1) ∧
    locatePreamble fpl 24 (Memory.ofBytes [0x55, 0x16, 0xEA]) = .ok none ∧
    locatePreamble fpl 23 (Memory.ofBytes [0xAA, 0x2D, 0xD4]) = .ok none := by decide +kernel

theorem test_temperature :
    tempSignMag 12 0x800 = 0 ∧ tempSignMag 12 0xFFF = -2047 ∧ tempSignMag 12 0x7FF = 2047 ∧ tempOffset40 399 = -1 := by
  decide +kernel

theorem test_uvIndex :
    [0, 432, 433, 851, 852, 1000, 1210, 1211, 5029, 5030, 65534].map (uvIndex fpl.uviThresh) =
      [0, 0, 1, 1, 2, 2, 2, 3, 12, 13, 13] := by decide +kernel

/-- The two wind constants of spec/42_unpack_scale.md R121. -/
theorem test_windE5 : windE5 fpl .wh24 = 14000 ∧ windE5 fpl .wh65b = 6375 := by decide +kernel

/-! ## The host's accesses and the table words -/

/-- P1: the command write, then the read of STATUS. -/
theorem test_status :
    (after (Sys2Proof.core.run 2 { loaded 48 [0xFF, 0x43, 0x12, 0x96, 0x00, 0x43] with port := macroRun .wh2 })).rdata =
      0x00000202 := by decide +kernel

/-- P5: STATUS after reset, then after a reserved command. -/
theorem test_status_reset :
    (after (step { State.reset with port := [.read 0x008] })).rdata = 0x000001E0 ∧
    (after (Sys2Proof.core.run 2 { State.reset with port := [.write 0x000 7, .read 0x008] })).rdata = 0x000001F6 := by decide +kernel

/-- P2: the macro TRY, DECODE.WH2 and then DECODE.WH0530. -/
theorem test_try :
    (after (macroTry [.wh2, .wh0530, .wh51] (loaded 71 [0xFE, 0x71, 0x45, 0x1E, 0x04, 0x01, 0xFF, 0xCE, 0xA2]))).rdata =
      0x00000282 := by decide +kernel

/-- P3: a negative field register is sign extended. -/
theorem test_field_read :
    (after (step { after (exec (.wh24 60 wh24Sample) State.reset) with port := [.read 0x024] })).rdata = 0xFFFFFF61 := by
  decide +kernel

/-- R116 at another bucket size (spec/92_eei_decisions.md "Open parameters"): 16 tips of 0.254 mm. -/
theorem test_execWith :
    fields (execWith (configOf { defaultParams with rainMilliWh24 := 254 }) (.wh24 60 wh24Sample) State.reset) [.rain] =
      [some 4064] := by decide +kernel

/-- Words as spec/opcode_table.json numbers their bits: a command, T1's row, T54's and T30's frames. -/
theorem test_table_words :
    decodeTableWord 32 4 = some .decodeWh51 ∧ decodeTableWord 48 0x4300961243FF = some (.wh2 wh2Sample) ∧
    decodeTableWord 88 0xD20C0000640010010000_51 = some (.wh51 24 wh51Sample) ∧
    decodeTableWord 64 0xBBC92127287202E5 = some (.wh25 24 wh25Sample) := by decide +kernel

/-- The very next step runs the word placed. -/
theorem test_withFetchWord :
    (match step (State.reset.withFetchWord 88 0xD20C000064001001000051) with
      | .next t => decide ((t.outcome, t.variant, t.bitoff.toNat) = (OutcomeCode.ok, some Variant.wh51, 24))
      | _ => false) = true ∧
    (match step (State.reset.withFetchWord 32 6) with
      | .next t => decide (t.outcome = .cmdIllegal)
      | _ => false) = true := by decide +kernel

/-! ## Witnesses: for each statement with hypotheses, a state and operands that meet them -/

/-- Fifteen row instructions with sound checks and constants, one per variant, from the vectors. -/
def soundRows : List Instr :=
  [.wh2 wh2Sample, .wh2a ⟨0x4, 0x7B, 0x105, 0x40, 0x76⟩ 0x00, .wh5 ⟨0x4, 0xC3, 0x2A3, 0x2D, 0xBB⟩,
   .telldus ⟨0x4, 0x99, 0x0EB, 0x3C, 0xC2⟩, .wh0530 ⟨0x8A, 0, 0x28F, 0x02, 0x00⟩ 0xFF 0xE7 0x51,
   .alectoV1 ⟨0xC5, 1, 0x213, 0x34, 0x12⟩ 0xFF 0x56, .alectoV2 ⟨0x72, 0, 0x1A5, 0x10, 0x00⟩ 0xFF000000 0x99 0xA5,
   .alectoV2Dcf ⟨0x7B, 1, 0, 0x24, 0x11, 0x10, 0x13, 0x45, 0x59, 0x1C, 0x5F⟩, .wh24 60 wh24Sample, .wh65b 79 wh24Sample,
   .wh25 446 wh25Sample, .wh32b 960 wh25Sample, .wh32 24 ⟨0x50, 1, 0, 0x272, 0x28, 0xFFFF, 0x77, 0x85⟩,
   .wh0290 95 wh0290Sample, .wh51 936 wh51Sample]

theorem witness_soundRows : ∀ i ∈ soundRows,
    i.wf = true ∧ (locatedOf i).isSome = true ∧ checksHold i = true ∧ constantsHold i = true := by decide +kernel

theorem witness_CommandWordSelectsByItsLowThreeBits :
    (0xFFFFFFF8 : Word).toNat % 8 = 0 ∧ (0x00000009 : Word).toNat % 8 = 1 ∧ (2 : Word).toNat % 8 = 2 ∧
    (3 : Word).toNat % 8 = 3 ∧ (4 : Word).toNat % 8 = 4 ∧ (5 : Word).toNat % 8 = 5 ∧ (6 : Word).toNat % 8 = 6 ∧
    (0xFFFFFFFF : Word).toNat % 8 = 7 := by decide

theorem witness_DecodeReadsBackEveryEncoding :
    (Instr.wh24 47 wh24Sample).wf = true ∧ (Instr.wh65b 24 wh24Sample).wf = true ∧ Instr.reserved7.wf = true := by decide

theorem witness_StepRunsTheWrittenCommand :
    ({ State.reset with port := [.write 0x000 0xFFFFFFF8, .reset] } : State).port = .write 0x000 0xFFFFFFF8 :: [.reset] ∧
    ({ State.reset with port := [.write 0x000 0xFFFFFFF8, .reset] } : State).phase ≠ .busy := by decide

/-- One row for each command, one of them with a wrong sanity constant. -/
theorem witness_CommandRunsTheRowInstruction :
    decodeRow .wh2 (loaded 48 [0xFF, 0x53, 0x12, 0x96, 0x00, 0x7B]).bitcnt.toNat
      (loaded 48 [0xFF, 0x53, 0x12, 0x96, 0x00, 0x7B]).row = .ok (.wh2 ⟨0x5, 0x31, 0x296, 0x00, 0x7B⟩) ∧
    decodeRow .wh0530 (loaded 63 [0xFE, 0x78, 0xB4, 0x26, 0x68, 0x25, 0xFE, 0xAC]).bitcnt.toNat
      (loaded 63 [0xFE, 0x78, 0xB4, 0x26, 0x68, 0x25, 0xFE, 0xAC]).row =
      .ok (.alectoV1 ⟨0xC5, 1, 0x213, 0x34, 0x12⟩ 0xFF 0x56) ∧
    decodeRow .wh24 (loaded 199 rowT20).bitcnt.toNat (loaded 199 rowT20).row = .ok (.wh24 60 wh24Sample) ∧
    decodeRow .wh25 (loaded 199 rowT20).bitcnt.toNat (loaded 199 rowT20).row = .ok (.wh24 60 wh24Sample) ∧
    decodeRow .wh51
      (loaded 112 [0xAA, 0x2D, 0xD4, 0x51, 0x00, 0x00, 0x01, 0x10, 0x00, 0x64, 0x00, 0x00, 0x0C, 0xD2]).bitcnt.toNat
      (loaded 112 [0xAA, 0x2D, 0xD4, 0x51, 0x00, 0x00, 0x01, 0x10, 0x00, 0x64, 0x00, 0x00, 0x0C, 0xD2]).row =
      .ok (.wh51 24 wh51Sample) := by decide +kernel

/-- A sound row of each of the five entry points, loaded. -/
theorem witness_CommandCompletesOnASoundRow :
    ∀ p ∈ ([(.wh2 wh2Sample, .wh2), (.wh0530 ⟨0x8A, 0, 0x28F, 0x02, 0x00⟩ 0xFF 0xE7 0x51, .wh0530),
        (.wh24 60 wh24Sample, .wh24), (.wh25 64 wh25Sample, .wh25), (.wh51 24 wh51Sample, .wh51)] : List (Instr × Entry)),
      p.1.wf = true ∧ (locatedOf p.1).isSome = true ∧ checksHold p.1 = true ∧ constantsHold p.1 = true ∧
      (match encode p.1 with
        | .row e n bytes =>
          decide (e = p.2 ∧ (loaded n bytes).bitcnt.toNat = n ∧ (loaded n bytes).row = Memory.ofBytes bytes)
        | .command _ => false) = true := by decide +kernel

/-- The greatest legal `BITCNT`, all 128 bytes written. -/
theorem witness_CommandsCompleteOnWrittenRows :
    (loaded 1024 (List.replicate 128 0xAA)).bitcnt.toNat ≤ 1024 ∧
    ∀ k, 8 * k < (loaded 1024 (List.replicate 128 0xAA)).bitcnt.toNat →
      (Memory.read (loaded 1024 (List.replicate 128 0xAA)).row k).isSome = true := by
  refine ⟨by decide, fun k hk => ?_⟩
  have hk' : k < 128 := by
    have : (loaded 1024 (List.replicate 128 0xAA)).bitcnt.toNat = 1024 := by decide
    omega
  rw [show (loaded 1024 (List.replicate 128 0xAA)).row = Memory.ofBytes (List.replicate 128 0xAA) from rfl,
    Memory.read_ofBytes]
  simp [hk']

/-- A successful and a failing instruction: the hypotheses of `NoInstructionWritesAnInput`, `FailureClearsEveryOutput`,
`ASecondCommandReplacesAllOutputs` and `FieldValuesStayInRange`. -/
theorem witness_exec_answers :
    (∃ t, exec (.wh2 wh2Sample) State.reset = .next t ∧ t.outcome = .ok ∧ t.record.value .temp = some 662 ∧
      ∃ u, exec .reserved5 t = .next u ∧ u.outcome ≠ .ok) := by
  exact ⟨_, rfl, by decide +kernel, by decide +kernel, _, rfl, by decide +kernel⟩

/-- Two states with one row and different outputs. -/
theorem witness_ResultDependsOnTheInputsOnly :
    (after (exec .reserved5 State.reset)).bitcnt = State.reset.bitcnt ∧
    (after (exec .reserved5 State.reset)).row = State.reset.row ∧
    (after (exec .reserved5 State.reset)).phase ≠ State.reset.phase ∧
    ∃ t, exec .decodeWh2 State.reset = .next t := by
  exact ⟨by decide, by decide, by decide, _, rfl⟩

/-- Two rows of 47 bits that differ in the 48th bit and in a byte beyond. -/
theorem witness_BitsBeyondTheRowNeverMatter :
    (∀ j < (loaded 47 [0xFE, 0x98, 0x65, 0x46, 0x5B, 0x76]).bitcnt.toNat,
      rowBit (Memory.ofBytes [0xFE, 0x98, 0x65, 0x46, 0x5B, 0x77, 0xFF]) j =
        rowBit (loaded 47 [0xFE, 0x98, 0x65, 0x46, 0x5B, 0x76]).row j) ∧
    (∃ t, exec .decodeWh2 (loaded 47 [0xFE, 0x98, 0x65, 0x46, 0x5B, 0x76]) = .next t) ∧
    exec .decodeWh51 (loaded 112 []) = .refused (.unwrittenRow 0) := by
  exact ⟨by decide, ⟨_, rfl⟩, rfl⟩

/-- `ROW[0]` unwritten at every length the clauses name, at their edges; and one refused instruction. -/
theorem witness_UnwrittenFirstByteIsRefused :
    (∀ n ∈ [47, 48, 49, 55, 63, 71, 95, 190, 215, 24, 440, 1024], Memory.read (loaded n []).row 0 = none ∧
      (loaded n []).bitcnt.toNat = n) ∧
    exec .decodeWh24 (loaded 190 []) = .refused (.unwrittenRow 0) := ⟨by decide, rfl⟩

theorem witness_IllegalCommandsAndOperands :
    1024 < (loaded 1025 []).bitcnt.toNat ∧
    ∃ t, exec (commandOf .wh51) (loaded 1025 []) = .next t ∧ t.outcome = .cmdIllegal := by
  exact ⟨by decide, _, rfl, by decide⟩

/-- The hypotheses of the eight clauses of `Wh2CommandFollowsItsTree`. -/
theorem witness_Wh2CommandFollowsItsTree :
    (∃ (s : State) (f : List Byte), s.bitcnt.toNat = 48 ∧ rowRead s.row 0 8 = .ok 0xFF ∧ rowFrame s.row 8 5 = .ok f) ∧
    (∃ (s : State) (f : List Byte), s.bitcnt.toNat = 55 ∧ rowRead s.row 0 8 = .ok 0xFE ∧ rowFrame s.row 7 6 = .ok f) ∧
    (∃ (s : State) (f : List Byte), s.bitcnt.toNat = 47 ∧ rowRead s.row 0 8 = .ok 0xFE ∧ rowFrame s.row 7 5 = .ok f) ∧
    (∃ (s : State) (f : List Byte), s.bitcnt.toNat = 49 ∧ rowRead s.row 0 8 = .ok 0xFF ∧ rowRead s.row 8 1 = .ok 1 ∧
      rowFrame s.row 9 5 = .ok f) ∧
    (∃ s : State, ∃ h, s.bitcnt.toNat ∈ [48, 49] ∧ rowRead s.row 0 8 = .ok h ∧ h ≠ 0xFF) ∧
    (∃ s : State, ∃ h, s.bitcnt.toNat ∈ [47, 55] ∧ rowRead s.row 0 8 = .ok h ∧ h ≠ 0xFE) ∧
    (∃ s : State, ∃ h, s.bitcnt.toNat = 49 ∧ rowRead s.row 0 8 = .ok 0xFF ∧ rowRead s.row 8 1 = .ok h ∧ h ≠ 1) ∧
    (∃ s : State, s.bitcnt.toNat ≤ 1024 ∧ s.bitcnt.toNat ∉ [47, 48, 49, 55]) := by
  refine ⟨⟨loaded 48 [0xFF, 0x43, 0x12, 0x96, 0x00, 0x43], [0x43, 0x12, 0x96, 0x00, 0x43], by decide⟩,
    ⟨loaded 55 [0xFE, 0x8F, 0x62, 0x0A, 0x80, 0xEC, 0x00], [0x47, 0xB1, 0x05, 0x40, 0x76, 0x00], by decide⟩,
    ⟨loaded 47 [0xFE, 0x98, 0x65, 0x46, 0x5B, 0x76], [0x4C, 0x32, 0xA3, 0x2D, 0xBB], by decide⟩,
    ⟨loaded 49 [0xFF, 0xA4, 0xC8, 0x75, 0x9E, 0x61, 0x00], [0x49, 0x90, 0xEB, 0x3C, 0xC2], by decide⟩,
    ⟨loaded 49 [0xFE], 0xFE, by decide⟩, ⟨loaded 47 [0xFF], 0xFF, by decide⟩, ⟨loaded 49 [0xFF, 0x24], 0, by decide⟩,
    ⟨loaded 1024 [], by decide⟩⟩

/-- The hypotheses of the eight clauses of `Wh0530CommandFollowsItsTree`. -/
theorem witness_Wh0530CommandFollowsItsTree :
    (∃ (s : State) (f : List Byte), s.bitcnt.toNat = 71 ∧ rowRead s.row 0 7 = .ok 0x7F ∧ rowRead s.row 7 4 = .ok 0x3 ∧
      rowFrame s.row 7 8 = .ok f) ∧
    (∃ (s : State) (f : List Byte), s.bitcnt.toNat = 63 ∧ rowRead s.row 0 7 = .ok 0x7F ∧ rowRead s.row 7 4 = .ok 0x3 ∧
      rowFrame s.row 7 7 = .ok f) ∧
    (∃ (s : State) (f : List Byte), s.bitcnt.toNat = 95 ∧ rowRead s.row 0 7 = .ok 0x7F ∧ rowRead s.row 7 8 = .ok 0x52 ∧
      rowFrame s.row 7 11 = .ok f) ∧
    (∃ (s : State) (f : List Byte), s.bitcnt.toNat = 95 ∧ rowRead s.row 0 7 = .ok 0x7F ∧ rowRead s.row 7 4 = .ok 0x3 ∧
      rowFrame s.row 7 11 = .ok f) ∧
    (∃ s : State, ∃ h, s.bitcnt.toNat ∈ [63, 71, 95] ∧ rowRead s.row 0 7 = .ok h ∧ h ≠ 0x7F) ∧
    (∃ s : State, ∃ h, s.bitcnt.toNat ∈ [63, 71] ∧ rowRead s.row 0 7 = .ok 0x7F ∧ rowRead s.row 7 4 = .ok h ∧ h ≠ 0x3) ∧
    (∃ s : State, ∃ h g, s.bitcnt.toNat = 95 ∧ rowRead s.row 0 7 = .ok 0x7F ∧ rowRead s.row 7 8 = .ok h ∧ h ≠ 0x52 ∧
      rowRead s.row 7 4 = .ok g ∧ g ≠ 0x3) ∧
    (∃ s : State, s.bitcnt.toNat ≤ 1024 ∧ s.bitcnt.toNat ∉ [63, 71, 95]) := by
  refine ⟨⟨loaded 71 [0xFE, 0x71, 0x45, 0x1E, 0x04, 0x01, 0xFF, 0xCE, 0xA2],
      [0x38, 0xA2, 0x8F, 0x02, 0x00, 0xFF, 0xE7, 0x51], by decide⟩,
    ⟨loaded 63 [0xFE, 0x78, 0xB4, 0x26, 0x68, 0x25, 0xFE, 0xAC], [0x3C, 0x5A, 0x13, 0x34, 0x12, 0xFF, 0x56], by decide⟩,
    ⟨loaded 95 [0xFE, 0xA4, 0xF7, 0x00, 0x48, 0x22, 0x20, 0x26, 0x8A, 0xB2, 0x38, 0xBE],
      [0x52, 0x7B, 0x80, 0x24, 0x11, 0x10, 0x13, 0x45, 0x59, 0x1C, 0x5F], by decide⟩,
    ⟨loaded 95 [0xFE, 0x6E, 0x43, 0x4A, 0x20, 0x01, 0xFE, 0x00, 0x00, 0x01, 0x33, 0x4A],
      [0x37, 0x21, 0xA5, 0x10, 0x00, 0xFF, 0x00, 0x00, 0x00, 0x99, 0xA5], by decide⟩,
    ⟨loaded 95 [0xFC, 0x71], 0x7E, by decide⟩, ⟨loaded 63 [0xFE, 0x91], 0x4, by decide⟩,
    ⟨loaded 95 [0xFE, 0xCE], 0x67, 0x6, by decide⟩, ⟨loaded 72 [], by decide⟩⟩

/-- An FSK-family row whose frame `f` stands at bit `off`, in a row of `n` bits. -/
def fskRow (n off : Nat) (f : List Byte) : State := loaded n (packBits (fskRowBits n off f))

/-- What the statements about the preamble ask of such a row: it is there, first, and the frame after it is readable. -/
theorem fskRow_meets (n p : Nat) (f : List Byte) (h : p + 24 + 8 * f.length ≤ n) (hn : n ≤ 1024) :
    (fskRow n (p + 24) f).bitcnt.toNat = n ∧ FirstPreamble fpl (fskRow n (p + 24) f).bitcnt.toNat (fskRow n (p + 24) f).row p ∧
    rowFrame (fskRow n (p + 24) f).row (p + 24) f.length = .ok f := by
  have hb : (fskRow n (p + 24) f).bitcnt.toNat = n := by
    show (BitVec.ofNat 16 n).toNat = n
    rw [BitVec.toNat_ofNat]
    omega
  refine ⟨hb, ?_, fskRow_frame n (p + 24) f (by omega) h⟩
  rw [hb]
  exact fskRow_firstPreamble n (p + 24) f (by omega) h

/-- A row of zeros. -/
def zeroRow (n : Nat) : State := loaded n (packBits (List.replicate n false))

/-- It meets `NoPreamble`. -/
theorem zeroRow_meets (n : Nat) (hn : n ≤ 1024) :
    (zeroRow n).bitcnt.toNat = n ∧ NoPreamble fpl (zeroRow n).bitcnt.toNat (zeroRow n).row := by
  have hb : (zeroRow n).bitcnt.toNat = n := by
    show (BitVec.ofNat 16 n).toNat = n
    rw [BitVec.toNat_ofNat]
    omega
  refine ⟨hb, ?_⟩
  rw [hb]
  exact zeroRow_noPreamble n

/-- The hypotheses of `Wh24CommandFollowsItsTree`: WH24 at offset 60 with slack 7; WH65B at offset 61, and at offset 60
with slack 8; the frame one bit short; no preamble in 190 bits; 189 and 216 bits. -/
theorem witness_Wh24CommandFollowsItsTree :
    ((fskRow 203 60 (wh24Bytes wh24Sample)).bitcnt.toNat = 203 ∧
      FirstPreamble fpl (fskRow 203 60 (wh24Bytes wh24Sample)).bitcnt.toNat (fskRow 203 60 (wh24Bytes wh24Sample)).row 36 ∧
      rowFrame (fskRow 203 60 (wh24Bytes wh24Sample)).row (36 + 24) 17 = .ok (wh24Bytes wh24Sample)) ∧
    ((fskRow 197 61 (wh24Bytes wh24Sample)).bitcnt.toNat = 197 ∧
      FirstPreamble fpl (fskRow 197 61 (wh24Bytes wh24Sample)).bitcnt.toNat (fskRow 197 61 (wh24Bytes wh24Sample)).row 37 ∧
      rowFrame (fskRow 197 61 (wh24Bytes wh24Sample)).row (37 + 24) 17 = .ok (wh24Bytes wh24Sample)) ∧
    ((fskRow 204 60 (wh24Bytes wh24Sample)).bitcnt.toNat = 204 ∧
      FirstPreamble fpl (fskRow 204 60 (wh24Bytes wh24Sample)).bitcnt.toNat (fskRow 204 60 (wh24Bytes wh24Sample)).row 36 ∧
      rowFrame (fskRow 204 60 (wh24Bytes wh24Sample)).row (36 + 24) 17 = .ok (wh24Bytes wh24Sample)) ∧
    ((fskRow 200 65 (List.replicate 16 0)).bitcnt.toNat = 200 ∧
      FirstPreamble fpl (fskRow 200 65 (List.replicate 16 0)).bitcnt.toNat (fskRow 200 65 (List.replicate 16 0)).row 41 ∧
      200 < 41 + 24 + 136) ∧
    ((zeroRow 190).bitcnt.toNat = 190 ∧ NoPreamble fpl (zeroRow 190).bitcnt.toNat (zeroRow 190).row) ∧
    (loaded 189 []).bitcnt.toNat < 190 ∧ 215 < (loaded 216 []).bitcnt.toNat :=
  ⟨fskRow_meets 203 36 _ (by decide) (by decide), fskRow_meets 197 37 _ (by decide) (by decide),
    fskRow_meets 204 36 _ (by decide) (by decide),
    ⟨(fskRow_meets 200 41 (List.replicate 16 0) (by decide) (by decide)).1,
      (fskRow_meets 200 41 (List.replicate 16 0) (by decide) (by decide)).2.1, by decide⟩,
    zeroRow_meets 190 (by decide), by decide, by decide⟩

/-- The hypotheses of `Wh25CommandFollowsItsTree` at the edges of the length ranges: each of the frames below, at bit 24
and at the last bit it fits, meets the preamble and frame hypotheses in rows of 159, 160, 189, 440, 510, 511 and 1024
bits; the first bytes select each clause; a row one bit short; rows without a preamble; 190 and 439 bits. -/
theorem witness_Wh25CommandFollowsItsTree :
    (∀ n ∈ [159, 160, 189, 440, 510, 511, 1024], ∀ p ∈ [0, n - 88], ∀ b ∈ ([0xD5, 0xE5, 0x41, 0x42] : List Byte),
      (fskRow n (p + 24) (b :: List.replicate 7 0)).bitcnt.toNat = n ∧
      FirstPreamble fpl (fskRow n (p + 24) (b :: List.replicate 7 0)).bitcnt.toNat
        (fskRow n (p + 24) (b :: List.replicate 7 0)).row p ∧
      rowFrame (fskRow n (p + 24) (b :: List.replicate 7 0)).row (p + 24) 8 = .ok (b :: List.replicate 7 0)) ∧
    ((0xD5 : Byte).toNat / 16 = 0xD ∧ (0xE5 : Byte).toNat / 16 = 0xE ∧ (0x42 : Byte).toNat / 16 ≠ 0xD ∧
      (0x42 : Byte).toNat / 16 ≠ 0xE ∧ (0x42 : Byte) ≠ 0x41 ∧ (0xD5 : Byte).toNat / 16 ≠ 0xE ∧ (0xD5 : Byte) ≠ 0x41) ∧
    ((fskRow 189 102 (List.replicate 10 0)).bitcnt.toNat = 189 ∧
      FirstPreamble fpl (fskRow 189 102 (List.replicate 10 0)).bitcnt.toNat (fskRow 189 102 (List.replicate 10 0)).row 78) ∧
    ((fskRow 111 48 (List.replicate 7 0)).bitcnt.toNat = 111 ∧
      FirstPreamble fpl (fskRow 111 48 (List.replicate 7 0)).bitcnt.toNat (fskRow 111 48 (List.replicate 7 0)).row 24 ∧
      111 < 24 + 24 + 64) ∧
    (∀ n ∈ [0, 159, 189, 440, 1024], (zeroRow n).bitcnt.toNat = n ∧
      NoPreamble fpl (zeroRow n).bitcnt.toNat (zeroRow n).row) ∧
    (loaded 190 []).bitcnt.toNat = 190 ∧ (loaded 439 []).bitcnt.toNat = 439 := by
  refine ⟨?_, by decide, ?_, ?_, ?_, by decide, by decide⟩
  · intro n hn p hp b _
    refine fskRow_meets n p (b :: List.replicate 7 0) ?_ ?_ <;> simp at hn hp ⊢ <;> omega
  · exact ⟨(fskRow_meets 189 78 (List.replicate 10 0) (by decide) (by decide)).1,
      (fskRow_meets 189 78 (List.replicate 10 0) (by decide) (by decide)).2.1⟩
  · exact ⟨(fskRow_meets 111 24 (List.replicate 7 0) (by decide) (by decide)).1,
      (fskRow_meets 111 24 (List.replicate 7 0) (by decide) (by decide)).2.1, by decide⟩
  · intro n hn
    exact zeroRow_meets n (by simp at hn; omega)

/-- The hypotheses of `Wh51CommandFollowsItsTree`: a frame that ends with a row of 1024 bits, one with another first byte,
one bit too few, no preamble. -/
theorem witness_Wh51CommandFollowsItsTree :
    (∀ b ∈ ([0x51, 0x52] : List Byte), (fskRow 1024 936 (b :: List.replicate 10 0)).bitcnt.toNat = 1024 ∧
      FirstPreamble fpl (fskRow 1024 936 (b :: List.replicate 10 0)).bitcnt.toNat
        (fskRow 1024 936 (b :: List.replicate 10 0)).row 912 ∧
      rowFrame (fskRow 1024 936 (b :: List.replicate 10 0)).row (912 + 24) 11 = .ok (b :: List.replicate 10 0)) ∧
    ((fskRow 111 24 (List.replicate 10 0)).bitcnt.toNat = 111 ∧
      FirstPreamble fpl (fskRow 111 24 (List.replicate 10 0)).bitcnt.toNat (fskRow 111 24 (List.replicate 10 0)).row 0 ∧
      111 < 0 + 24 + 88) ∧
    ((zeroRow 1024).bitcnt.toNat = 1024 ∧ NoPreamble fpl (zeroRow 1024).bitcnt.toNat (zeroRow 1024).row) :=
  ⟨fun b _ => fskRow_meets 1024 912 (b :: List.replicate 10 0) (by simp) (by decide),
    ⟨(fskRow_meets 111 0 (List.replicate 10 0) (by decide) (by decide)).1,
      (fskRow_meets 111 0 (List.replicate 10 0) (by decide) (by decide)).2.1, by decide⟩,
    zeroRow_meets 1024 (by decide)⟩

/-- The three verdicts of `RowInstructionsReportTheirVerdict`. -/
theorem witness_RowInstructionsReportTheirVerdict :
    (locatedOf (.wh2 wh2Sample)).isSome = true ∧ checksHold (.wh2 { wh2Sample with crc := 0x44 }) = false ∧
    (checksHold (.wh2 ⟨0x5, 0x31, 0x296, 0x00, 0x7B⟩) = true ∧
      constantsHold (.wh2 ⟨0x5, 0x31, 0x296, 0x00, 0x7B⟩) = false) ∧
    checksHold (.wh2 wh2Sample) = true ∧ constantsHold (.wh2 wh2Sample) = true := by decide +kernel

/-- The hypotheses of the record statements at the sentinels: `HUM = 0xFF`, minus zero, every WH24 sentinel, `PRESS16 =
0xFFFF`; the ordinary values are `witness_soundRows`. -/
theorem witness_records_at_sentinels :
    (checksHold (.wh2 ⟨0x4, 0x5A, 0x0D7, 0xFF, 0x1F⟩) = true ∧ constantsHold (.wh2 ⟨0x4, 0x5A, 0x0D7, 0xFF, 0x1F⟩) = true) ∧
    (checksHold (.wh2 ⟨0x4, 0x5A, 0x800, 0x37, 0xD9⟩) = true) ∧
    (checksHold (.wh24 60 ⟨0x24, 0x7E, 0x1FF, 0, 0x1FF, 0, 0x7FF, 0xFF, 0xFF, 0x00, 0x00, 0xFFFF, 0xFFFFFF, 0x3D, 0x6C⟩) =
      true ∧
      constantsHold (.wh65b 61
        ⟨0x24, 0x7E, 0x1FF, 0, 0x1FF, 0, 0x7FF, 0xFF, 0xFF, 0x00, 0x00, 0xFFFF, 0xFFFFFF, 0x3D, 0x6C⟩) = true) ∧
    checksHold (.wh32b 64 ⟨0x50, 0, 0, 0x272, 0x28, 0xFFFF, 0x7F, 0xBB⟩) = true := by decide +kernel

/-- T1's frame and its frame with the last bit before the trailer flipped. -/
theorem witness_SingleBitFlipFailsIntegrity :
    ∃ l l' : Located, locatedOf (.wh2 wh2Sample) = some l ∧ locatedOf (.wh2 { wh2Sample with hum := 0x01 }) = some l' ∧
      l'.variant = l.variant ∧ 3 < nonTrailer l.variant ∧ l'.frame = flipBit l.frame 3 0 ∧
      ∃ t, exec (.wh2 wh2Sample) State.reset = .next t ∧ t.outcome = .ok := by
  exact ⟨_, _, rfl, rfl, by decide, by decide, by decide, _, rfl, by decide +kernel⟩

/-- T11's, F24's, T30's and T54's frames, each with one bit of its first covered bytes flipped: the flip is one bit of
the frame, the first frame ends with `OK`. -/
theorem witness_SingleBitFlipFailsIntegrity_families :
    ∀ p ∈ ([(.wh0530 ⟨0x8A, 0, 0x28F, 0x02, 0x00⟩ 0xFF 0xE7 0x51, .wh0530 ⟨0x8A, 0, 0x28F, 0x02, 0x00⟩ 0x7F 0xE7 0x51, 5, 7),
        (.wh24 60 wh24Sample, .wh24 60 { wh24Sample with family := 0x25 }, 0, 0),
        (.wh25 64 wh25Sample, .wh25 64 { wh25Sample with press16 := 0x2720 }, 5, 0),
        (.wh51 24 wh51Sample, .wh51 24 { wh51Sample with moist := 0xE4 }, 6, 7)] : List (Instr × Instr × Nat × Nat)),
      (match locatedOf p.1, locatedOf p.2.1 with
        | some l, some l' =>
          decide (l'.variant = l.variant ∧ p.2.2.1 < nonTrailer l.variant ∧ p.2.2.2 < 8 ∧
            l'.frame = flipBit l.frame p.2.2.1 p.2.2.2)
        | _, _ => false) = true ∧ (after (exec p.1 State.reset)).outcome = .ok := by decide +kernel

/-- Two messages of one length, and the last bit of one of them. -/
theorem witness_CrcDivisionLaws :
    ([0x43, 0x12] : List Byte).length = ([0x96, 0x00] : List Byte).length ∧ 1 < ([0x43, 0x12] : List Byte).length ∧
    7 < 8 := by decide

theorem witness_UvIndexCountsThresholds : fpl.uviThresh.Pairwise (· < ·) ∧ 0 < fpl.uviThresh.length := by decide

/-- A frame byte at a byte boundary and one bit before the next, both bytes written. -/
theorem witness_FrameByteStraddlesTwoRowBytes :
    (8 % 8 = 0 ∧ Memory.read (Memory.ofBytes [0xFF, 0x43, 0x12]) (8 / 8) = some 0x43) ∧
    (15 % 8 ≠ 0 ∧ Memory.read (Memory.ofBytes [0xFF, 0x43, 0x12]) (15 / 8) = some 0x43 ∧
      Memory.read (Memory.ofBytes [0xFF, 0x43, 0x12]) (15 / 8 + 1) = some 0x12) := by decide

/-- A busy block, which only a state no run reaches is, with the host's next access: reset, a write, a read. -/
theorem witness_BusyAccessesAreRefused :
    ({ State.reset with phase := .busy, port := [.write 0x100 0] } : State).port = .write 0x100 0 :: [] ∧
    ({ State.reset with phase := .busy, port := [.read 0x00C] } : State).port = .read 0x00C :: [] ∧
    ({ State.reset with phase := .busy, port := [.reset] } : State).port = .reset :: [] := by decide

/-- The reset state is coherent and steps; so does a command on it, and a write of `ROW`: the hypotheses of
`StepKeepsTheStateCoherent` and of `EachRegisterChangesOnlyByItsOwnAccesses`. -/
theorem witness_StepKeepsTheStateCoherent :
    StateOk { State.reset with port := [.write 0x17F 0xAB] } ∧
    ∃ t, step { State.reset with port := [.write 0x17F 0xAB] } = .next t := by
  refine ⟨⟨⟨rfl, by simp [State.reset]⟩, .inl ⟨rfl, rfl, rfl, rfl, rfl, rfl, rfl, rfl⟩⟩, ?_⟩
  rw [step_write _ 0x17F 0xAB [] rfl (by decide)]
  unfold hostWrite
  rw [show regAt fpl 0x17F = .row 127 from regAt_rowByte 127 (by decide)]
  exact ⟨_, rfl⟩

/-- The values the clauses of `RegisterReadsFollowTheMap` read: a record with and without a clock, `ROW[0]` written and
`ROW[127]` not. -/
theorem witness_RegisterReadsFollowTheMap :
    (after (exec .decodeWh2 (loaded 48 [0xFF, 0x43, 0x12, 0x96, 0x00, 0x43]))).phase ≠ .busy ∧
    (after (exec .decodeWh2 (loaded 48 [0xFF, 0x43, 0x12, 0x96, 0x00, 0x43]))).record.value .temp = some 662 ∧
    (after (exec .decodeWh2 (loaded 48 [0xFF, 0x43, 0x12, 0x96, 0x00, 0x43]))).record.value .rclk = none ∧
    Memory.read (after (exec .decodeWh2 (loaded 48 [0xFF, 0x43, 0x12, 0x96, 0x00, 0x43]))).row 0 = some 0xFF ∧
    Memory.read (after (exec .decodeWh2 (loaded 48 [0xFF, 0x43, 0x12, 0x96, 0x00, 0x43]))).row 127 = none ∧
    (after (exec (.alectoV2Dcf ⟨0x7B, 1, 0, 0x24, 0x11, 0x10, 0x13, 0x45, 0x59, 0x1C, 0x5F⟩) State.reset)).record.rclk =
      some 0x241110134559 := by decide +kernel

/-- The pending accesses of the statements about the host's accesses, at the edges of the map; the phase is idle. -/
theorem witness_accesses :
    (∀ op ∈ ([.write 0x004 0xFFFF0400, .write (0x100 + 127) 0x1FF, .write 0x008 1, .write 0x064 1, .write 0x068 1,
        .write 0x0FF 1, .read 0x000, .read 0x008, .read 0x014, .read 0x064, .read 0x090, .read 0x091, .read 0x0FF,
        .read 0x17F] : List HostOp),
      ({ State.reset with port := [op] } : State).port = op :: [] ∧
      ({ State.reset with port := [op] } : State).phase ≠ .busy) := by decide

/-- Two entry points on a row of neither, and the second one's on a row of its own. -/
theorem witness_TryMacroStopsAtTheFirstOtherOutcome :
    (loaded 0 []).phase ≠ .busy ∧ ([.wh2, .wh51] : List Entry) ≠ [] ∧
    (match macroTry [.wh2, .wh51] (loaded 0 []) with
      | .next t => decide (t.outcome = .abortLength)
      | _ => false) = true ∧
    (match macroTry [.wh51, .wh2, .wh24] (loaded 48 [0xFF, 0x43, 0x12, 0x96, 0x00, 0x43]) with
      | .next t => decide (t.outcome = .ok)
      | _ => false) = true := by decide +kernel

/-- WH24 with the other bucket size the spec allows: a configuration that is not the machine's. -/
def otherConfig : Config := configOf { defaultParams with rainMilliWh24 := 254 }

/-- At it a pending command runs, one instruction ends with `OK` and one does not. -/
theorem witness_EveryConfigurationKeepsTheContract :
    ({ State.reset with port := [.write 0x000 5] } : State).port = .write 0x000 5 :: [] ∧
    State.reset.phase ≠ .busy ∧
    (match execWith otherConfig (.wh24 60 wh24Sample) State.reset with
      | .next t => decide (t.outcome = .ok)
      | _ => false) = true ∧
    (match stepWith otherConfig { State.reset with port := [.write 0x000 5] } with
      | .next t => decide (t.outcome = .cmdIllegal)
      | _ => false) = true := by decide +kernel

/-- The greatest row the macro `LOAD` can load. -/
theorem witness_LoadMacroLoadsTheRow :
    ({ State.reset with port := macroLoad 1024 (List.replicate 128 0x55) ++ [.reset] } : State).phase ≠ .busy ∧
    (List.replicate 128 (0x55 : Byte)).length ≤ 128 ∧
    ({ State.reset with port := macroLoad 1024 (List.replicate 128 0x55) ++ [.reset] } : State).port =
      macroLoad 1024 (List.replicate 128 0x55) ++ [.reset] := ⟨by simp [State.reset], by simp, rfl⟩

end Sys2Proof.Tests
end

