-- ==== Sys2Proof/Proofs/Scales.lean ====
section
/-! PROOF. The integer a scaled field holds, over its register's denominator, is the spec's physical value (spec/00_scope.md
R4, spec/42_unpack_scale.md R114, R116, R121, R125): one lemma per conversion, over every variant that has it. -/

namespace Sys2Proof.Machine

/-- Wind of any variant: counts of an eighth of a metre per second, times `WIND_FACTOR[v]`
(spec/42_unpack_scale.md R121). -/
theorem convert_wind_div_denominator (v : Variant) (w raw : Nat) :
    ((convert fpl v w .wind raw : Int) : ℚ) / denominator v .wavg = raw * (1 / 8) * (windFactorTable v / 100) := by
  rw [convert_wind, denominator]
  push_cast
  ring

/-- Rain of any variant: bucket tips of `RAIN_MILLI[v]` thousandths of a millimetre (spec/42_unpack_scale.md R116). -/
theorem convert_rain_div_denominator (v : Variant) (w raw : Nat) :
    ((convert fpl v w .rain raw : Int) : ℚ) / denominator v .rain = raw * (rainMilliTable defaultParams v / 1000) := by
  rw [convert_rain, denominator]
  push_cast
  ring

/-- Temperature of any variant under the offset policy: tenths of a degree from -40 (spec/42_unpack_scale.md R114). -/
theorem convert_temp_div_denominator_of_offset40 (v : Variant) (w raw : Nat)
    (hv : tempPolicyTable defaultParams v = some .offset40) :
    ((convert fpl v w .temp raw : Int) : ℚ) / denominator v .temp = raw * (1 / 10) - 40 := by
  rw [convert_temp, hv, temperature, tempOffset40, denominator]
  push_cast
  ring

/-- The WH51 battery fraction: the millivolts above 700 over a span of 900 (spec/42_unpack_scale.md R125). -/
theorem convert_battFraction_div_denominator (w raw : Nat) :
    ((convert fpl .wh51 w .battFraction raw : Int) : ℚ) / denominator .wh51 .batt = ((raw * 100 : ℚ) - 700) / 900 := by
  have hden : denominator .wh51 .batt = 900 := rfl
  simp [convert_battFraction, hden]

/-- Settles O37: each part is the lemma of its conversion, at the factor its variant has in the tables of R4. -/
theorem integerScalesAreTheDecimalFactors : Obligations.IntegerScalesAreTheDecimalFactors := by
  intro raw
  refine ⟨?wh24Wind, ?wh65bWind, ?wh24Rain, ?wh0530Rain, ?wh65bRain, ?temp, ?batt⟩
  case wh24Wind => exact convert_wind_div_denominator .wh24 9 raw
  case wh65bWind => exact convert_wind_div_denominator .wh65b 9 raw
  case wh24Rain =>
    rw [convert_rain_div_denominator]
    norm_num [rainMilliTable, defaultParams]
  case wh0530Rain =>
    rw [convert_rain_div_denominator]
    norm_num [rainMilliTable]
  case wh65bRain => exact convert_rain_div_denominator .wh65b 16 raw
  case temp => exact convert_temp_div_denominator_of_offset40 .wh5 12 raw rfl
  case batt => exact convert_battFraction_div_denominator 5 raw

end Sys2Proof.Machine
end

