-- ==== Sys2Proof/Proofs/State.lean ====
section
/-! PROOF. The state of the block (spec/10_state.md): what one access of the host can do to each register, what an
instruction leaves of the inputs and makes of the outputs at any configuration record, and the invariant of every step. -/

namespace Sys2Proof.Machine

/-! ### The outputs as a group -/

/-- Every output is its own, whatever happens to the other fields. -/
theorem sameOutputs_refl (s : State) : SameOutputs s s := ⟨rfl, rfl, rfl, rfl, rfl, rfl, rfl, rfl⟩

/-- An outcome raised leaves the same outputs in every state (spec/10_state.md R24). -/
theorem raise_sameOutputs (o : OutcomeCode) (s s' : State) : SameOutputs (raise o s) (raise o s') :=
  ⟨rfl, rfl, rfl, rfl, rfl, rfl, rfl, rfl⟩

/-- A frame committed leaves the same outputs in every state (spec/10_state.md R24). -/
theorem commit_sameOutputs (l : Located) (len : Nat) (r : Record) (s s' : State) :
    SameOutputs (commit l len r s) (commit l len r s') := ⟨rfl, rfl, rfl, rfl, rfl, rfl, rfl, rfl⟩

/-- No commit writes an input register (spec/10_state.md R15, R16). -/
theorem commit_sameInputs (l : Located) (len : Nat) (r : Record) (s : State) : SameInputs s (commit l len r s) :=
  ⟨rfl, rfl, rfl, rfl⟩

/-- One output write ends the transaction and writes no input register (spec/10_state.md R15, R16, R24). -/
theorem OutputWrite.done_sameInputs {s t : State} (h : OutputWrite s t) : t.phase = .done ∧ SameInputs s t := by
  obtain ⟨o, -, rfl⟩ | ⟨l, -, -, rfl⟩ := h
  · obtain ⟨hdone, -, -, hin⟩ := raise_failedWith o s
    exact ⟨hdone, hin⟩
  · exact ⟨rfl, commit_sameInputs l _ _ s⟩

/-! ### What one step does -/

/-- A write of `CMD` runs the decoded command, at every configuration (spec/10_state.md R14). -/
theorem hostWrite_cmd (c : Config) (run : Runs) (v : Word) (s : State) :
    hostWrite c run 0x000 v s = run (decodeCommand v) s := by
  simp only [hostWrite, regAt_cmd]

/-- A write of `BITCNT` takes the low 16 bits (spec/10_state.md R15). -/
theorem hostWrite_bitcnt (run : Runs) (v : Word) (s : State) :
    hostWrite fpl run 0x004 v s = .next { s with bitcnt := v.setWidth 16 } := by
  have hreg : regAt fpl 0x004 = .bitcnt := by decide
  simp only [hostWrite, hreg]

/-- A write of a `ROW` byte takes the low 8 bits (spec/10_state.md R16). -/
theorem hostWrite_rowByte (run : Runs) (k : Nat) (hk : k < 128) (v : Word) (s : State) :
    hostWrite fpl run (0x100 + k) v s = .next { s with row := Memory.write s.row k (v.setWidth 8) } := by
  simp only [hostWrite, regAt_rowByte k hk]

/-- What an access of the host that answers a next state does (spec/10_state.md R25, spec/20_memory.md R45): the state
after it, by the register it names. -/
inductive AccessEffect (s : State) : HostOp → State → Prop where
  | reset : AccessEffect s .reset (resetBlock s)
  | read (off : Nat) (w : Word) : AccessEffect s (.read off) { s with rdata := w }
  | writeCmd (v : Word) (t : State) (h : OutputWrite s t) : AccessEffect s (.write 0x000 v) t
  | writeBitcnt (v : Word) : AccessEffect s (.write 0x004 v) { s with bitcnt := v.setWidth 16 }
  | writeRow (k : Nat) (hk : k < 128) (v : Word) :
    AccessEffect s (.write (0x100 + k) v) { s with row := Memory.write s.row k (v.setWidth 8) }
  | ignored (off : Nat) (v : Word) : AccessEffect s (.write off v) s

/-- Every access that answers a next state has one of these effects. -/
theorem hostAccess_effect (op : HostOp) (s t : State) (h : hostAccess fpl exec op s = .next t) :
    AccessEffect s op t := by
  cases op with
  | reset =>
    cases h
    exact .reset
  | read off =>
    simp only [hostAccess] at h
    split at h
    case isTrue => cases h
    case isFalse =>
      obtain ⟨w, rfl⟩ := hostRead_next fpl off s t h
      exact .read off w
  | write off v =>
    simp only [hostAccess] at h
    split at h
    case isTrue => cases h
    case isFalse =>
      obtain ⟨rfl, hexec⟩ | ⟨rfl, rfl⟩ | ⟨k, rfl, hk, rfl⟩ | rfl := hostWrite_effect off v s t h
      · exact .writeCmd v t (exec_next _ s t hexec)
      · exact .writeBitcnt v
      · exact .writeRow k hk v
      · exact .ignored off v

/-- What a step that answers a next state does: nothing without an access pending, else the effect of the first one, on
the state whose pending accesses are the remaining ones (spec/60_exceptions.md R208). -/
theorem step_effect (s t : State) (h : step s = .next t) :
    t = s ∧ s.port = [] ∨ ∃ op rest, s.port = op :: rest ∧ AccessEffect { s with port := rest } op t := by
  cases hp : s.port with
  | nil =>
    rw [step_idle s hp] at h
    cases h
    exact .inl ⟨rfl, rfl⟩
  | cons op rest =>
    rw [step_access s op rest hp] at h
    exact .inr ⟨op, rest, rfl, hostAccess_effect op _ t h⟩

/-! ### The mask of a decoded record -/

/-- A bit of `PRESENT` is a field register's, or that of `mic`, or above both (spec/10_state.md R19). -/
theorem presentBit_cases (n : Nat) : (∃ f ∈ fieldOrder, n = presentBit f) ∨ n = micBit ∨ 20 ≤ n := by
  have hfields : ∀ n < 19, ∃ f ∈ fieldOrder, n = presentBit f := by decide
  obtain hlt | heq | hgt : n < 19 ∨ n = 19 ∨ 20 ≤ n := by omega
  · exact .inl (hfields n hlt)
  · exact .inr (.inl heq)
  · exact .inr (.inr hgt)

/-- Every register that a variant's layout names is declared, and `mic` is (spec/30_encoding.md R72). -/
theorem declaredMask_layout (v : Variant) :
    (∀ d ∈ fpl.layout v, (declaredMask v).getLsbD (presentBit d.reg) = true) ∧
    (declaredMask v).getLsbD micBit = true := by
  cases v <;> decide

/-- A register that a variant sets always has a descriptor without a sentinel; no bit above `mic` is such a register's
(spec/30_encoding.md R72). -/
theorem alwaysMask_layout (v : Variant) :
    (∀ f ∈ fieldOrder, (alwaysMask v).getLsbD (presentBit f) = true →
      ∃ d ∈ fpl.layout v, d.reg = f ∧ d.sentinel = none) ∧
    ∀ n < 32, 20 ≤ n → (alwaysMask v).getLsbD n = false := by
  cases v <;> decide

/-- A register that no descriptor of the variant names has its `PRESENT` bit clear. -/
theorem decodeFields_present_other (v : Variant) (f : List Byte) (g : Field) (h : ∀ d ∈ fpl.layout v, d.reg ≠ g) :
    (decodeFields fpl v f).present.getLsbD (presentBit g) = false := by
  rw [presentOk_decodeFields, decodeFields_other v f g h, Option.isSome_none]

/-- A register whose descriptor has no sentinel has its `PRESENT` bit set. -/
theorem decodeFields_present_always (v : Variant) (f : List Byte) (d : FieldDesc) (hd : d ∈ fpl.layout v)
    (h : d.sentinel = none) : (decodeFields fpl v f).present.getLsbD (presentBit d.reg) = true := by
  rw [presentOk_decodeFields, decodeFields_value v f d hd, h, if_neg (by simp), Option.isSome_some]

/-- A decode sets declared fields only (spec/30_encoding.md R72). -/
theorem decodeFields_present_declared (v : Variant) (f : List Byte) :
    (decodeFields fpl v f).present &&& declaredMask v = (decodeFields fpl v f).present := by
  obtain ⟨hlayout, hmic⟩ := declaredMask_layout v
  refine BitVec.eq_of_getLsbD_eq fun n _ => ?_
  rw [BitVec.getLsbD_and]
  obtain ⟨g, -, rfl⟩ | rfl | habove := presentBit_cases n
  · by_cases hd : ∃ d ∈ fpl.layout v, d.reg = g
    · obtain ⟨d, hd, rfl⟩ := hd
      rw [hlayout d hd, Bool.and_true]
    · rw [decodeFields_present_other v f g fun d hm he => hd ⟨d, hm, he⟩, Bool.false_and]
  · rw [hmic, Bool.and_true]
  · rw [decodeFields_above v f n habove, Bool.false_and]

/-- A decode sets every field that its variant sets always (spec/30_encoding.md R72). -/
theorem decodeFields_present_alwaysMask (v : Variant) (f : List Byte) :
    (decodeFields fpl v f).present &&& alwaysMask v = alwaysMask v := by
  obtain ⟨hlayout, habove⟩ := alwaysMask_layout v
  refine BitVec.eq_of_getLsbD_eq fun n hn => ?_
  rw [BitVec.getLsbD_and]
  cases hbit : (alwaysMask v).getLsbD n with
  | false => rw [Bool.and_false]
  | true =>
    rw [Bool.and_true]
    obtain ⟨g, hg, rfl⟩ | rfl | hge := presentBit_cases n
    · obtain ⟨d, hd, rfl, hnone⟩ := hlayout g hg hbit
      exact decodeFields_present_always v f d hd hnone
    · exact decodeFields_mic v f
    · rw [habove n hn hge] at hbit
      cases hbit

/-! ### The invariant -/

/-- No frame is longer than the frame registers (spec/10_state.md R18). -/
theorem frameLen_le (v : Variant) : fpl.frameLen v ≤ 17 := by cases v <;> decide

/-- What a failure leaves is coherent (spec/10_state.md R24). -/
theorem raise_outputsOk (o : OutcomeCode) (s : State) (ho : o ≠ .ok) : OutputsOk (raise o s) := by
  obtain ⟨hdone, hcode, hclear, -⟩ := raise_failedWith o s
  exact .inr (.inl ⟨hdone, hcode ▸ ho, hclear⟩)

/-- What the commit of a decoded frame of its variant's length leaves is a record (spec/10_state.md R17 to R20). -/
theorem commit_holdsRecord (l : Located) (s : State) (hlen : l.frame.length = fpl.frameLen l.variant) :
    HoldsRecord (commit l (fpl.frameLen l.variant) (decodeFields fpl l.variant l.frame) s) l.variant := by
  have hle := frameLen_le l.variant
  refine ⟨rfl, rfl, rfl, rfl, ?flen, fun k hk => ?frame, presentOk_decodeFields fpl l.variant l.frame,
    decodeFields_present_declared l.variant l.frame, decodeFields_present_alwaysMask l.variant l.frame⟩
  case flen =>
    rw [commit_flen, BitVec.toNat_ofNat]
    exact Nat.mod_eq_of_lt (by omega)
  case frame =>
    rw [commit_frame, frameRegisters_getD, List.getD_eq_default _ _ (by omega), ite_self]

/-- Every output write leaves coherent outputs. -/
theorem OutputWrite.outputsOk {s t : State} (h : OutputWrite s t) : OutputsOk t := by
  obtain ⟨o, ho, rfl⟩ | ⟨l, -, hlen, rfl⟩ := h
  · exact raise_outputsOk o s ho
  · exact .inr (.inr ⟨l.variant, commit_holdsRecord l s hlen⟩)

/-- Reset leaves the block idle and clear (spec/10_state.md R23). -/
theorem resetBlock_outputsOk (s : State) : OutputsOk (resetBlock s) :=
  .inl ⟨rfl, rfl, rfl, rfl, rfl, rfl, rfl, rfl⟩

/-- An empty row buffer is in canonical form. -/
theorem rowOk_of_row_eq_nil (s : State) (h : s.row = []) : RowOk s := by
  refine ⟨by rw [h]; rfl, fun cell hc => ?_⟩
  rw [h] at hc
  cases hc

/-- A write of a `ROW` byte keeps the row buffer canonical and inside `ROW` (spec/10_state.md R16). -/
theorem rowOk_write (s : State) (k : Nat) (b : Byte) (hk : k < 128) (h : RowOk s) :
    RowOk { s with row := Memory.write s.row k b } := by
  obtain ⟨hwf, hcap⟩ := h
  refine ⟨Memory.write_wf s.row k b hwf, fun cell hc => ?_⟩
  obtain heq | hmem := Memory.mem_write s.row k b cell hc
  · exact heq ▸ hk
  · exact hcap cell hmem

/-- Every access of the host keeps the state coherent. -/
theorem AccessEffect.stateOk {s t : State} {op : HostOp} (h : AccessEffect s op t) (hs : StateOk s) : StateOk t := by
  obtain ⟨hrow, hout⟩ := hs
  cases h with
  | reset => exact ⟨rowOk_of_row_eq_nil _ rfl, resetBlock_outputsOk s⟩
  | read off w => exact ⟨hrow, hout⟩
  | writeCmd v t hw =>
    obtain ⟨-, -, hsame, -⟩ := hw.done_sameInputs
    exact ⟨by rw [RowOk, hsame]; exact hrow, hw.outputsOk⟩
  | writeBitcnt v => exact ⟨hrow, hout⟩
  | writeRow k hk v => exact ⟨rowOk_write s k _ hk hrow, hout⟩
  | ignored off v => exact ⟨hrow, hout⟩

/-- Settles O41: a step is one access of the host, and each kind of access keeps the two halves of the invariant. -/
theorem stepKeepsTheStateCoherent : Obligations.StepKeepsTheStateCoherent := by
  intro s t hs h
  obtain ⟨rfl, -⟩ | ⟨op, rest, -, heff⟩ := step_effect s t h
  · exact hs
  · exact heff.stateOk hs

/-- Settles O40: the base case of the invariant, an empty row buffer and the outputs idle and clear. -/
theorem resetStateIsCoherent : Obligations.ResetStateIsCoherent :=
  ⟨rowOk_of_row_eq_nil State.reset rfl, resetBlock_outputsOk State.reset⟩

/-- No field register carries a value in the empty record, and each reads 0 (spec/10_state.md R20). -/
theorem Record.empty_absent (f : Field) : Record.empty.value f = none ∧ fieldWord Record.empty f = 0 := by
  have hnone : Record.empty.value f = none := by cases f <;> rfl
  refine ⟨hnone, ?_⟩
  unfold fieldWord
  rw [hnone]

/-- Settles O38: the table of R23, row by row. -/
theorem resetLeavesTheStatedValues : Obligations.ResetLeavesTheStatedValues :=
  ⟨rfl, rfl, rfl, rfl, rfl, rfl, rfl, fun k hk => zeroFrame_get k hk, rfl, Record.empty_absent, rfl, fun _ => rfl⟩

/-! ### What every instruction leaves, and what its result depends on -/

/-- Settles O8: an instruction that answers does one output write, which touches no input. -/
theorem noInstructionWritesAnInput : Obligations.NoInstructionWritesAnInput := by
  intro i s t h
  obtain ⟨hdone, hin⟩ := (exec_next i s t h).done_sameInputs
  have ⟨_, hrow, _⟩ := hin
  exact ⟨hdone, hin, fun k => by rw [hrow]⟩

/-- An instruction is the parametric one at the defaults (spec/10_state.md R21). A command runs its entry point, a
reserved code none; a row instruction carries the offset that the record fixes for its variant
(spec/40_locator.md R93), or one of its own where the record fixes none. -/
theorem exec_eq_execWith (i : Instr) (s : State) : exec i s = execWith fpl i s := by
  cases i with
  | decodeWh2 | decodeWh0530 | decodeWh24 | decodeWh25 | decodeWh51 => rfl
  | reserved5 | reserved6 | reserved7 => rfl
  | wh2 | wh2a | wh5 | telldus | wh0530 | alectoV1 | alectoV2 | alectoV2Dcf => rfl
  | wh24 | wh65b | wh25 | wh32b | wh32 | wh0290 | wh51 => rfl

/-- Settles O50: the dispatches agree on every instruction, so the steps that run them agree. -/
theorem theMachineIsTheParametricOneAtTheDefaults : Obligations.TheMachineIsTheParametricOneAtTheDefaults := by
  refine ⟨exec_eq_execWith, fun s => ?_⟩
  have hexec : exec = execWith fpl := funext fun i => funext (exec_eq_execWith i)
  rw [step, stepWith, hexec]

/-- A write of `CMD` outside `BUSY` is one transaction, at every configuration (spec/10_state.md R12, R14). -/
theorem stepWith_writeCommand (c : Config) (s : State) (w : Word) (rest : List HostOp)
    (hp : s.port = .write 0x000 w :: rest) (hb : s.phase ≠ .busy) :
    stepWith c s = execWith c (decodeCommand w) { s with port := rest } := by
  rw [stepWith_access c s _ rest hp, hostAccess, if_neg hb, hostWrite_cmd]

/-- An instruction's outputs depend on `BITCNT` and `ROW` only, at every configuration (spec/10_state.md R22). -/
theorem execWith_sameOutputs (c : Config) (i : Instr) (s s' t : State) (hb : s'.bitcnt = s.bitcnt) (hr : s'.row = s.row)
    (h : execWith c i s = .next t) : ∃ t', execWith c i s' = .next t' ∧ SameOutputs t t' := by
  obtain ⟨o, -, hu⟩ | ⟨l, hu⟩ | ⟨k, hu⟩ := execWith_cases c i s <;> rw [hu s rfl rfl] at h <;> cases h
  · exact ⟨_, hu s' hb hr, raise_sameOutputs o s s'⟩
  · exact ⟨_, hu s' hb hr, commit_sameOutputs l _ _ s s'⟩

/-- An instruction ends the transaction, writes no input, and clears every result register if it fails, at every
configuration (spec/10_state.md R15, R16, R24, spec/60_exceptions.md R200). -/
theorem execWith_next (c : Config) (i : Instr) (s t : State) (h : execWith c i s = .next t) :
    t.phase = .done ∧ SameInputs s t ∧ (t.outcome ≠ .ok → FailedWith t.outcome s t) := by
  obtain ⟨o, -, hu⟩ | ⟨l, hu⟩ | ⟨k, hu⟩ := execWith_cases c i s <;> rw [hu s rfl rfl] at h <;> cases h
  · obtain ⟨hdone, -, -, hin⟩ := raise_failedWith o s
    exact ⟨hdone, hin, fun _ => raise_failedWith o s⟩
  · exact ⟨rfl, commit_sameInputs l _ _ s, fun hne => absurd rfl hne⟩

/-- Settles O51: the three clauses, each at an arbitrary record. -/
theorem everyConfigurationKeepsTheContract : Obligations.EveryConfigurationKeepsTheContract :=
  fun c => ⟨stepWith_writeCommand c, execWith_sameOutputs c, execWith_next c⟩

/-- Settles O10: the contract of every configuration, at the defaults. -/
theorem resultDependsOnTheInputsOnly : Obligations.ResultDependsOnTheInputsOnly := by
  intro i s s' t hb hr h
  rw [exec_eq_execWith] at h ⊢
  exact execWith_sameOutputs fpl i s s' t hb hr h

/-- Settles O4: outside `BUSY` the access is taken, and offset 0 of the map is `CMD`. -/
theorem stepRunsTheWrittenCommand : Obligations.StepRunsTheWrittenCommand := by
  intro s w rest hp hb
  rw [step_write s 0x000 w rest hp hb, hostWrite_cmd]

/-! ### The host's accesses -/

/-- The status word as a number: each field at its place (spec/10_state.md R17). -/
theorem statusWord_toNat (s : State) :
    (statusWord s).toNat = (phaseCode s.phase).toNat + 4 * (outcomeCode s.outcome).toNat +
      32 * (variantField s.variant).toNat + 512 * (if s.micOk then 1 else 0) := by
  have hmic : (BitVec.ofBool s.micOk).toNat = if s.micOk then 1 else 0 := by cases s.micOk <;> rfl
  have hrest : (0 : BitVec 22).toNat = 0 := rfl
  simp only [statusWord, toNat_append_mul, hmic, hrest]
  omega

/-- Settles O42: the read is taken in every phase and returns the status word. -/
theorem statusReadPacksItsFields : Obligations.StatusReadPacksItsFields := by
  intro s rest hp
  refine ⟨statusWord { s with port := rest }, ?_, statusWord_toNat _⟩
  rw [step_access s _ rest hp, hostAccess_status]

/-- Settles O44: the write of each input register, then what the row buffer reads after it. -/
theorem inputWritesChangeTheirRegisterOnly : Obligations.InputWritesChangeTheirRegisterOnly := by
  intro s v rest hb
  refine ⟨fun hp => ?bitcnt, fun k hk hp => ?row⟩
  case bitcnt =>
    refine ⟨_, (step_write s 0x004 v rest hp hb).trans (hostWrite_bitcnt exec v _), ?_, rfl, sameOutputs_refl s, rfl, rfl⟩
    exact BitVec.toNat_setWidth 16 v
  case row =>
    refine ⟨_, v.setWidth 8, (step_write s (0x100 + k) v rest hp hb).trans (hostWrite_rowByte exec k hk v _),
      Memory.read_write_same s.row k _, BitVec.toNat_setWidth 8 v, fun j hj => ?_, rfl, sameOutputs_refl s, rfl, rfl⟩
    exact Memory.read_write_other s.row k j _ hj

/-- Settles O45: the five clauses for each effect an access can have, and for the step without an access. -/
theorem eachRegisterChangesOnlyByItsOwnAccesses : Obligations.EachRegisterChangesOnlyByItsOwnAccesses := by
  intro s t h
  obtain ⟨rfl, hp⟩ | ⟨op, rest, hp, heff⟩ := step_effect s t h
  · exact ⟨.inl (sameOutputs_refl t), .inl, .inl rfl, fun _ => .inl rfl, by rw [hp]; rfl⟩
  rw [hp, List.head?_cons, List.tail_cons]
  cases heff with
  | reset =>
    exact ⟨.inr (.inl rfl), fun _ => .inr rfl, .inr (.inl rfl), fun _ => .inr (.inl rfl), rfl⟩
  | read off w => exact ⟨.inl (sameOutputs_refl s), .inl, .inl rfl, fun _ => .inl rfl, rfl⟩
  | writeCmd v t hw =>
    obtain ⟨hdone, hbitcnt, hrow, hport, -⟩ := hw.done_sameInputs
    refine ⟨.inr (.inr ⟨v, rfl⟩), fun hidle => ?_, .inl hbitcnt, fun k => .inl (by rw [hrow]), hport⟩
    rw [hdone] at hidle
    cases hidle
  | writeBitcnt v =>
    exact ⟨.inl (sameOutputs_refl s), .inl, .inr (.inr ⟨v, rfl⟩), fun _ => .inl rfl, rfl⟩
  | writeRow k hk v =>
    refine ⟨.inl (sameOutputs_refl s), .inl, .inl rfl, fun j => ?_, rfl⟩
    by_cases hj : j = k
    · subst hj
      exact .inr (.inr ⟨hk, v, rfl⟩)
    · exact .inl (Memory.read_write_other s.row k j _ hj)
  | ignored off v => exact ⟨.inl (sameOutputs_refl s), .inl, .inl rfl, fun _ => .inl rfl, rfl⟩

end Sys2Proof.Machine
end

section
/-! PROOF. The row buffer and the register map (spec/20_memory.md): no instruction sees a row bit at or beyond `BITCNT`,
what a read of each register of the map returns, and which registers ignore a write. -/

namespace Sys2Proof.Machine

/-! ### Bits at or beyond `BITCNT` -/

/-- The answer `o` with `row` as the row buffer of its next state; a fault or a refusal carries no state. -/
def answerWithRow (row : Memory) (o : Host.Outcome State Fault Refusal) : Host.Outcome State Fault Refusal :=
  match o with
  | .next t => .next { t with row := row }
  | .fault r => .fault r
  | .refused r => .refused r

/-- `FINISH` takes its frame from the first stage: it neither reads nor writes the row buffer
(spec/43_classifier.md R130). -/
theorem finish_withRow (c : Config) (l : Located) (s : State) (row : Memory) :
    finish c l { s with row := row } = { finish c l s with row := row } := by
  obtain ⟨o, -, hraise⟩ | hcommit := finish_cases c l
  · rw [hraise, hraise]
    rfl
  · rw [hcommit, hcommit]
    rfl

/-- A transaction sees the row bits below `BITCNT` only, unwritten bytes included (spec/20_memory.md R43). -/
theorem transact_withRow (c : Config) (e : Entry) (s : State) (row : Memory)
    (hagree : ∀ j < s.bitcnt.toNat, rowBit row j = rowBit s.row j) :
    transact c e { s with row := row } = answerWithRow row (transact c e s) := by
  have hclassify : classify c e s.bitcnt.toNat row = classify c e s.bitcnt.toNat s.row :=
    classify_congr c s.bitcnt.toNat row s.row hagree e
  cases h : classify c e s.bitcnt.toNat s.row with
  | ok l =>
    rw [transact_located c e s l h, transact_located c e _ l (hclassify.trans h), finish_withRow]
    rfl
  | error x =>
    cases x with
    | outcome o =>
      rw [transact_raised c e s o h, transact_raised c e _ o (hclassify.trans h)]
      rfl
    | unwritten k =>
      rw [transact_unwritten c e s k h, transact_unwritten c e _ k (hclassify.trans h)]
      rfl

/-- An instruction sees the row bits below `BITCNT` only, at every configuration: a command is a transaction, a row
instruction and an illegal code read no row (spec/20_memory.md R43, spec/70_reset_and_hazards.md R215). -/
theorem execWith_withRow (c : Config) (i : Instr) (s : State) (row : Memory)
    (hagree : ∀ j < s.bitcnt.toNat, rowBit row j = rowBit s.row j) :
    execWith c i { s with row := row } = answerWithRow row (execWith c i s) := by
  unfold execWith
  cases entryOf i with
  | some e => exact transact_withRow c e s row hagree
  | none =>
    cases locatedOf i with
    | some l => exact congrArg Host.Outcome.next (finish_withRow c (atFixedOff c l) s row)
    | none => rfl

/-- Settles O12: the answer on the other row is the answer on this one with the row buffer exchanged. -/
theorem bitsBeyondTheRowNeverMatter : Obligations.BitsBeyondTheRowNeverMatter := by
  intro i s row hagree
  have hanswer : exec i { s with row := row } = answerWithRow row (exec i s) := by
    rw [exec_eq_execWith, exec_eq_execWith]
    exact execWith_withRow fpl i s row hagree
  refine ⟨fun t ht => ?next, fun r hr => ?refused⟩
  case next => rw [hanswer, ht, answerWithRow]
  case refused => rw [hanswer, hr, answerWithRow]

/-! ### The offsets of the single registers -/

/-- The offset of `BITCNT` (spec/20_memory.md R45). -/
theorem regAt_bitcnt : regAt fpl 0x004 = .bitcnt := by decide

/-- The offset of `BITOFF` (spec/20_memory.md R45). -/
theorem regAt_bitoff : regAt fpl 0x00C = .bitoff := by decide

/-- The offset of `FLEN` (spec/20_memory.md R45). -/
theorem regAt_flen : regAt fpl 0x010 = .flen := by decide

/-- The offset of `PRESENT` (spec/20_memory.md R45). -/
theorem regAt_present : regAt fpl 0x014 = .present := by decide

/-- The offset of the high word of `F_RCLK` (spec/20_memory.md R45). -/
theorem regAt_rclkHigh : regAt fpl 0x064 = .rclkHigh := by decide

/-! ### What a read returns -/

/-- The word that a register reads as; none where a read of it has no answer. -/
def HostReg.readWord (s : State) : HostReg → Option Word
  | .cmd | .reserved => some 0
  | .bitcnt => some (s.bitcnt.setWidth 32)
  | .status => some (statusWord s)
  | .bitoff => some (s.bitoff.setWidth 32)
  | .flen => some (s.flen.setWidth 32)
  | .present => some s.record.present
  | .field f => some (fieldWord s.record f)
  | .rclkHigh => some (rclkHighWord s.record)
  | .frame k => some ((s.frame.toList.getD k 0).setWidth 32)
  | .row k => (Memory.read s.row k).map (BitVec.setWidth 32)
  | .within | .outside => none

/-- A read of a register that reads as a word returns that word and changes no register (spec/20_memory.md R44, R45). -/
theorem hostRead_of_readWord (c : Config) (off : Nat) (s : State) (w : Word)
    (h : (regAt c off).readWord s = some w) : hostRead c off s = .next { s with rdata := w } := by
  unfold hostRead
  cases hr : regAt c off with
  | row k =>
    rw [hr, HostReg.readWord, Option.map_eq_some_iff] at h
    obtain ⟨b, hb, rfl⟩ := h
    simp only [hb]
  | within | outside =>
    rw [hr] at h
    cases h
  | cmd | bitcnt | status | bitoff | flen | present | field f | rclkHigh | frame k | reserved =>
    rw [hr] at h
    cases h
    rfl

/-- Outside `BUSY` a step whose access is a read returns the word of the register named (spec/10_state.md R25). -/
theorem step_read_of_readWord (s : State) (off : Nat) (rest : List HostOp) (r : HostReg) (w : Word)
    (hp : s.port = .read off :: rest) (hb : s.phase ≠ .busy) (hreg : regAt fpl off = r) (hw : r.readWord s = some w) :
    step s = .next { s with port := rest, rdata := w } := by
  subst hreg
  rw [step_read s off rest hp hb]
  exact hostRead_of_readWord fpl off { s with port := rest } w hw

/-- A read of a `ROW` byte that holds no value is refused (spec/70_reset_and_hazards.md R212). -/
theorem hostRead_unwrittenRow (c : Config) (off k : Nat) (s : State) (hreg : regAt c off = .row k)
    (h : Memory.read s.row k = none) : hostRead c off s = .refused (.unwrittenRow k) := by
  simp only [hostRead, hreg, h]

/-- A field register that carries no value reads 0 (spec/10_state.md R20). -/
theorem fieldWord_absent (r : Record) (f : Field) (h : r.value f = none) : fieldWord r f = 0 := by
  simp only [fieldWord, h]

/-- A field register that carries a value reads as it (spec/10_state.md R20). -/
theorem fieldWord_present (r : Record) (f : Field) (n : Int) (h : r.value f = some n) :
    fieldWord r f = BitVec.ofInt 32 n := by
  simp only [fieldWord, h]

/-- Without a clock the high word reads 0 (spec/10_state.md R20). -/
theorem rclkHighWord_absent (r : Record) (h : r.rclk = none) : rclkHighWord r = 0 := by
  simp only [rclkHighWord, h]

/-- The high word of a clock is its bits 47:32 (spec/10_state.md R20). -/
theorem rclkHighWord_present (r : Record) (x : BitVec 48) (h : r.rclk = some x) :
    rclkHighWord r = (x.extractLsb' 32 16).setWidth 32 := by
  simp only [rclkHighWord, h]

/-- Byte `k` of the frame registers as the register map reads it. -/
theorem frame_getD (v : Vector Byte 17) (k : Nat) (hk : k < 17) : v.toList.getD k 0 = v[k] := by
  simp [hk]

/-- Settles O43: each clause names the register at its offset and the word that register reads as. -/
theorem registerReadsFollowTheMap : Obligations.RegisterReadsFollowTheMap := by
  intro s off rest hp hb
  have hread (r : HostReg) (w : Word) := step_read_of_readWord s off rest r w hp hb
  refine ⟨?cmd, ?bitcnt, ?bitoff, ?flen, ?present, ?fieldAbsent, ?fieldPresent, ?clock, ?noClock, ?frame, ?written,
    ?unwritten, ?reserved⟩
  case cmd => exact fun hoff => hread .cmd _ (hoff ▸ regAt_cmd fpl) rfl
  case bitcnt => exact fun hoff => hread .bitcnt _ (hoff ▸ regAt_bitcnt) rfl
  case bitoff => exact fun hoff => hread .bitoff _ (hoff ▸ regAt_bitoff) rfl
  case flen => exact fun hoff => hread .flen _ (hoff ▸ regAt_flen) rfl
  case present => exact fun hoff => hread .present _ (hoff ▸ regAt_present) rfl
  case fieldAbsent =>
    exact fun f hoff hv => hread (.field f) _ (hoff ▸ regAt_field f) (congrArg some (fieldWord_absent _ f hv))
  case fieldPresent =>
    exact fun f n hoff hv => hread (.field f) _ (hoff ▸ regAt_field f) (congrArg some (fieldWord_present _ f n hv))
  case clock =>
    exact fun x hoff hx => hread .rclkHigh _ (hoff ▸ regAt_rclkHigh) (congrArg some (rclkHighWord_present _ x hx))
  case noClock =>
    exact fun hoff hx => hread .rclkHigh _ (hoff ▸ regAt_rclkHigh) (congrArg some (rclkHighWord_absent _ hx))
  case frame =>
    intro k hk hoff
    refine hread (.frame k) _ (hoff ▸ regAt_frameByte k hk) ?_
    rw [HostReg.readWord, frame_getD s.frame k hk]
  case written =>
    intro k b hk hoff hbyte
    refine hread (.row k) _ (hoff ▸ regAt_rowByte k hk) ?_
    rw [HostReg.readWord, hbyte, Option.map_some]
  case unwritten =>
    intro k hk hoff hnone
    rw [step_read s off rest hp hb]
    exact hostRead_unwrittenRow fpl off k _ (hoff ▸ regAt_rowByte k hk) hnone
  case reserved => exact fun hoff => hread .reserved _ (regAt_reserved off hoff) rfl

/-! ### Writes that are ignored -/

/-- Whether a write of the register is ignored: the outputs of the block and the reserved offsets (spec/20_memory.md
R45). -/
def HostReg.ignoresWrite : HostReg → Bool
  | .status | .bitoff | .flen | .present | .field _ | .rclkHigh | .frame _ | .reserved => true
  | .cmd | .bitcnt | .row _ | .within | .outside => false

/-- A write of such a register changes nothing, at every configuration (spec/20_memory.md R45). -/
theorem hostWrite_of_ignoresWrite (c : Config) (run : Runs) (off : Nat) (v : Word) (s : State)
    (h : (regAt c off).ignoresWrite = true) : hostWrite c run off v s = .next s := by
  unfold hostWrite
  cases hr : regAt c off with
  | status | bitoff | flen | present | field f | rclkHigh | frame k | reserved => rfl
  | cmd | bitcnt | row k | within | outside =>
    rw [hr] at h
    cases h

/-- The registers from `STATUS` to the high word of `F_RCLK` are outputs (spec/20_memory.md R45). -/
theorem regAt_outputWord (off : Nat) (hlow : 8 ≤ off) (hhigh : off < 0x068) (haligned : off % 4 = 0) :
    (regAt fpl off).ignoresWrite = true := by
  have hword : ∀ q < 26, 2 ≤ q → (regAt fpl (4 * q)).ignoresWrite = true := by decide
  have hoff : off = 4 * (off / 4) := by omega
  rw [hoff]
  exact hword (off / 4) (by omega) (by omega)

/-- Between the field registers and `ROW` the map holds `FRAME` and reserved offsets (spec/20_memory.md R45). -/
theorem regAt_frameOrReserved (off : Nat) (hlow : 0x068 ≤ off) (hhigh : off < 0x100) :
    (regAt fpl off).ignoresWrite = true := by
  by_cases hframe : 0x080 ≤ off ∧ off < 0x091
  · obtain ⟨k, rfl⟩ := Nat.exists_eq_add_of_le hframe.1
    rw [regAt_frameByte k (by omega)]
    rfl
  · rw [regAt_reserved off (by omega)]
    rfl

/-- Settles O46: every offset of the two ranges names a register that ignores a write. -/
theorem writesToOutputsAreIgnored : Obligations.WritesToOutputsAreIgnored := by
  intro s off v rest hp hb hoff
  rw [step_write s off v rest hp hb]
  apply hostWrite_of_ignoresWrite
  obtain ⟨hlow, hhigh, haligned⟩ | ⟨hlow, hhigh⟩ := hoff
  · exact regAt_outputWord off hlow hhigh haligned
  · exact regAt_frameOrReserved off hlow hhigh

end Sys2Proof.Machine
end

section
/-! PROOF. Encoding and decoding (spec/30_encoding.md): which frame each entry point's tree locates in the row the
encoder writes, that decoding gives the instruction back, and what `LOAD` and `TRY` of R80 do. -/

namespace Sys2Proof.Machine

/-! ### A PWM-family row, as its tree reads it -/

/-- The row buffer that holds an encoded PWM-family row. -/
abbrev pwmRow (ones : Nat) (f : List Byte) : Memory := Memory.ofBytes (packBits (pwmRowBits ones f))

/-- A value of all ones. -/
theorem bitsNat_true (n : Nat) : bitsNat (fun _ => true) n = 2 ^ n - 1 := by
  induction n with
  | zero => rfl
  | succ n ih =>
    have hpos : 0 < 2 ^ n := Nat.two_pow_pos n
    rw [bitsNat, ih, Bool.toNat_true, Nat.pow_succ]
    omega

/-- A header no longer than the row's ones reads all ones. -/
theorem pwmRow_read_ones (ones w : Nat) (f : List Byte) (hw : w ≤ ones) :
    rowRead (pwmRow ones f) 0 w = .ok (2 ^ w - 1) := by
  rw [rowRead_bits _ 0 w (fun _ => true) fun k hk => ?_, bitsNat_true]
  rw [Nat.zero_add]
  exact pwmRow_ones ones f k (by omega)

/-- The bit after the row's ones is the top bit of the frame's first byte. -/
theorem pwmRow_firstBit (ones : Nat) (f : List Byte) (hf : 0 < f.length) :
    rowBit (pwmRow ones f) ones = .ok (f.getD 0 0).msb := by
  rw [BitVec.msb_eq_getLsbD_last]
  exact pwmRow_frameBit ones f 0 0 hf (by omega)

/-- A header one bit longer than the row's ones ends in the top bit of the frame. -/
theorem pwmRow_read_onesThenBit (ones : Nat) (f : List Byte) (hf : 0 < f.length) :
    rowRead (pwmRow ones f) 0 (ones + 1) = .ok (2 * (2 ^ ones - 1) + (f.getD 0 0).msb.toNat) := by
  rw [rowRead_succ, pwmRow_read_ones ones ones f le_rfl, Nat.zero_add, pwmRow_firstBit ones f hf]
  rfl

/-- The eight bits after the row's ones are the frame's first byte. -/
theorem pwmRow_read_firstByte (ones : Nat) (b : Byte) (rest : List Byte) :
    rowRead (pwmRow ones (b :: rest)) ones 8 = .ok b.toNat :=
  rowFrame_first _ ones rest.length _ (pwmRow_frame ones (b :: rest))

/-- The four bits after the row's ones are the upper nibble of the frame's first byte. -/
theorem pwmRow_read_nibble (ones : Nat) (b : Byte) (rest : List Byte) :
    rowRead (pwmRow ones (b :: rest)) ones 4 = .ok (byteSlice b 7 4) := by
  have hmod : byteSlice b 7 4 = b.toNat / 2 ^ 4 := Nat.mod_eq_of_lt (by omega)
  rw [hmod]
  exact rowRead_upper _ ones 4 4 _ (pwmRow_read_firstByte ones b rest)

/-- The frame after the ones is located at its variant's fixed offset (spec/40_locator.md R93). -/
theorem locateFixed_pwmRow (v : Variant) (n ones : Nat) (f : List Byte) (hoff : fpl.fixedOff v = some ones)
    (hlen : f.length = fpl.frameLen v) (hn : ones + 8 * f.length ≤ n) :
    locateFixed fpl n (pwmRow ones f) v = .ok ⟨v, ones, f⟩ := by
  rw [locateFixed_eq fpl n _ v ones hoff, ← hlen, extract_fits n _ ones _ hn, pwmRow_frame]
  rfl

/-- A header that holds the value leaves the answer to what follows it. -/
theorem headerTest_bind_pass {α : Type} (m : Memory) (off w value : Nat) (next : Except Stop α)
    (h : rowRead m off w = .ok value) : ((headerTest m off w value).bind fun _ => next) = next := by
  rw [headerTest_pass m off w value h]
  rfl

/-- A header of all ones that is no longer than the row's ones passes (spec/30_encoding.md R63). -/
theorem headerTest_bind_ones {α : Type} (ones w value : Nat) (f : List Byte) (next : Except Stop α) (hw : w ≤ ones)
    (hvalue : 2 ^ w - 1 = value) : ((headerTest (pwmRow ones f) 0 w value).bind fun _ => next) = next :=
  headerTest_bind_pass _ 0 w value next (hvalue ▸ pwmRow_read_ones ones w f hw)

/-! ### The trees of the PWM family on an encoded row -/

/-- A header that passes, and the frame at the fixed offset after it (spec/43_classifier.md R132). -/
theorem headerThenFixed_pwmRow (v : Variant) (n ones value : Nat) (f : List Byte)
    (hheader : rowRead (pwmRow ones f) 0 8 = .ok value) (hoff : fpl.fixedOff v = some ones)
    (hlen : f.length = fpl.frameLen v) (hn : ones + 8 * f.length ≤ n) :
    ((headerTest (pwmRow ones f) 0 8 value).bind fun _ => locateFixed fpl n (pwmRow ones f) v) = .ok ⟨v, ones, f⟩ :=
  (headerTest_bind_pass _ 0 8 value _ hheader).trans (locateFixed_pwmRow v n ones f hoff hlen hn)

/-- `E_WH2` on a row of eight ones and a five-byte frame (spec/43_classifier.md R132). -/
theorem treeWh2_wh2Row (f : List Byte) (hlen : f.length = 5) : treeWh2 fpl 48 (pwmRow 8 f) = .ok ⟨.wh2, 8, f⟩ :=
  headerThenFixed_pwmRow .wh2 48 8 0xFF f (pwmRow_read_ones 8 8 f le_rfl) rfl hlen (by omega)

/-- Seven ones and a clear top bit of the frame are the header byte `0xFE` (spec/30_encoding.md R63). -/
theorem pwmRow_read_fe (f : List Byte) (hpos : 0 < f.length) (htop : (f.getD 0 0).msb = false) :
    rowRead (pwmRow 7 f) 0 8 = .ok 0xFE := by
  rw [pwmRow_read_onesThenBit 7 f hpos, htop]
  rfl

/-- `E_WH2` on a row of seven ones and a six-byte frame (spec/43_classifier.md R132). -/
theorem treeWh2_wh2aRow (f : List Byte) (hlen : f.length = 6) (htop : (f.getD 0 0).msb = false) :
    treeWh2 fpl 55 (pwmRow 7 f) = .ok ⟨.wh2a, 7, f⟩ :=
  headerThenFixed_pwmRow .wh2a 55 7 0xFE f (pwmRow_read_fe f (by omega) htop) rfl hlen (by omega)

/-- `E_WH2` on a row of seven ones and a five-byte frame (spec/43_classifier.md R132). -/
theorem treeWh2_wh5Row (f : List Byte) (hlen : f.length = 5) (htop : (f.getD 0 0).msb = false) :
    treeWh2 fpl 47 (pwmRow 7 f) = .ok ⟨.wh5, 7, f⟩ :=
  headerThenFixed_pwmRow .wh5 47 7 0xFE f (pwmRow_read_fe f (by omega) htop) rfl hlen (by omega)

/-- `E_WH2` on a row of nine ones and a five-byte frame: the ninth is the second test (spec/43_classifier.md R132). -/
theorem treeWh2_telldusRow (f : List Byte) (hlen : f.length = 5) :
    treeWh2 fpl 49 (pwmRow 9 f) = .ok ⟨.telldus, 9, f⟩ := by
  have htree : treeWh2 fpl 49 (pwmRow 9 f) =
      (headerTest (pwmRow 9 f) 0 8 0xFF).bind fun _ =>
        (headerTest (pwmRow 9 f) 8 1 1).bind fun _ => locateFixed fpl 49 (pwmRow 9 f) .telldus := rfl
  have hninth : rowRead (pwmRow 9 f) 8 1 = .ok 1 :=
    rowRead_bits _ 8 1 (fun _ => true) fun k hk => pwmRow_ones 9 f (8 + k) (by omega)
  rw [htree, headerTest_bind_ones 9 8 0xFF f _ (by omega) rfl,
    headerTest_bind_pass _ _ _ _ _ hninth]
  exact locateFixed_pwmRow .telldus 49 9 f rfl hlen (by omega)

/-- The two header tests of the WH0530 family pass on a row of seven ones and a frame of type nibble 3
(spec/43_classifier.md R134, R135). -/
theorem wh0530Headers_pass {α : Type} (b : Byte) (rest : List Byte) (next : Except Stop α)
    (htype : byteSlice b 7 4 = 0x3) :
    ((headerTest (pwmRow 7 (b :: rest)) 0 7 0x7F).bind fun _ =>
      (headerTest (pwmRow 7 (b :: rest)) 7 4 0x3).bind fun _ => next) = next := by
  rw [headerTest_bind_ones 7 7 0x7F _ _ le_rfl rfl,
    headerTest_bind_pass _ _ _ _ _ (htype ▸ pwmRow_read_nibble 7 b rest)]

/-- `E_WH0530` on a row of seven ones and an eight-byte frame of type nibble 3 (spec/43_classifier.md R134). -/
theorem treeWh0530_wh0530Row (b : Byte) (rest : List Byte) (hlen : rest.length = 7) (htype : byteSlice b 7 4 = 0x3) :
    treeWh0530 fpl 71 (pwmRow 7 (b :: rest)) = .ok ⟨.wh0530, 7, b :: rest⟩ :=
  (wh0530Headers_pass b rest (locateFixed fpl 71 (pwmRow 7 (b :: rest)) .wh0530) htype).trans
    (locateFixed_pwmRow .wh0530 71 7 (b :: rest) rfl (congrArg Nat.succ hlen) (by rw [List.length_cons]; omega))

/-- `E_WH0530` on a row of seven ones and a seven-byte frame of type nibble 3 (spec/43_classifier.md R135). -/
theorem treeWh0530_alectoV1Row (b : Byte) (rest : List Byte) (hlen : rest.length = 6) (htype : byteSlice b 7 4 = 0x3) :
    treeWh0530 fpl 63 (pwmRow 7 (b :: rest)) = .ok ⟨.alectoV1, 7, b :: rest⟩ :=
  (wh0530Headers_pass b rest (locateFixed fpl 63 (pwmRow 7 (b :: rest)) .alectoV1) htype).trans
    (locateFixed_pwmRow .alectoV1 63 7 (b :: rest) rfl (congrArg Nat.succ hlen) (by rw [List.length_cons]; omega))

/-- `ALECTO_V2` on a row of seven ones and a frame: the byte `0x52`, else the type nibble
(spec/43_classifier.md R136). -/
theorem treeWh0530_alectoV2Row_eq (b : Byte) (rest : List Byte) :
    treeWh0530 fpl 95 (pwmRow 7 (b :: rest)) =
      if b.toNat = 0x52 then locateFixed fpl 95 (pwmRow 7 (b :: rest)) .alectoV2Dcf
      else (headerTest (pwmRow 7 (b :: rest)) 7 4 0x3).bind fun _ =>
        locateFixed fpl 95 (pwmRow 7 (b :: rest)) .alectoV2 := by
  have htree : treeWh0530 fpl 95 (pwmRow 7 (b :: rest)) =
      (headerTest (pwmRow 7 (b :: rest)) 0 7 0x7F).bind fun _ => (rowRead (pwmRow 7 (b :: rest)) 7 8).bind fun t =>
        if t = 0x52 then locateFixed fpl 95 (pwmRow 7 (b :: rest)) .alectoV2Dcf
        else (headerTest (pwmRow 7 (b :: rest)) 7 4 0x3).bind fun _ =>
          locateFixed fpl 95 (pwmRow 7 (b :: rest)) .alectoV2 := rfl
  rw [htree, headerTest_bind_ones 7 7 0x7F _ _ le_rfl rfl, pwmRow_read_firstByte]
  rfl

/-- `E_WH0530` on a row of seven ones and an eleven-byte frame of type nibble 3 (spec/43_classifier.md R136). -/
theorem treeWh0530_alectoV2Row (b : Byte) (rest : List Byte) (hlen : rest.length = 10) (htype : byteSlice b 7 4 = 0x3) :
    treeWh0530 fpl 95 (pwmRow 7 (b :: rest)) = .ok ⟨.alectoV2, 7, b :: rest⟩ := by
  have hbyte : b.toNat ≠ 0x52 := by
    intro h
    rw [byteSlice, h] at htype
    cases htype
  rw [treeWh0530_alectoV2Row_eq, if_neg hbyte,
    headerTest_bind_pass _ _ _ _ _ (htype ▸ pwmRow_read_nibble 7 b rest)]
  exact locateFixed_pwmRow .alectoV2 95 7 _ rfl (congrArg Nat.succ hlen) (by rw [List.length_cons]; omega)

/-- `E_WH0530` on a row of seven ones and an eleven-byte frame that starts with `0x52` (spec/43_classifier.md R136). -/
theorem treeWh0530_dcfRow (rest : List Byte) (hlen : rest.length = 10) :
    treeWh0530 fpl 95 (pwmRow 7 (0x52 :: rest)) = .ok ⟨.alectoV2Dcf, 7, 0x52 :: rest⟩ := by
  rw [treeWh0530_alectoV2Row_eq, if_pos (by rfl)]
  exact locateFixed_pwmRow .alectoV2Dcf 95 7 _ rfl (congrArg Nat.succ hlen) (by rw [List.length_cons]; omega)

/-! ### The trees of the FSK family on an encoded row -/

/-- The row buffer that holds an encoded FSK-family row. -/
abbrev fskRow (n off : Nat) (f : List Byte) : Memory := Memory.ofBytes (packBits (fskRowBits n off f))

section fsk
variable (n off : Nat) (f : List Byte) (hoff : 24 ≤ off) (hn : off + 8 * f.length ≤ n)
include hoff hn

/-- `LOCATE_FSK` finds the frame at the offset it was encoded at (spec/40_locator.md R94). -/
theorem locateFsk_fskRow (len : Nat) (hlen : f.length = len) : locateFsk fpl n (fskRow n off f) len = .ok (off, f) := by
  subst hlen
  have hstart : off - 24 + 24 = off := by omega
  rw [locateFsk_found fpl n _ _ _ (fskRow_firstPreamble n off f hoff hn), hstart, extract_fits n _ off _ hn,
    fskRow_frame n off f hoff hn]
  rfl

/-- `E_WH24` on an encoded row: the tie-break decides the variant (spec/43_classifier.md R137). -/
theorem treeWh24_fskRow (hlen : f.length = 17) (hlow : 190 ≤ n) (hhigh : n ≤ 215) :
    treeWh24 fpl n (fskRow n off f) = .ok ⟨wh24OrWh65b fpl n off, off, f⟩ := by
  rw [treeWh24_eq, if_neg (by omega), locateFsk_fskRow n off f hoff hn _ hlen]
  rfl

/-- `WH0290` on an encoded row (spec/43_classifier.md R141). -/
theorem treeWh0290_fskRow (hlen : f.length = 8) : treeWh0290 fpl n (fskRow n off f) = .ok ⟨.wh0290, off, f⟩ := by
  rw [treeWh0290_eq, locateFsk_fskRow n off f hoff hn _ hlen]
  rfl

/-- `E_WH25` from its tentative variant on an encoded row: the type nibble and the byte `0x41` decide
(spec/43_classifier.md R139). -/
theorem treeWh25Tentative_fskRow (t : Variant) (hlen : f.length = 8) :
    treeWh25Tentative fpl n (fskRow n off f) t =
      if t = .wh32b ∧ byteSlice (f.getD 0 0) 7 4 = 0xD then .ok ⟨.wh32, off, f⟩
      else if byteSlice (f.getD 0 0) 7 4 = 0xE then .ok ⟨t, off, f⟩
      else if f.getD 0 0 = 0x41 then .ok ⟨.wh0290, off, f⟩
      else .error (.outcome .abortEarly) := by
  rw [treeWh25Tentative_eq, locateFsk_fskRow n off f hoff hn _ hlen, ← treeWh0290_fskRow n off f hoff hn hlen]
  rfl

/-- `E_WH51` on an encoded row that starts with the byte `0x51` (spec/43_classifier.md R142). -/
theorem treeWh51_fskRow (hlen : f.length = 11) (hbyte : f.getD 0 0 = 0x51) :
    treeWh51 fpl n (fskRow n off f) = .ok ⟨.wh51, off, f⟩ := by
  rw [treeWh51_eq, locateFsk_fskRow n off f hoff hn _ hlen]
  exact if_pos hbyte

end fsk

/-- The slack and the offset that make `E_WH24` say WH24 (spec/43_classifier.md R138). -/
theorem wh24OrWh65b_eq (n off : Nat) :
    wh24OrWh65b fpl n off = if n - off - 136 < 8 ∧ off < 61 then .wh24 else .wh65b := rfl

/-- The row lengths at which `E_WH25` takes its tentative variant, and which it then is (spec/43_classifier.md R139). -/
theorem treeWh25_tentative (n : Nat) (m : Memory) (h : (160 ≤ n ∧ n < 190) ∨ 440 ≤ n) :
    treeWh25 fpl n m = treeWh25Tentative fpl n m (if 440 ≤ n ∧ n ≤ 510 then .wh25 else .wh32b) := by
  rw [treeWh25_eq]
  obtain ⟨hlow, hhigh⟩ | hlong := h
  · rw [if_neg (by omega), if_pos hhigh, if_neg (by omega)]
  · rw [if_neg (by omega), if_neg (by omega), if_neg (by omega)]
    by_cases hle : n ≤ 510
    · rw [if_pos hle, if_pos ⟨hlong, hle⟩]
    · rw [if_neg hle, if_neg fun hc => hle hc.2]

/-! ### Every encoded row -/

/-- A row source in which its entry point locates the frame `l` (spec/43_classifier.md R130, first stage). -/
def Locates (l : Located) : Source → Prop
  | .command _ => False
  | .row e n bytes => classify fpl e n (Memory.ofBytes bytes) = .ok l

/-- A row in which a frame is located decodes to that frame's instruction. -/
theorem decode_of_locates (l : Located) (src : Source) (h : Locates l src) : decode src = .ok (instrOf l) := by
  cases src with
  | command w => exact h.elim
  | row e n bytes =>
    rw [Locates] at h
    simp only [decode, decodeRow, h]

/-- A row that fits the buffer locates what its tree does (spec/60_exceptions.md R197). -/
theorem locates_of_tree (l : Located) (e : Entry) (n : Nat) (bytes : List Byte) (hn : n ≤ 1024)
    (h : classifyTree fpl e n (Memory.ofBytes bytes) = .ok l) : Locates l (.row e n bytes) :=
  (classify_tree e n _ hn).trans h

/-- The upper nibble of two nibbles joined. -/
theorem byteSlice_append (a b : BitVec 4) : byteSlice (a ++ b) 7 4 = a.toNat := by
  revert a b
  decide

/-- The two bounds of an FSK-family offset. -/
theorem offBetween_iff (off : BitVec 16) (lo hi : Nat) :
    offBetween off lo hi = true ↔ lo ≤ off.toNat ∧ off.toNat ≤ hi := by
  rw [offBetween, Bool.and_eq_true, decide_eq_true_iff, decide_eq_true_iff]

/-- The encoded row of a WH24 frame: short enough for a slack below 8 (spec/43_classifier.md R138). -/
theorem locates_wh24 (off : BitVec 16) (x : Wh24Frame) (h : (Instr.wh24 off x).wf = true) :
    Locates ⟨.wh24, off.toNat, wh24Bytes x⟩ (encode (.wh24 off x)) := by
  obtain ⟨hlow, hhigh⟩ := (offBetween_iff off 47 60).1 h
  refine locates_of_tree _ .wh24 (max 190 (off.toNat + 136)) _ (by omega) ?_
  have htree := treeWh24_fskRow (max 190 (off.toNat + 136)) off.toNat (wh24Bytes x) (by omega)
    (by rw [show (wh24Bytes x).length = 17 from rfl]; omega) rfl (by omega) (by omega)
  rwa [wh24OrWh65b_eq, if_pos (by omega)] at htree

/-- The encoded row of a WH65B frame: the slack or the offset is too great for WH24 (spec/43_classifier.md R138). -/
theorem locates_wh65b (off : BitVec 16) (x : Wh24Frame) (h : (Instr.wh65b off x).wf = true) :
    Locates ⟨.wh65b, off.toNat, wh24Bytes x⟩ (encode (.wh65b off x)) := by
  obtain ⟨hlow, hhigh⟩ := (offBetween_iff off 24 79).1 h
  have hrow : off.toNat + 136 ≤ wh65bRowLength off.toNat ∧ 190 ≤ wh65bRowLength off.toNat ∧
      wh65bRowLength off.toNat ≤ 215 ∧ ¬ (wh65bRowLength off.toNat - off.toNat - 136 < 8 ∧ off.toNat < 61) := by
    unfold wh65bRowLength
    split <;> omega
  obtain ⟨hfits, hmin, hmax, htie⟩ := hrow
  refine locates_of_tree _ .wh24 (wh65bRowLength off.toNat) _ (by omega) ?_
  have htree := treeWh24_fskRow (wh65bRowLength off.toNat) off.toNat (wh24Bytes x) hlow hfits rfl hmin hmax
  rwa [wh24OrWh65b_eq, if_neg htie] at htree

/-- The encoded row of a WH25 frame is 440 to 510 bits long (spec/43_classifier.md R139). -/
theorem locates_wh25 (off : BitVec 16) (x : Wh25Frame) (h : (Instr.wh25 off x).wf = true) :
    Locates ⟨.wh25, off.toNat, wh25Bytes 0xE x⟩ (encode (.wh25 off x)) := by
  obtain ⟨hlow, hhigh⟩ := (offBetween_iff off 24 446).1 h
  refine locates_of_tree _ .wh25 (max 440 (off.toNat + 64)) _ (by omega) ?_
  refine (treeWh25_tentative _ _ (.inr (by omega))).trans ?_
  rw [if_pos (by omega)]
  refine (treeWh25Tentative_fskRow _ off.toNat (wh25Bytes 0xE x) hlow ?fits .wh25 rfl).trans ?_
  case fits =>
    change off.toNat + 64 ≤ _
    omega
  exact (if_neg (by simp)).trans (if_pos (byteSlice_append 0xE _))

/-- The row length for WH32 and WH32B holds the frame and selects the tentative variant WH32B
(spec/43_classifier.md R139). -/
theorem wh32RowLength_spec (off : Nat) (hlow : 24 ≤ off) (hhigh : off ≤ 960) :
    off + 64 ≤ wh32RowLength off ∧ wh32RowLength off ≤ 1024 ∧
    ((160 ≤ wh32RowLength off ∧ wh32RowLength off < 190) ∨ 511 ≤ wh32RowLength off) := by
  unfold wh32RowLength
  split <;> omega

/-- `E_WH25` on the encoded row of a frame of type nibble `0xD` or `0xE` (spec/43_classifier.md R139). -/
theorem treeWh25_wh32Row (off : Nat) (type : BitVec 4) (x : Wh25Frame) (hlow : 24 ≤ off) (hhigh : off ≤ 960) :
    treeWh25 fpl (wh32RowLength off) (fskRow (wh32RowLength off) off (wh25Bytes type x)) =
      if type.toNat = 0xD then .ok ⟨.wh32, off, wh25Bytes type x⟩
      else if type.toNat = 0xE then .ok ⟨.wh32b, off, wh25Bytes type x⟩
      else if (wh25Bytes type x).getD 0 0 = 0x41 then .ok ⟨.wh0290, off, wh25Bytes type x⟩
      else .error (.outcome .abortEarly) := by
  obtain ⟨hfits, -, hlen⟩ := wh32RowLength_spec off hlow hhigh
  have hnibble : byteSlice ((wh25Bytes type x).getD 0 0) 7 4 = type.toNat := byteSlice_append type _
  rw [treeWh25_tentative _ _ (by omega), if_neg (by omega),
    treeWh25Tentative_fskRow _ off (wh25Bytes type x) hlow hfits .wh32b rfl, hnibble]
  simp only [true_and]

/-- The encoded row of a WH32B frame. -/
theorem locates_wh32b (off : BitVec 16) (x : Wh25Frame) (h : (Instr.wh32b off x).wf = true) :
    Locates ⟨.wh32b, off.toNat, wh25Bytes 0xE x⟩ (encode (.wh32b off x)) := by
  obtain ⟨hlow, hhigh⟩ := (offBetween_iff off 24 960).1 h
  exact locates_of_tree _ .wh25 _ _ (wh32RowLength_spec _ hlow hhigh).2.1 (treeWh25_wh32Row off.toNat 0xE x hlow hhigh)

/-- The encoded row of a WH32 frame. -/
theorem locates_wh32 (off : BitVec 16) (x : Wh25Frame) (h : (Instr.wh32 off x).wf = true) :
    Locates ⟨.wh32, off.toNat, wh25Bytes 0xD x⟩ (encode (.wh32 off x)) := by
  obtain ⟨hlow, hhigh⟩ := (offBetween_iff off 24 960).1 h
  exact locates_of_tree _ .wh25 _ _ (wh32RowLength_spec _ hlow hhigh).2.1 (treeWh25_wh32Row off.toNat 0xD x hlow hhigh)

/-- The encoded row of a WH0290 frame: below 160 bits, or at a length where the byte `0x41` re-delegates
(spec/43_classifier.md R139). -/
theorem locates_wh0290 (off : BitVec 16) (x : Wh0290Frame) (h : (Instr.wh0290 off x).wf = true) :
    Locates ⟨.wh0290, off.toNat, wh0290Bytes x⟩ (encode (.wh0290 off x)) := by
  have hwf : (24 ≤ off.toNat ∧ off.toNat ≤ 95) ∨ (24 ≤ off.toNat ∧ off.toNat ≤ 960) ∧ x.family = 0x41 := by
    simpa [Instr.wf, offBetween_iff] using h
  have hfits : off.toNat + 64 ≤ wh0290RowLength off.toNat ∧ wh0290RowLength off.toNat ≤ 1024 := by
    unfold wh0290RowLength
    repeat' split
    all_goals omega
  obtain ⟨hfits, hmax⟩ := hfits
  refine locates_of_tree _ .wh25 (wh0290RowLength off.toNat) _ hmax ?_
  by_cases hshort : off.toNat ≤ 95
  · have hlen : wh0290RowLength off.toNat < 160 := by
      rw [wh0290RowLength, if_pos hshort]
      omega
    refine ((treeWh25_eq _ _).trans (if_pos hlen)).trans ?_
    exact treeWh0290_fskRow _ off.toNat (wh0290Bytes x) (by omega) hfits rfl
  · obtain ⟨-, hlong⟩ | ⟨-, hfamily⟩ := hwf
    · exact absurd hlong hshort
    have hlen : (160 ≤ wh0290RowLength off.toNat ∧ wh0290RowLength off.toNat < 190) ∨
        440 ≤ wh0290RowLength off.toNat := by
      unfold wh0290RowLength
      rw [if_neg hshort]
      split <;> omega
    have hbyte : (wh0290Bytes x).getD 0 0 = 0x41 := hfamily
    refine (treeWh25_tentative _ _ hlen).trans ?_
    refine (treeWh25Tentative_fskRow _ off.toNat (wh0290Bytes x) (by omega) hfits _ rfl).trans ?_
    rw [hbyte, if_neg (fun hc => absurd hc.2 (by decide)), if_neg (by decide), if_pos rfl]

/-- The encoded row of a WH51 frame ends with it. -/
theorem locates_wh51 (off : BitVec 16) (x : Wh51Frame) (h : (Instr.wh51 off x).wf = true) :
    Locates ⟨.wh51, off.toNat, wh51Bytes x⟩ (encode (.wh51 off x)) := by
  obtain ⟨hlow, hhigh⟩ := (offBetween_iff off 24 936).1 h
  exact locates_of_tree _ .wh51 (off.toNat + 88) _ (by omega)
    (treeWh51_fskRow _ off.toNat (wh51Bytes x) hlow le_rfl rfl rfl)

/-- The top bit of a WH2-family frame is that of its type nibble. -/
theorem wh2Bytes_msb (x : Wh2Frame) (rest : List Byte) (h : (!x.type.msb) = true) :
    ((wh2Bytes x ++ rest).getD 0 0).msb = false := by
  have hfirst : ((wh2Bytes x ++ rest).getD 0 0).msb = x.type.msb := BitVec.msb_append
  rw [hfirst]
  simpa using h

/-- In the row the encoder writes for a well-formed row instruction, the entry point it names locates the instruction's
variant, offset and frame (spec/30_encoding.md R63 to R74). -/
theorem encode_locates (i : Instr) (l : Located) (hwf : i.wf = true) (hl : locatedOf i = some l) :
    Locates l (encode i) := by
  cases i with
  | decodeWh2 | decodeWh0530 | decodeWh24 | decodeWh25 | decodeWh51 | reserved5 | reserved6 | reserved7 => cases hl
  | wh2 x =>
    cases hl
    exact locates_of_tree _ .wh2 48 _ (by omega) (treeWh2_wh2Row (wh2Bytes x) rfl)
  | wh2a x pad =>
    cases hl
    exact locates_of_tree _ .wh2 55 _ (by omega) (treeWh2_wh2aRow (wh2Bytes x ++ [pad]) rfl (wh2Bytes_msb x [pad] hwf))
  | wh5 x =>
    cases hl
    exact locates_of_tree _ .wh2 47 _ (by omega) (treeWh2_wh5Row (wh2Bytes x) rfl (wh2Bytes_msb x [] hwf))
  | telldus x =>
    cases hl
    exact locates_of_tree _ .wh2 49 _ (by omega) (treeWh2_telldusRow (wh2Bytes x) rfl)
  | wh0530 x ign crc sum =>
    cases hl
    exact locates_of_tree _ .wh0530 71 _ (by omega) (treeWh0530_wh0530Row _ _ rfl (byteSlice_append 0x3 _))
  | alectoV1 x ign crc =>
    cases hl
    exact locates_of_tree _ .wh0530 63 _ (by omega) (treeWh0530_alectoV1Row _ _ rfl (byteSlice_append 0x3 _))
  | alectoV2 x ign crc sum =>
    cases hl
    exact locates_of_tree _ .wh0530 95 _ (by omega) (treeWh0530_alectoV2Row _ _ rfl (byteSlice_append 0x3 _))
  | alectoV2Dcf x =>
    cases hl
    exact locates_of_tree _ .wh0530 95 _ (by omega) (treeWh0530_dcfRow _ rfl)
  | wh24 off x =>
    cases hl
    exact locates_wh24 off x hwf
  | wh65b off x =>
    cases hl
    exact locates_wh65b off x hwf
  | wh25 off x =>
    cases hl
    exact locates_wh25 off x hwf
  | wh32b off x =>
    cases hl
    exact locates_wh32b off x hwf
  | wh32 off x =>
    cases hl
    exact locates_wh32 off x hwf
  | wh0290 off x =>
    cases hl
    exact locates_wh0290 off x hwf
  | wh51 off x =>
    cases hl
    exact locates_wh51 off x hwf

/-- The instruction of a row instruction's own frame is that instruction (spec/30_encoding.md R66 to R74). -/
theorem instrOf_of_locatedOf (i : Instr) (l : Located) (h : locatedOf i = some l) : instrOf l = i := by
  suffices hround : Laws.FrameRoundTrip.Statement i from (hround l h).2
  cases i with
  | decodeWh2 | decodeWh0530 | decodeWh24 | decodeWh25 | decodeWh51 | reserved5 | reserved6 | reserved7 => cases h
  | wh2 x => exact Laws.FrameRoundTrip.wh2 x
  | wh2a x pad => exact Laws.FrameRoundTrip.wh2a x pad
  | wh5 x => exact Laws.FrameRoundTrip.wh5 x
  | telldus x => exact Laws.FrameRoundTrip.telldus x
  | wh0530 x ign crc sum => exact Laws.FrameRoundTrip.wh0530 x ign crc sum
  | alectoV1 x ign crc => exact Laws.FrameRoundTrip.alectoV1 x ign crc
  | alectoV2 x ign crc sum => exact Laws.FrameRoundTrip.alectoV2 x ign crc sum
  | alectoV2Dcf x => exact Laws.FrameRoundTrip.alectoV2Dcf x
  | wh24 off x => exact Laws.FrameRoundTrip.wh24 off x
  | wh65b off x => exact Laws.FrameRoundTrip.wh65b off x
  | wh25 off x => exact Laws.FrameRoundTrip.wh25 off x
  | wh32b off x => exact Laws.FrameRoundTrip.wh32b off x
  | wh32 off x => exact Laws.FrameRoundTrip.wh32 off x
  | wh0290 off x => exact Laws.FrameRoundTrip.wh0290 off x
  | wh51 off x => exact Laws.FrameRoundTrip.wh51 off x

/-- A command's encoding is the word of its code (spec/30_encoding.md R60). -/
theorem decode_encode_command (i : Instr) (h : locatedOf i = none) : decode (encode i) = .ok i := by
  cases i with
  | decodeWh2 | decodeWh0530 | decodeWh24 | decodeWh25 | decodeWh51 | reserved5 | reserved6 | reserved7 => rfl
  | wh2 | wh2a | wh5 | telldus | wh0530 | alectoV1 | alectoV2 | alectoV2Dcf => cases h
  | wh24 | wh65b | wh25 | wh32b | wh32 | wh0290 | wh51 => cases h

/-- Settles O3: a command by its word; a row instruction because its entry point locates the frame that was encoded, and
that frame holds every operand. -/
theorem decodeReadsBackEveryEncoding : Obligations.DecodeReadsBackEveryEncoding := by
  intro i hwf
  cases hl : locatedOf i with
  | none => exact decode_encode_command i hl
  | some l => rw [decode_of_locates l _ (encode_locates i l hwf hl), instrOf_of_locatedOf i l hl]

/-! ### Command words and written-out rows -/

/-- A command word is read by its value modulo 8 alone (spec/30_encoding.md R60). -/
theorem decodeCommand_congr (w w' : Word) (h : w.toNat % 8 = w'.toNat % 8) : decodeCommand w = decodeCommand w' := by
  have hentry (v : Word) : (v.extractLsb' 0 3).toNat = v.toNat % 8 := BitVec.extractLsb'_toNat 0 3 v
  simp only [decodeCommand, hentry, h]

/-- Settles O1: each clause compares the word with the one that is its `ENTRY` code. -/
theorem commandWordSelectsByItsLowThreeBits : Obligations.CommandWordSelectsByItsLowThreeBits := fun w =>
  ⟨decodeCommand_congr w 0, decodeCommand_congr w 1, decodeCommand_congr w 2, decodeCommand_congr w 3,
    decodeCommand_congr w 4, decodeCommand_congr w 5, decodeCommand_congr w 6, decodeCommand_congr w 7⟩

/-- A source that is the encoding of a well-formed instruction decodes to it. -/
theorem decode_of_encode_eq (i : Instr) (src : Source) (hwf : i.wf = true) (h : encode i = src) : decode src = .ok i :=
  h ▸ decodeReadsBackEveryEncoding i hwf

/-- Settles O2: the word by its low bits; each row is the one that the encoder writes for its instruction. -/
theorem writtenOutWordsDecode : Obligations.WrittenOutWordsDecode := by
  refine ⟨?word, ?wh2, ?alectoV1, ?wh51⟩
  case word => exact congrArg Except.ok (decodeCommand_congr 0xFFFFFFF8 0 rfl)
  case wh2 => exact decode_of_encode_eq _ _ rfl (by decide)
  case alectoV1 => exact decode_of_encode_eq _ _ rfl (by decide)
  case wh51 => exact decode_of_encode_eq _ _ (by decide) (by decide)

/-! ### `LOAD` -/

/-- `ROW[k] <- b0 ; ROW[k+1] <- b1 ; ...` -/
def Memory.writeFrom (m : Memory) (k : Nat) : List Byte → Memory
  | [] => m
  | b :: rest => Memory.writeFrom (Memory.write m k b) (k + 1) rest

/-- What the row buffer reads after a run of bytes is written: those bytes, and the others as before. -/
theorem Memory.read_writeFrom (m : Memory) (k j : Nat) (bytes : List Byte) :
    Memory.read (Memory.writeFrom m k bytes) j =
      if k ≤ j ∧ j < k + bytes.length then bytes[j - k]? else Memory.read m j := by
  induction bytes generalizing m k with
  | nil =>
    rw [Memory.writeFrom, List.length_nil, if_neg (by omega)]
  | cons b rest ih =>
    rw [Memory.writeFrom, ih, List.length_cons]
    obtain hlt | rfl | hgt := Nat.lt_trichotomy j k
    · rw [if_neg (by omega), if_neg (by omega), Memory.read_write_other m k j b (by omega)]
    · rw [if_neg (by omega), if_pos (by omega), Memory.read_write_same, Nat.sub_self, List.getElem?_cons_zero]
    · have hindex : j - k = j - (k + 1) + 1 := by omega
      rw [Memory.read_write_other m k j b (by omega), hindex, List.getElem?_cons_succ]
      exact if_congr (by omega) rfl rfl

/-- The row writes of `LOAD`, one step each, write the bytes into `ROW` and change nothing else. -/
theorem run_rowWrites (bytes : List Byte) (k steps : Nat) (s : State) (rest : List HostOp) (hb : s.phase ≠ .busy)
    (hk : k + bytes.length ≤ 128) (hp : s.port = rowWrites k bytes ++ rest) :
    Sys2Proof.core.run (bytes.length + steps) s =
      Sys2Proof.core.run steps { s with row := Memory.writeFrom s.row k bytes, port := rest } := by
  induction bytes generalizing k s with
  | nil =>
    rw [rowWrites, List.nil_append] at hp
    rw [List.length_nil, Nat.zero_add, Memory.writeFrom, ← hp]
  | cons b bytes ih =>
    rw [List.length_cons] at hk ⊢
    have hbyte : (b.setWidth 32).setWidth 8 = b := by simp
    have hstep := (step_write s (0x100 + k) (b.setWidth 32) (rowWrites (k + 1) bytes ++ rest) hp hb).trans
      (hostWrite_rowByte exec k (by omega) _ _)
    rw [hbyte] at hstep
    rw [Nat.add_right_comm, core_run_next _ s _ hstep]
    exact ih (k + 1) _ hb (by omega) rfl

/-- Settles O48: the row writes, then the write of `BITCNT`. -/
theorem loadMacroLoadsTheRow : Obligations.LoadMacroLoadsTheRow := by
  intro s n bytes rest hb hlen hp
  rw [macroLoad, List.append_assoc] at hp
  have hcount : (n.setWidth 32).setWidth 16 = n := by simp
  have hstep := (step_write
      { s with row := Memory.writeFrom s.row 0 bytes, port := .write 0x004 (n.setWidth 32) :: rest } 0x004 _ rest rfl
      hb).trans (hostWrite_bitcnt exec _ _)
  rw [hcount] at hstep
  refine ⟨_, (run_rowWrites bytes 0 1 s _ hb (by omega) hp).trans (core_run_next 0 _ _ hstep), rfl,
    fun k hk => ?loaded, fun k hk => ?kept, sameOutputs_refl s, rfl, rfl⟩
  case loaded => exact (Memory.read_writeFrom s.row 0 k bytes).trans (if_pos (by omega))
  case kept => exact (Memory.read_writeFrom s.row 0 k bytes).trans (if_neg (by omega))

/-! ### `TRY` -/

/-- Two states with the same outputs, the other way round. -/
theorem sameOutputs_symm {s t : State} (h : SameOutputs s t) : SameOutputs t s := by
  obtain ⟨hphase, houtcome, hvariant, hmic, hoff, hlen, hframe, hrecord⟩ := h
  exact ⟨hphase.symm, houtcome.symm, hvariant.symm, hmic.symm, hoff.symm, hlen.symm, hframe.symm, hrecord.symm⟩

/-- The outcomes that say that the row is another command's (spec/30_encoding.md R80). -/
def TriesNext (o : OutcomeCode) : Prop := o = .abortLength ∨ o = .abortEarly

/-- What one entry point of `TRY` does when it answers: its command, then either the remaining entry points or the
end. -/
theorem macroTry_cons (e : Entry) (rest : List Entry) (s t : State) (hb : s.phase ≠ .busy)
    (h : macroTry (e :: rest) s = .next t) :
    ∃ u, exec (commandOf e) s = .next u ∧
      ((TriesNext u.outcome ∧ macroTry rest { u with rdata := statusWord u } = .next t) ∨
        (¬ TriesNext u.outcome ∧ t = { u with rdata := statusWord u })) := by
  rw [macroTry, hostAccess_command e s hb] at h
  cases hexec : exec (commandOf e) s with
  | fault r =>
    rw [hexec] at h
    cases h
  | refused r =>
    rw [hexec] at h
    cases h
  | next u =>
    rw [hexec, thenReadStatus, hostAccess_status] at h
    refine ⟨u, rfl, ?_⟩
    have hsays := saysTryNext_statusWord u
    dsimp only at h
    split at h
    case isTrue hnext => exact .inl ⟨hsays.1 hnext, h⟩
    case isFalse hend =>
      cases h
      exact .inr ⟨fun hnext => hend (hsays.2 hnext), rfl⟩

/-- `TRY` from `s` that ends in `t` stops at the first entry point with another outcome, or at the last one
(spec/30_encoding.md R80). -/
def TryStops (es : List Entry) (s t : State) : Prop :=
  ∃ before e later u, es = before ++ e :: later ∧
    (∀ d ∈ before, EndsWith (commandOf d) .abortLength s ∨ EndsWith (commandOf d) .abortEarly s) ∧
    exec (commandOf e) s = .next u ∧ SameOutputs u t ∧
    (later = [] ∨ (u.outcome ≠ .abortLength ∧ u.outcome ≠ .abortEarly))

/-- It stops at an entry point that is the last or that has another outcome. -/
theorem tryStops_here (e : Entry) (later : List Entry) (s t u : State) (hexec : exec (commandOf e) s = .next u)
    (hout : SameOutputs u t) (h : later = [] ∨ ¬ TriesNext u.outcome) : TryStops (e :: later) s t :=
  ⟨[], e, later, u, rfl, fun _ hd => absurd hd List.not_mem_nil, hexec, hout, h.imp_right not_or.1⟩

/-- It stops later where the first entry point says so. -/
theorem tryStops_later (d : Entry) (es : List Entry) (s t : State)
    (hd : EndsWith (commandOf d) .abortLength s ∨ EndsWith (commandOf d) .abortEarly s) (h : TryStops es s t) :
    TryStops (d :: es) s t := by
  obtain ⟨before, e, later, u, rfl, hbefore, hrest⟩ := h
  exact ⟨d :: before, e, later, u, rfl, List.forall_mem_cons.2 ⟨hd, hbefore⟩, hrest⟩

/-- A command with one of the two outcomes ended so (spec/60_exceptions.md R200). -/
theorem endsWith_of_triesNext (i : Instr) (s u : State) (hexec : exec i s = .next u)
    (h : TriesNext u.outcome) : EndsWith i .abortLength s ∨ EndsWith i .abortEarly s := by
  have hfailed : u.outcome ≠ .ok → FailedWith u.outcome s u :=
    (execWith_next fpl i s u (exec_eq_execWith i s ▸ hexec)).2.2
  obtain ho | ho := h
  · exact .inl ⟨u, hexec, ho ▸ hfailed (by rw [ho]; decide)⟩
  · exact .inr ⟨u, hexec, ho ▸ hfailed (by rw [ho]; decide)⟩

/-- `TRY` on any state with the inputs of `s` ends as from `s`: no entry point changes an input, and no command reads more
(spec/10_state.md R15, R16, R22). -/
theorem macroTry_stops (es : List Entry) (s s' t : State) (hb : s'.phase ≠ .busy) (hbitcnt : s'.bitcnt = s.bitcnt)
    (hrow : s'.row = s.row) (hne : es ≠ []) (h : macroTry es s' = .next t) : TryStops es s t := by
  induction es generalizing s' with
  | nil => exact absurd rfl hne
  | cons e rest ih =>
    obtain ⟨u', hexec', hthen⟩ := macroTry_cons e rest s' t hb h
    obtain ⟨u, hexec, hout⟩ := resultDependsOnTheInputsOnly (commandOf e) s' s u' hbitcnt.symm hrow.symm hexec'
    have ⟨_, houtcome, _⟩ := hout
    obtain ⟨hnext, hrest⟩ | ⟨hother, rfl⟩ := hthen
    · by_cases hlast : rest = []
      · subst hlast
        cases hrest
        exact tryStops_here e [] s _ u hexec (sameOutputs_symm hout) (.inl rfl)
      · obtain ⟨hdone, ⟨hbitcnt', hrow', -⟩, -⟩ := noInstructionWritesAnInput (commandOf e) s' u' hexec'
        have hidle : u'.phase ≠ .busy := by
          rw [hdone]
          decide
        exact tryStops_later e rest s t (endsWith_of_triesNext _ s u hexec (houtcome ▸ hnext))
          (ih { u' with rdata := statusWord u' } hidle (hbitcnt'.trans hbitcnt) (hrow'.trans hrow) hlast hrest)
    · exact tryStops_here e rest s _ u hexec (sameOutputs_symm hout) (.inr (houtcome ▸ hother))

/-- Settles O49: by the entry points in order, on states with the inputs of the first one. -/
theorem tryMacroStopsAtTheFirstOtherOutcome : Obligations.TryMacroStopsAtTheFirstOtherOutcome := fun es s t hb hne h =>
  macroTry_stops es s s t hb rfl rfl hne h

end Sys2Proof.Machine
end

section
/-! PROOF. A frame byte at any bit offset (spec/40_locator.md R92): which bit of which row byte each of its bits is. -/

namespace Sys2Proof.Machine

/-- A read of eight row bits that are the bits of a byte is that byte (spec/00_scope.md R7). -/
theorem rowRead_byte (m : Memory) (off : Nat) (x : Byte)
    (h : ∀ k < 8, rowBit m (off + k) = .ok (x.getLsbD (7 - k))) : rowRead m off 8 = .ok x.toNat := by
  rw [rowRead_bits m off 8 _ h, bitsNat_byte]

/-- The bits of a straddled byte, the most significant first: the low `8 - r` bits of the first byte, then the high `r`
bits of the next (spec/40_locator.md R92). -/
theorem getLsbD_straddle (a b : Byte) (r k : Nat) (hr : r < 8) (hk : k < 8) :
    ((a <<< r) ||| (b >>> (8 - r))).getLsbD (7 - k) =
      if r + k < 8 then a.getLsbD (7 - (r + k)) else b.getLsbD (7 - (r + k - 8)) := by
  rw [BitVec.getLsbD_or, BitVec.getLsbD_shiftLeft, BitVec.getLsbD_ushiftRight]
  split
  case isTrue hfirst =>
    have hbeyond : b.getLsbD (8 - r + (7 - k)) = false := BitVec.getLsbD_of_ge b _ (by omega)
    have hlow : ¬ 7 - k < r := by omega
    have hbyte : 7 - k < 8 := by omega
    simp [hbeyond, hlow, hbyte, show 7 - k - r = 7 - (r + k) by omega]
  case isFalse hnext =>
    have hlow : 7 - k < r := by omega
    simp [hlow, show 8 - r + (7 - k) = 7 - (r + k - 8) by omega]

/-- A read at a byte boundary is the byte there (spec/40_locator.md R92). -/
theorem rowRead_aligned (m : Memory) (off : Nat) (a : Byte) (hoff : off % 8 = 0)
    (ha : Memory.read m (off / 8) = some a) : rowRead m off 8 = .ok a.toNat := by
  refine rowRead_byte m off a fun k hk => ?_
  have hdiv : (off + k) / 8 = off / 8 := by omega
  have hmod : (off + k) % 8 = k := by omega
  rw [rowBit_ok m (off + k) a (hdiv ▸ ha), hmod]

/-- A read across two bytes joins the low bits of the first to the high bits of the next (spec/40_locator.md R92). -/
theorem rowRead_straddle (m : Memory) (off : Nat) (a b : Byte) (ha : Memory.read m (off / 8) = some a)
    (hb : Memory.read m (off / 8 + 1) = some b) :
    rowRead m off 8 = .ok ((a <<< (off % 8)) ||| (b >>> (8 - off % 8))).toNat := by
  refine rowRead_byte m off _ fun k hk => ?_
  rw [getLsbD_straddle a b (off % 8) k (Nat.mod_lt _ (by decide)) hk]
  split
  case isTrue hfirst =>
    have hdiv : (off + k) / 8 = off / 8 := by omega
    have hmod : (off + k) % 8 = off % 8 + k := by omega
    rw [rowBit_ok m (off + k) a (hdiv ▸ ha), hmod]
  case isFalse hnext =>
    have hdiv : (off + k) / 8 = off / 8 + 1 := by omega
    have hmod : (off + k) % 8 = off % 8 + k - 8 := by omega
    rw [rowBit_ok m (off + k) b (hdiv ▸ hb), hmod]

/-- Settles O36: each bit of the byte read is a bit of the one row byte or of the other. -/
theorem frameByteStraddlesTwoRowBytes : Obligations.FrameByteStraddlesTwoRowBytes := fun m off a b =>
  ⟨rowRead_aligned m off a, fun _ => rowRead_straddle m off a b⟩

end Sys2Proof.Machine
end

section
/-! PROOF. The integrity unit (spec/41_integrity.md): the laws of the three check functions, what each makes of a changed
byte, and the verdict of a row instruction by its checks and constants (spec/43_classifier.md R144, R198). -/

namespace Sys2Proof.Machine

/-! ### One changed byte -/

/-- A byte with a bit flipped is another byte. -/
theorem xor_twoPow_ne (b : Byte) (j : Nat) (hj : j < 8) : b ^^^ BitVec.twoPow 8 j ≠ b := by
  intro h
  have hbit := congrArg (fun x : Byte => x.getLsbD j) h
  simp [hj] at hbit

/-! ### CRC8 (spec/41_integrity.md R100, R101) -/

/-- A shift with its feedback as one exclusive or: the polynomial or nothing, by the top bit. -/
theorem crcShift_eq_xor (c : Config) (r : Byte) : crcShift c r = r <<< 1 ^^^ (if r.msb then c.crcPoly else 0#8) := by
  unfold crcShift
  cases r.msb <;> simp

/-- The feedback is linear over exclusive or: two of them cancel. -/
theorem feedback_xor (p : Byte) (a b : Bool) :
    (if a ^^ b then p else 0#8) = (if a then p else 0#8) ^^^ (if b then p else 0#8) := by
  cases a <;> cases b <;> simp

/-- A shift of the CRC register is linear over exclusive or. -/
theorem crcShift_xor (c : Config) (a b : Byte) : crcShift c (a ^^^ b) = crcShift c a ^^^ crcShift c b := by
  have hshift : (a ^^^ b) <<< 1 = a <<< 1 ^^^ b <<< 1 := BitVec.shiftLeft_xor_distrib a b 1
  rw [crcShift_eq_xor, crcShift_eq_xor, crcShift_eq_xor, BitVec.msb_xor, feedback_xor, hshift]
  ac_rfl

/-- Any number of shifts is linear over exclusive or. -/
theorem crcShifts_xor (c : Config) (k : Nat) (a b : Byte) :
    crcShifts c k (a ^^^ b) = crcShifts c k a ^^^ crcShifts c k b := by
  induction k generalizing a b with
  | zero => rfl
  | succ k ih => rw [crcShifts, crcShifts, crcShifts, crcShift_xor, ih]

/-- The register 0 stays 0 under shifts. -/
theorem crcShifts_zero (c : Config) (k : Nat) : crcShifts c k 0#8 = 0#8 := by
  simpa using crcShifts_xor c k 0 0

/-- Only the register 0 shifts to 0, because the polynomial is odd. -/
theorem eq_zero_of_crcShift_eq_zero (r : Byte) (h : crcShift fpl r = 0#8) : r = 0#8 := by
  have hpoly : fpl.crcPoly = 0x31 := rfl
  unfold crcShift at h
  split at h
  case isTrue =>
    have hbit := congrArg (fun x : Byte => x.getLsbD 0) h
    simp [hpoly] at hbit
  case isFalse htop =>
    have hlow : r.toNat < 128 := by simpa [BitVec.msb_eq_decide] using htop
    bv_omega

/-- Equal registers after some shifts were equal before. -/
theorem crcShifts_injective (k : Nat) (a b : Byte) (h : crcShifts fpl k a = crcShifts fpl k b) : a = b := by
  induction k generalizing a b with
  | zero => exact h
  | succ k ih =>
    have hshift : crcShift fpl (a ^^^ b) = 0#8 := by rw [crcShift_xor, ih _ _ h, BitVec.xor_self]
    exact BitVec.xor_eq_zero_iff.mp (eq_zero_of_crcShift_eq_zero _ hshift)

/-- A message byte is added to the register before the eight shifts (spec/41_integrity.md R100). -/
theorem crcByte_fpl (r b : Byte) : crcByte fpl r b = crcShifts fpl 8 (r ^^^ b) := rfl

/-- The CRC starts at 0 and nothing is done to its end (spec/00_scope.md R4). -/
theorem crc8_fpl (m : List Byte) : crc8 fpl m = crcFrom fpl 0#8 m := BitVec.xor_zero

/-- A message in two parts. -/
theorem crcFrom_append (c : Config) (r : Byte) (a b : List Byte) :
    crcFrom c r (a ++ b) = crcFrom c (crcFrom c r a) b := by
  induction a generalizing r with
  | nil => rfl
  | cons x a ih => exact ih (crcByte c r x)

/-- The register after a message is linear in the register before it and the message together. -/
theorem crcFrom_xor (r r' : Byte) (a b : List Byte) (hlen : a.length = b.length) :
    crcFrom fpl (r ^^^ r') (List.zipWith (· ^^^ ·) a b) = crcFrom fpl r a ^^^ crcFrom fpl r' b := by
  induction a generalizing b r r' with
  | nil =>
    obtain rfl : b = [] := List.length_eq_zero_iff.mp hlen.symm
    rfl
  | cons x a ih =>
    cases b with
    | nil => cases hlen
    | cons y b =>
      have hbyte : crcByte fpl (r ^^^ r') (x ^^^ y) = crcByte fpl r x ^^^ crcByte fpl r' y := by
        rw [crcByte_fpl, crcByte_fpl, crcByte_fpl, ← crcShifts_xor]
        congr 1
        ac_rfl
      rw [List.zipWith_cons_cons, crcFrom, hbyte]
      exact ih _ _ b (Nat.succ.inj hlen)

/-- Zero bytes leave the register 0. -/
theorem crcFrom_zeros (n : Nat) : crcFrom fpl 0#8 (List.replicate n 0#8) = 0#8 := by
  induction n with
  | zero => rfl
  | succ n ih => rw [List.replicate_succ, crcFrom, crcByte_fpl, BitVec.xor_self, crcShifts_zero, ih]

/-- Different registers stay different over one message. -/
theorem crcFrom_injective (m : List Byte) (r r' : Byte) (h : crcFrom fpl r m = crcFrom fpl r' m) : r = r' := by
  induction m generalizing r r' with
  | nil => exact h
  | cons b m ih => exact (BitVec.xor_left_inj _).mp (crcShifts_injective 8 _ _ (ih _ _ h))

/-- Another value in one byte of a message ends in another register. -/
theorem crcFrom_set_ne (m : List Byte) (r : Byte) (k : Nat) (b : Byte) (hk : k < m.length) (hb : b ≠ m.getD k 0) :
    crcFrom fpl r (m.set k b) ≠ crcFrom fpl r m := by
  induction m generalizing r k with
  | nil => cases hk
  | cons x m ih =>
    cases k with
    | zero =>
      intro h
      exact hb ((BitVec.xor_right_inj _).mp (crcShifts_injective 8 _ _ (crcFrom_injective m _ _ h)))
    | succ k => exact ih (crcByte fpl r x) k (Nat.lt_of_succ_lt_succ hk) hb

/-- The CRC sees every change of one byte. -/
theorem crc8_set_ne (m : List Byte) (k : Nat) (b : Byte) (hk : k < m.length) (hb : b ≠ m.getD k 0) :
    crc8 fpl (m.set k b) ≠ crc8 fpl m := by
  rw [crc8_fpl, crc8_fpl]
  exact crcFrom_set_ne m 0 k b hk hb

/-- Settles O32: linearity, the fixed register 0 and the injectivity of a shift. -/
theorem crcDivisionLaws : Obligations.CrcDivisionLaws := by
  refine ⟨?linear, ?leading, ?zeros, ?residue, ?flip⟩
  case linear =>
    intro a b hlen
    simpa [crc8_fpl] using crcFrom_xor 0 0 a b hlen
  case leading =>
    intro n m
    rw [crc8_fpl, crc8_fpl, crcFrom_append]
    exact congrArg (crcFrom fpl · m) (crcFrom_zeros n)
  case zeros =>
    exact fun n => (crc8_fpl _).trans (crcFrom_zeros n)
  case residue =>
    intro m
    rw [crc8_fpl, crc8_fpl, crcFrom_append, crcFrom, crcFrom, crcByte_fpl, BitVec.xor_self]
    exact crcShifts_zero fpl 8
  case flip =>
    intro m k j hk hj
    exact crc8_set_ne m k _ hk (xor_twoPow_ne _ j hj)

/-! ### SUM8 (spec/41_integrity.md R102) -/

/-- The checksum as a number. -/
theorem sum8_toNat (m : List Byte) : (sum8 m).toNat = (m.map BitVec.toNat).sum % 256 := by
  induction m with
  | nil => rfl
  | cons b m ih => rw [sum8, BitVec.toNat_add, ih, List.map_cons, List.sum_cons, Nat.add_mod_mod]

/-- The checksum sees every change of one byte. -/
theorem sum8_set_ne (m : List Byte) (k : Nat) (b : Byte) (hk : k < m.length) (hb : b ≠ m.getD k 0) :
    sum8 (m.set k b) ≠ sum8 m := by
  induction m generalizing k with
  | nil => cases hk
  | cons x m ih =>
    cases k with
    | zero => exact fun h => hb ((BitVec.add_left_inj _).mp h)
    | succ k => exact fun h => ih k (Nat.lt_of_succ_lt_succ hk) hb ((BitVec.add_right_inj _).mp h)

/-- Settles O33: the sum byte by byte, and the cancellation of the bytes that stay. -/
theorem sumIsModularAndSeesOneBit : Obligations.SumIsModularAndSeesOneBit :=
  ⟨sum8_toNat, fun m k j hk hj => sum8_set_ne m k _ hk (xor_twoPow_ne _ j hj)⟩

/-! ### XORSWAP8 (spec/41_integrity.md R103) -/

/-- The exclusive or of all bytes, taken from the first on. -/
theorem xorAll_eq_foldl (m : List Byte) : xorAll m = m.foldl (· ^^^ ·) 0 := by
  rw [List.foldl_eq_foldr]
  induction m with
  | nil => rfl
  | cons b m ih => rw [xorAll, ih, List.foldr_cons]

/-- Shifting the nibbles of a byte to each other's place joins them in the other order. -/
theorem swap_nibbles (x : Byte) : (x >>> 4) ||| ((x &&& 0x0F) <<< 4) = x.extractLsb' 0 4 ++ x.extractLsb' 4 4 := by
  revert x
  decide

/-- XORSWAP8 as two nibbles of the exclusive or. -/
theorem xorSwap8_eq_append (m : List Byte) :
    xorSwap8 m = (m.foldl (· ^^^ ·) 0).extractLsb' 0 4 ++ (m.foldl (· ^^^ ·) 0).extractLsb' 4 4 := by
  rw [xorSwap8, swap_nibbles, xorAll_eq_foldl]

/-- Settles O34: each nibble of the result is the other one of the exclusive or. -/
theorem xorSwapExchangesNibbles : Obligations.XorSwapExchangesNibbles := by
  intro m
  rw [xorSwap8_eq_append]
  exact ⟨BitVec.extractLsb'_append_eq_right, BitVec.extractLsb'_append_eq_left⟩

/-! ### The integrity table and the sanity constants on the operands (spec/41_integrity.md R105, spec/43_classifier.md
R144) -/

/-- A variant with one check. -/
theorem checkPasses_one (c : Config) (v : Variant) (f : List Byte) (k : CheckSpec) (h : c.integrity v = [k]) :
    checkPasses c v f = checkHolds c f k := by
  simp [checkPasses, h]

/-- A variant with two checks. -/
theorem checkPasses_two (c : Config) (v : Variant) (f : List Byte) (k k' : CheckSpec) (h : c.integrity v = [k, k']) :
    checkPasses c v f = (checkHolds c f k && checkHolds c f k') := by
  simp [checkPasses, h]

/-- The table's checks of a row instruction's frame are the checks of its operands. -/
theorem checkPasses_located (i : Instr) (l : Located) (h : locatedOf i = some l) :
    checkPasses fpl l.variant l.frame = checksHold i := by
  cases i with
  | decodeWh2 | decodeWh0530 | decodeWh24 | decodeWh25 | decodeWh51 | reserved5 | reserved6 | reserved7 => cases h
  | wh2 | wh2a | wh5 | telldus | alectoV1 | wh32b | wh32 =>
    cases h
    exact Eq.trans (checkPasses_one _ _ _ _ rfl) rfl
  | wh0530 | alectoV2 | alectoV2Dcf | wh24 | wh65b | wh25 | wh0290 | wh51 =>
    cases h
    exact Eq.trans (checkPasses_two _ _ _ _ _ rfl) rfl

/-- A variant with a sanity constant. -/
theorem sanityPasses_some (c : Config) (v : Variant) (f : List Byte) (k : SanitySpec) (h : c.sanity v = some k) :
    sanityPasses c v f = (rawValue f k.segs == k.value) := by
  simp [sanityPasses, h]

/-- A variant without a sanity constant. -/
theorem sanityPasses_none (c : Config) (v : Variant) (f : List Byte) (h : c.sanity v = none) :
    sanityPasses c v f = true := by
  simp [sanityPasses, h]

/-- The raw value of one slice of one byte. -/
theorem rawValue_one (f : List Byte) (g : Seg) : rawValue f [g] = byteSlice (f.getD g.byte 0) g.hi g.lo := by
  simp [rawValue, rawFrom]

/-- The type nibble of the WH2 family is its operand (spec/30_encoding.md R66). -/
theorem rawValue_wh2Type (x : Wh2Frame) (rest : List Byte) : rawValue (wh2Bytes x ++ rest) [⟨0, 7, 4⟩] = x.type.toNat :=
  (rawValue_one _ _).trans (byteSlice_append x.type (x.id.extractLsb' 4 4))

/-- The family byte of WH24 and WH65B is its operand (spec/30_encoding.md R69). -/
theorem rawValue_wh24Family (x : Wh24Frame) : rawValue (wh24Bytes x) [⟨0, 7, 0⟩] = x.family.toNat := by
  have hbyte : x.family.toNat < 256 := x.family.isLt
  rw [rawValue_one]
  simp [wh24Bytes, byteSlice, Nat.mod_eq_of_lt hbyte]

/-- Comparing words is comparing their values. -/
theorem toNat_beq {w : Nat} (x y : BitVec w) : (x.toNat == y.toNat) = (x == y) := by
  rw [Bool.eq_iff_iff, beq_iff_eq, beq_iff_eq, BitVec.toNat_inj]

/-- The type nibble of a WH2-family frame meets its constant. -/
theorem sanityPasses_wh2 (v : Variant) (x : Wh2Frame) (rest : List Byte)
    (h : fpl.sanity v = some ⟨[⟨0, 7, 4⟩], 0x4⟩) : sanityPasses fpl v (wh2Bytes x ++ rest) = (x.type == 0x4#4) := by
  rw [sanityPasses_some _ _ _ _ h, rawValue_wh2Type]
  exact toNat_beq x.type 0x4#4

/-- The family byte of a WH24 or WH65B frame meets its constant. -/
theorem sanityPasses_wh24 (v : Variant) (x : Wh24Frame) (h : fpl.sanity v = some ⟨[⟨0, 7, 0⟩], 0x24⟩) :
    sanityPasses fpl v (wh24Bytes x) = (x.family == 0x24#8) := by
  rw [sanityPasses_some _ _ _ _ h, rawValue_wh24Family]
  exact toNat_beq x.family 0x24#8

/-- The sanity test of a row instruction's frame is the test of its operands. -/
theorem sanityPasses_located (i : Instr) (l : Located) (h : locatedOf i = some l) :
    sanityPasses fpl l.variant l.frame = constantsHold i := by
  cases i with
  | decodeWh2 | decodeWh0530 | decodeWh24 | decodeWh25 | decodeWh51 | reserved5 | reserved6 | reserved7 => cases h
  | wh2 x | wh5 x | telldus x =>
    cases h
    exact sanityPasses_wh2 _ x [] rfl
  | wh2a x pad =>
    cases h
    exact sanityPasses_wh2 _ x [pad] rfl
  | wh24 off x | wh65b off x =>
    cases h
    exact sanityPasses_wh24 _ x rfl
  | wh0530 | alectoV1 | alectoV2 | alectoV2Dcf | wh25 | wh32b | wh32 | wh0290 | wh51 =>
    cases h
    exact sanityPasses_none _ _ _ rfl

/-! ### The verdict of a row instruction (spec/60_exceptions.md R198) -/

/-- A failing check ends in `FAIL_INTEGRITY`, whatever the constants are. -/
theorem finish_of_check_fails (c : Config) (l : Located) (s : State) (h : checkPasses c l.variant l.frame = false) :
    finish c l s = raise .failIntegrity s := by
  have hverdict : verdict c l.variant l.frame = .failIntegrity := by simp [verdict, h]
  rw [finish_fail c l s (by simp [hverdict]), hverdict]

/-- Sound checks and a wrong constant end in `FAIL_SANITY`. -/
theorem finish_of_sanity_fails (c : Config) (l : Located) (s : State) (hcheck : checkPasses c l.variant l.frame = true)
    (h : sanityPasses c l.variant l.frame = false) : finish c l s = raise .failSanity s := by
  have hverdict : verdict c l.variant l.frame = .failSanity := by simp [verdict, hcheck, h]
  rw [finish_fail c l s (by simp [hverdict]), hverdict]

/-- The frame of a row instruction has its variant's length (spec/30_encoding.md R64). -/
theorem located_length (i : Instr) (l : Located) (h : locatedOf i = some l) :
    l.frame.length = fpl.frameLen l.variant := by
  cases i with
  | decodeWh2 | decodeWh0530 | decodeWh24 | decodeWh25 | decodeWh51 | reserved5 | reserved6 | reserved7 => cases h
  | wh2 | wh2a | wh5 | telldus | wh0530 | alectoV1 | alectoV2 | alectoV2Dcf
  | wh24 | wh65b | wh25 | wh32b | wh32 | wh0290 | wh51 =>
    cases h
    rfl

/-- The offset of a row instruction fits the register `BITOFF`. -/
theorem located_off_lt (i : Instr) (l : Located) (h : locatedOf i = some l) : l.off < 2 ^ 16 := by
  cases i with
  | decodeWh2 | decodeWh0530 | decodeWh24 | decodeWh25 | decodeWh51 | reserved5 | reserved6 | reserved7 => cases h
  | wh2 | wh2a | wh5 | telldus | wh0530 | alectoV1 | alectoV2 | alectoV2Dcf =>
    cases h
    simp
  | wh24 off | wh65b off | wh25 off | wh32b off | wh32 off | wh0290 off | wh51 off =>
    cases h
    exact off.isLt

/-- The output write of `OK` completes the transaction on its frame (spec/10_state.md R24). -/
theorem commit_completed (l : Located) (r : Record) (s : State) (hlen : l.frame.length = fpl.frameLen l.variant)
    (hoff : l.off < 2 ^ 16) : Completed l s (commit l (fpl.frameLen l.variant) r s) := by
  have hflen : l.frame.length < 2 ^ 5 := by
    have hle := frameLen_le l.variant
    omega
  refine ⟨rfl, rfl, rfl, rfl, ?bitoff, ?flen, fun k hk => frameRegisters_get l.frame k hk, commit_sameInputs l _ r s⟩
  case bitoff => exact Nat.mod_eq_of_lt hoff
  case flen =>
    rw [← hlen]
    exact Nat.mod_eq_of_lt hflen

/-- Settles O21: a row instruction is `FINISH` on its frame, whose tests are those of its operands. -/
theorem rowInstructionsReportTheirVerdict : Obligations.RowInstructionsReportTheirVerdict := by
  intro i l s h
  have hcheck := checkPasses_located i l h
  have hsanity := sanityPasses_located i l h
  refine ⟨finish fpl l s, exec_located i l s h, fun hbad => ?integrity, fun hok hbad => ?sanity, fun hok hsane => ?complete⟩
  case integrity =>
    rw [finish_of_check_fails fpl l s (hcheck.trans hbad)]
    exact raise_failedWith _ s
  case sanity =>
    rw [finish_of_sanity_fails fpl l s (hcheck.trans hok) (hsanity.trans hbad)]
    exact raise_failedWith _ s
  case complete =>
    have hverdict : verdict fpl l.variant l.frame = .ok := by simp [verdict, hcheck, hok, hsanity, hsane]
    rw [finish_ok fpl l s hverdict]
    exact commit_completed l _ s (located_length i l h) (located_off_lt i l h)

/-! ### A flipped bit before the trailer (spec/41_integrity.md R107) -/

/-- The first check of every variant runs over all bytes before the trailer, against the trailer's first byte, with a
function that sees every change of one byte (spec/41_integrity.md R105). -/
theorem integrity_first (v : Variant) :
    ∃ fn rest, fpl.integrity v = ⟨fn, 0, nonTrailer v - 1, nonTrailer v⟩ :: rest ∧ (fn = .crc8 ∨ fn = .sum8) := by
  cases v with
  | wh2 | wh2a | wh5 | telldus | wh0530 | wh24 | wh65b | wh0290 | wh51 | alectoV1 | alectoV2 | alectoV2Dcf =>
    exact ⟨.crc8, _, rfl, .inl rfl⟩
  | wh25 | wh32 | wh32b => exact ⟨.sum8, _, rfl, .inr rfl⟩

/-- Every frame has bytes before its trailer and a trailer. -/
theorem nonTrailer_bounds (v : Variant) : 0 < nonTrailer v ∧ nonTrailer v < fpl.frameLen v := by
  cases v <;> decide

/-- The CRC and the checksum see every change of one byte. -/
theorem checkValue_set_ne (fn : CheckFn) (hfn : fn = .crc8 ∨ fn = .sum8) (m : List Byte) (k : Nat) (b : Byte)
    (hk : k < m.length) (hb : b ≠ m.getD k 0) : checkValue fpl fn (m.set k b) ≠ checkValue fpl fn m := by
  obtain rfl | rfl := hfn
  · exact crc8_set_ne m k b hk hb
  · exact sum8_set_ne m k b hk hb

/-- A slice from the start of the frame. -/
theorem frameSlice_zero (f : List Byte) (n : Nat) (hn : 0 < n) : frameSlice f 0 (n - 1) = f.take n := by
  rw [frameSlice, List.drop_zero, Nat.sub_add_cancel hn, Nat.sub_zero]

/-- A check over the first `n` bytes against the next one, once it holds, fails on any change of one of the `n` bytes. -/
theorem checkHolds_set (f : List Byte) (fn : CheckFn) (hfn : fn = .crc8 ∨ fn = .sum8) (n k : Nat) (b : Byte)
    (hn : n ≤ f.length) (hk : k < n) (hb : b ≠ f.getD k 0) (h : checkHolds fpl f ⟨fn, 0, n - 1, n⟩ = true) :
    checkHolds fpl (f.set k b) ⟨fn, 0, n - 1, n⟩ = false := by
  have hpos : 0 < n := Nat.zero_lt_of_lt hk
  have htrailer : (f.set k b).getD n 0 = f.getD n 0 := by
    simp [List.getD_eq_getElem?_getD, List.getElem?_set_ne (Nat.ne_of_lt hk)]
  have hcovered : k < (f.take n).length := by simpa using ⟨hk, Nat.lt_of_lt_of_le hk hn⟩
  have hbyte : b ≠ (f.take n).getD k 0 := by simpa [List.getD_eq_getElem?_getD, List.getElem?_take, hk] using hb
  have hne := checkValue_set_ne fn hfn (f.take n) k b hcovered hbyte
  simp only [checkHolds, frameSlice_zero _ n hpos, htrailer, List.take_set, beq_iff_eq, beq_eq_false_iff_ne] at h ⊢
  exact h ▸ hne

/-- A sound frame of its variant's length is no longer sound with one byte before the trailer changed. -/
theorem checkPasses_set (v : Variant) (f : List Byte) (k : Nat) (b : Byte) (hlen : f.length = fpl.frameLen v)
    (hk : k < nonTrailer v) (hb : b ≠ f.getD k 0) (h : checkPasses fpl v f = true) :
    checkPasses fpl v (f.set k b) = false := by
  obtain ⟨fn, rest, htable, hfn⟩ := integrity_first v
  have hn : nonTrailer v ≤ f.length := hlen ▸ (nonTrailer_bounds v).2.le
  rw [checkPasses, htable, List.all_cons, Bool.and_eq_true] at h
  rw [checkPasses, htable, List.all_cons, checkHolds_set f fn hfn _ k b hn hk hb h.1, Bool.false_and]

/-- A row instruction that ended with `OK` had sound checks. -/
theorem checkPasses_of_exec_ok (i : Instr) (l : Located) (s t : State) (h : locatedOf i = some l)
    (hexec : exec i s = .next t) (hok : t.outcome = .ok) : checkPasses fpl l.variant l.frame = true := by
  rw [exec_located i l s h] at hexec
  cases hexec
  by_contra hcheck
  rw [finish_of_check_fails fpl l s (by simpa using hcheck)] at hok
  cases hok

/-- Settles O31: the first check of the variant covers the flipped bit and sees it. -/
theorem singleBitFlipFailsIntegrity : Obligations.SingleBitFlipFailsIntegrity := by
  intro i i' l l' k j s t hl hl' hvariant hk hj hframe hexec hok
  have hsound := checkPasses_of_exec_ok i l s t hl hexec hok
  have hbroken : checkPasses fpl l'.variant l'.frame = false := by
    rw [hvariant, hframe]
    exact checkPasses_set l.variant l.frame k _ (located_length i l hl) hk (xor_twoPow_ne _ j hj) hsound
  refine ⟨raise .failIntegrity s, ?_, raise_failedWith _ s⟩
  rw [exec_located i' l' s hl', finish_of_check_fails fpl l' s hbroken]

end Sys2Proof.Machine
end

section
/-! PROOF. The functional units of spec/42_unpack_scale.md: the UV index by its thresholds (R122), and the range of each
conversion, which the table of R119 bounds for every descriptor of every variant. -/

namespace Sys2Proof.Machine

/-! ### The UV index (spec/42_unpack_scale.md R122) -/

/-- A first threshold that the raw value passes counts one. -/
theorem uvIndex_cons_of_lt {t raw : Nat} (ts : List Nat) (h : t < raw) : uvIndex (t :: ts) raw = uvIndex ts raw + 1 :=
  if_pos h

/-- A first threshold that the raw value does not pass ends the count. -/
theorem uvIndex_cons_of_le {t raw : Nat} (ts : List Nat) (h : raw ≤ t) : uvIndex (t :: ts) raw = 0 :=
  if_neg h.not_gt

/-- The index counts the thresholds below the raw value: in an ascending table none that is passed follows the first that
is not. -/
theorem uvIndex_eq_length_filter (ts : List Nat) (hts : ts.Pairwise (· < ·)) (raw : Nat) :
    uvIndex ts raw = (ts.filter (fun t => decide (t < raw))).length := by
  induction ts with
  | nil => rfl
  | cons t ts ih =>
    obtain ⟨hfirst, hrest⟩ := List.pairwise_cons.1 hts
    obtain hlt | hle := lt_or_ge t raw
    · rw [uvIndex_cons_of_lt ts hlt, ih hrest, List.filter_cons_of_pos (by simpa using hlt), List.length_cons]
    · have hnone : (t :: ts).filter (fun u => decide (u < raw)) = [] := by
        rw [List.filter_eq_nil_iff]
        intro u hu
        obtain rfl | hu := List.mem_cons.1 hu
        · simpa using hle
        · simpa using hle.trans (hfirst u hu).le
      rw [uvIndex_cons_of_le ts hle, hnone, List.length_nil]

/-- A greater raw value passes every threshold that a smaller one passes. -/
theorem uvIndex_mono (ts : List Nat) {a b : Nat} (hab : a ≤ b) : uvIndex ts a ≤ uvIndex ts b := by
  induction ts with
  | nil => rfl
  | cons t ts ih =>
    obtain hlt | hle := lt_or_ge t a
    · rw [uvIndex_cons_of_lt ts hlt, uvIndex_cons_of_lt ts (hlt.trans_le hab)]
      exact Nat.succ_le_succ ih
    · rw [uvIndex_cons_of_le ts hle]
      exact Nat.zero_le _

/-- A raw value above the first `i` thresholds, and not above the next one if there is one, has the index `i`. -/
theorem uvIndex_eq_of_first_not_passed (ts : List Nat) (raw i : Nat) (hi : i ≤ ts.length)
    (hpassed : ∀ k (h : k < ts.length), k < i → ts[k] < raw) (hnext : ∀ h : i < ts.length, raw ≤ ts[i]) :
    uvIndex ts raw = i := by
  induction ts generalizing i with
  | nil => exact (Nat.le_zero.1 hi).symm
  | cons t ts ih =>
    cases i with
    | zero => exact uvIndex_cons_of_le ts (hnext (Nat.succ_pos _))
    | succ i =>
      have hfirst : t < raw := hpassed 0 (Nat.succ_pos _) (Nat.succ_pos _)
      have hrest : uvIndex ts raw = i :=
        ih i (Nat.le_of_succ_le_succ hi) (fun k h hk => hpassed (k + 1) (Nat.succ_lt_succ h) (Nat.succ_lt_succ hk))
          fun h => hnext (Nat.succ_lt_succ h)
      rw [uvIndex_cons_of_lt ts hfirst, hrest]

/-- Settles O35: the count by induction over the table; at threshold `i` and one above it, the first threshold that is not
passed is the one at `i`, respectively at `i + 1`. -/
theorem uvIndexCountsThresholds : Obligations.UvIndexCountsThresholds := by
  intro ts hts
  have hmono : ∀ j k (hj : j < ts.length) (hk : k < ts.length), j < k → ts[j] < ts[k] := List.pairwise_iff_getElem.1 hts
  refine ⟨uvIndex_eq_length_filter ts hts, fun a b => uvIndex_mono ts, fun i hi => ⟨?equal, ?above⟩⟩
  case equal =>
    exact uvIndex_eq_of_first_not_passed ts _ i hi.le (fun k hk hki => hmono k i hk hi hki) fun _ => le_rfl
  case above =>
    refine uvIndex_eq_of_first_not_passed ts _ (i + 1) hi (fun k hk hki => ?_)
      fun hnext => hmono i (i + 1) hi hnext (Nat.lt_succ_self i)
    obtain hlt | rfl := Nat.lt_succ_iff_lt_or_eq.1 hki
    · exact (hmono k i hk hi hlt).trans (Nat.lt_succ_self _)
    · exact Nat.lt_succ_self _

/-! ### The range of each conversion (spec/42_unpack_scale.md R119) -/

/-- The least and the greatest temperature of a `w`-bit raw value up to `m` (spec/42_unpack_scale.md R113, R114). -/
def temperatureBounds (w m : Nat) : Option TempPolicy → Int × Int
  | some .signMag => (1 - 2 ^ (w - 1), 2 ^ (w - 1) - 1)
  | some .offset40 => (-400, m - 400)
  | none => (0, m)

/-- The least and the greatest value of a conversion on the `w`-bit raw values up to `m`. -/
def convertBounds (c : Config) (v : Variant) (w m : Nat) : Conv → Int × Int
  | .raw => (0, m)
  | .temp => temperatureBounds w m (c.tempPolicy v)
  | .rain => (0, m * c.rainMilli v)
  | .wind => (0, m * windE5 c v)
  | .uvIndex => (0, c.uviThresh.length)
  | .battFlag => (1 - m, 1)
  | .milliVolt => (0, m * 100)
  | .battFraction => (-700, m * 100 - 700)

/-- The magnitude of a sign-magnitude temperature has one bit less than the raw value (spec/42_unpack_scale.md R113). -/
theorem tempSignMag_between (w raw : Nat) :
    1 - 2 ^ (w - 1) ≤ tempSignMag w raw ∧ tempSignMag w raw ≤ 2 ^ (w - 1) - 1 := by
  have hmag : ((raw % 2 ^ (w - 1) : Nat) : Int) < 2 ^ (w - 1) := by
    exact_mod_cast Nat.mod_lt raw (Nat.two_pow_pos (w - 1))
  unfold tempSignMag
  split <;> omega

/-- A temperature stays in the bounds of its policy. -/
theorem temperature_between (p : Option TempPolicy) (w m raw : Nat) (h : raw ≤ m) :
    (temperatureBounds w m p).1 ≤ temperature p w raw ∧ temperature p w raw ≤ (temperatureBounds w m p).2 := by
  cases p with
  | none =>
    simp only [temperatureBounds, temperature]
    omega
  | some policy =>
    cases policy with
    | signMag => exact tempSignMag_between w raw
    | offset40 =>
      simp only [temperatureBounds, temperature, tempOffset40]
      omega

/-- A raw value scaled by a constant stays between 0 and the scaled greatest raw value. -/
theorem scaled_between {raw m : Nat} (k : Nat) (h : raw ≤ m) :
    (0 : Int) ≤ (raw * k : Nat) ∧ ((raw * k : Nat) : Int) ≤ m * k :=
  ⟨Int.natCast_nonneg _, by exact_mod_cast Nat.mul_le_mul_right k h⟩

/-- Every conversion stays in its bounds. -/
theorem convert_between (c : Config) (v : Variant) (w m raw : Nat) (op : Conv) (h : raw ≤ m) :
    (convertBounds c v w m op).1 ≤ convert c v w op raw ∧ convert c v w op raw ≤ (convertBounds c v w m op).2 := by
  cases op with
  | temp => exact temperature_between (c.tempPolicy v) w m raw h
  | rain => exact scaled_between (c.rainMilli v) h
  | wind => exact scaled_between (windE5 c v) h
  | milliVolt => exact scaled_between 100 h
  | uvIndex =>
    have hle := uvIndex_le c.uviThresh raw
    simp only [convertBounds, convert]
    omega
  | raw | battFlag | battFraction =>
    simp only [convertBounds, convert]
    omega

/-- The greatest raw value that a descriptor converts: one less where the greatest of its width is the sentinel, as every
sentinel of the layouts is (spec/42_unpack_scale.md R112). -/
def greatestRaw (d : FieldDesc) : Nat :=
  if d.sentinel = some (2 ^ d.width - 1) then 2 ^ d.width - 2 else 2 ^ d.width - 1

/-- A raw value of a field's width that is not its sentinel is at most the greatest one converted. -/
theorem le_greatestRaw (d : FieldDesc) (raw : Nat) (hlt : raw < 2 ^ d.width) (hs : d.sentinel ≠ some raw) :
    raw ≤ greatestRaw d := by
  unfold greatestRaw
  split
  · rename_i hall
    have hne : raw ≠ 2 ^ d.width - 1 := fun he => hs (he ▸ hall)
    omega
  · omega

/-- The table of R119 holds the bounds of every descriptor of every variant. -/
theorem layout_bounds (v : Variant) : ∀ d ∈ fpl.layout v,
    fieldMin d.reg ≤ (convertBounds fpl v d.width (greatestRaw d) d.conv).1 ∧
    (convertBounds fpl v d.width (greatestRaw d) d.conv).2 ≤ fieldMax d.reg := by
  cases v <;> decide

/-- A field of a decoded record, where present, lies in its range. -/
theorem decodeFields_between (v : Variant) (f : List Byte) (g : Field) (n : Int)
    (h : (decodeFields fpl v f).value g = some n) : fieldMin g ≤ n ∧ n ≤ fieldMax g := by
  by_cases hnamed : ∃ d ∈ fpl.layout v, d.reg = g
  · obtain ⟨d, hd, rfl⟩ := hnamed
    rw [decodeFields_value v f d hd] at h
    split at h
    · cases h
    · rename_i hs
      cases h
      have hlt := rawValue_lt f d.segs
      rw [layout_width v d hd] at hlt
      obtain ⟨hmin, hmax⟩ := layout_bounds v d hd
      obtain ⟨hlow, hhigh⟩ := convert_between fpl v d.width (greatestRaw d) _ d.conv (le_greatestRaw d _ hlt hs)
      exact ⟨hmin.trans hlow, hhigh.trans hmax⟩
  · rw [decodeFields_other v f g fun d hd he => hnamed ⟨d, hd, he⟩] at h
    cases h

/-- Settles O30: an instruction that ends with `OK` has committed a decoded record. -/
theorem fieldValuesStayInRange : Obligations.FieldValuesStayInRange := by
  intro i s t f n hexec hok hvalue
  obtain ⟨o, ho, rfl⟩ | ⟨l, -, -, rfl⟩ := exec_next i s t hexec
  · exact absurd hok ho
  · exact decodeFields_between l.variant l.frame f n hvalue

end Sys2Proof.Machine
end

section
/-! PROOF. The commands (spec/43_classifier.md): each entry point's decision tree branch by branch, and that a command on
a row does what the row instruction in it does. -/

namespace Sys2Proof.Machine

/-! ### From a tree's answer to the command's end -/

/-- A command on a row of `n` bits whose tree locates a frame ends with `FINISH` on it. -/
theorem finishesWith_of_tree (e : Entry) (l : Located) (s : State) (n : Nat) (hn : s.bitcnt.toNat = n) (hle : n ≤ 1024)
    (h : classifyTree fpl e n s.row = .ok l) : FinishesWith (commandOf e) l s := by
  subst hn
  exact finishesWith_of_classify e l s ((classify_tree e _ s.row hle).trans h)

/-- A command on a row of `n` bits whose tree raises an outcome ends with it. -/
theorem endsWith_of_tree (e : Entry) (o : OutcomeCode) (s : State) (n : Nat) (hn : s.bitcnt.toNat = n) (hle : n ≤ 1024)
    (h : classifyTree fpl e n s.row = .error (.outcome o)) : EndsWith (commandOf e) o s := by
  subst hn
  exact endsWith_of_classify e o s ((classify_tree e _ s.row hle).trans h)

/-! ### Headers and the frame at a fixed offset -/

/-- A header that holds another value ends the tree in `ABORT_EARLY`, whatever follows it (spec/60_exceptions.md R193). -/
theorem headerTest_bind_fail {α : Type} (m : Memory) (off w value x : Nat) (next : Except Stop α)
    (h : rowRead m off w = .ok x) (hne : x ≠ value) :
    ((headerTest m off w value).bind fun _ => next) = .error (.outcome .abortEarly) := by
  rw [headerTest_fail m off w value x h hne]
  rfl

/-- A header test that passed has read its value. -/
theorem rowRead_of_headerTest (m : Memory) (off w value : Nat) (h : headerTest m off w value = .ok ()) :
    rowRead m off w = .ok value := by
  obtain ⟨x, hx, hcmp⟩ := bind_ok _ _ _ (headerTest_eq m off w value ▸ h)
  split at hcmp
  · next heq => rw [hx, heq]
  · cases hcmp

/-- The upper nibble of a byte as a quotient. -/
theorem byteSlice_upper_eq_div (b : Byte) : byteSlice b 7 4 = b.toNat / 16 := Nat.mod_eq_of_lt (by omega)

/-- The first four bits of an extracted frame are the upper nibble of its first byte. -/
theorem rowFrame_nibble (m : Memory) (off n : Nat) (f : List Byte) (h : rowFrame m off (n + 1) = .ok f) :
    rowRead m off 4 = .ok (byteSlice (byteAt f 0) 7 4) := by
  rw [byteSlice_upper_eq_div]
  exact rowRead_upper m off 4 4 _ (rowFrame_first m off n f h)

/-- The fixed-position location answers the frame read at the variant's offset (spec/40_locator.md R93). -/
theorem locateFixed_of_frame (n : Nat) (m : Memory) (v : Variant) (off : Nat) (f : List Byte)
    (hoff : fpl.fixedOff v = some off) (hframe : rowFrame m off (fpl.frameLen v) = .ok f)
    (hn : off + 8 * fpl.frameLen v ≤ n) : locateFixed fpl n m v = .ok ⟨v, off, f⟩ := by
  rw [locateFixed_eq fpl n m v off hoff, extract_fits n m off _ hn, hframe]
  rfl

/-! ### `DECODE.WH2` (spec/43_classifier.md R132) -/

/-- `E_WH2` at a length it does not know. -/
theorem treeWh2_otherLength (n : Nat) (m : Memory) (h : n ∉ [47, 48, 49, 55]) :
    treeWh2 fpl n m = .error (.outcome .abortLength) := by
  simp only [List.mem_cons, List.not_mem_nil, or_false, not_or] at h
  obtain ⟨h47, h48, h49, h55⟩ := h
  rw [treeWh2, if_neg h48, if_neg h55, if_neg h47, if_neg h49]

/-- Settles O16: the length chooses the branch, whose header tests pass or fail by what they read. -/
theorem wh2CommandFollowsItsTree : Obligations.Wh2CommandFollowsItsTree := by
  intro s f h
  refine ⟨?wh2, ?wh2a, ?wh5, ?telldus, ?notFf, ?notFe, ?notNinth, ?otherLength⟩
  case wh2 =>
    intro hn hheader hframe
    exact finishesWith_of_tree .wh2 _ s 48 hn (by omega)
      ((headerTest_bind_pass _ 0 8 0xFF _ hheader).trans (locateFixed_of_frame 48 _ .wh2 8 f rfl hframe (by decide)))
  case wh2a =>
    intro hn hheader hframe
    exact finishesWith_of_tree .wh2 _ s 55 hn (by omega)
      ((headerTest_bind_pass _ 0 8 0xFE _ hheader).trans (locateFixed_of_frame 55 _ .wh2a 7 f rfl hframe (by decide)))
  case wh5 =>
    intro hn hheader hframe
    exact finishesWith_of_tree .wh2 _ s 47 hn (by omega)
      ((headerTest_bind_pass _ 0 8 0xFE _ hheader).trans (locateFixed_of_frame 47 _ .wh5 7 f rfl hframe (by decide)))
  case telldus =>
    intro hn hheader hninth hframe
    exact finishesWith_of_tree .wh2 _ s 49 hn (by omega)
      ((headerTest_bind_pass _ 0 8 0xFF _ hheader).trans ((headerTest_bind_pass _ 8 1 1 _ hninth).trans
        (locateFixed_of_frame 49 _ .telldus 9 f rfl hframe (by decide))))
  case notFf =>
    intro hn hheader hne
    obtain hn | hn : s.bitcnt.toNat = 48 ∨ s.bitcnt.toNat = 49 := by simpa using hn
    · exact endsWith_of_tree .wh2 _ s 48 hn (by omega) (headerTest_bind_fail _ 0 8 0xFF h _ hheader hne)
    · exact endsWith_of_tree .wh2 _ s 49 hn (by omega) (headerTest_bind_fail _ 0 8 0xFF h _ hheader hne)
  case notFe =>
    intro hn hheader hne
    obtain hn | hn : s.bitcnt.toNat = 47 ∨ s.bitcnt.toNat = 55 := by simpa using hn
    · exact endsWith_of_tree .wh2 _ s 47 hn (by omega) (headerTest_bind_fail _ 0 8 0xFE h _ hheader hne)
    · exact endsWith_of_tree .wh2 _ s 55 hn (by omega) (headerTest_bind_fail _ 0 8 0xFE h _ hheader hne)
  case notNinth =>
    intro hn hheader hninth hne
    exact endsWith_of_tree .wh2 _ s 49 hn (by omega)
      ((headerTest_bind_pass _ 0 8 0xFF _ hheader).trans (headerTest_bind_fail _ 8 1 1 h _ hninth hne))
  case otherLength =>
    intro hle hn
    exact endsWith_of_tree .wh2 _ s _ rfl hle (treeWh2_otherLength _ s.row hn)

/-! ### `DECODE.WH0530` (spec/43_classifier.md R134, R135, R136) -/

/-- `ALECTO_V2` after its seven ones: the byte `0x52` is tested before the type nibble (spec/43_classifier.md R136). -/
theorem treeWh0530_at95 (m : Memory) (b : Nat) (hheader : rowRead m 0 7 = .ok 0x7F) (hbyte : rowRead m 7 8 = .ok b) :
    treeWh0530 fpl 95 m =
      if b = 0x52 then locateFixed fpl 95 m .alectoV2Dcf
      else (headerTest m 7 4 0x3).bind fun _ => locateFixed fpl 95 m .alectoV2 := by
  have htree : treeWh0530 fpl 95 m =
      (headerTest m 0 7 0x7F).bind fun _ => (rowRead m 7 8).bind fun t =>
        if t = 0x52 then locateFixed fpl 95 m .alectoV2Dcf
        else (headerTest m 7 4 0x3).bind fun _ => locateFixed fpl 95 m .alectoV2 := rfl
  rw [htree, headerTest_bind_pass _ _ _ _ _ hheader, hbyte]
  rfl

/-- `E_WH0530` at a length it does not know. -/
theorem treeWh0530_otherLength (n : Nat) (m : Memory) (h : n ∉ [63, 71, 95]) :
    treeWh0530 fpl n m = .error (.outcome .abortLength) := by
  simp only [List.mem_cons, List.not_mem_nil, or_false, not_or] at h
  obtain ⟨h63, h71, h95⟩ := h
  rw [treeWh0530, if_neg h63, if_neg h95, if_neg h71]

/-- A frame of type nibble 3 does not start with `0x52`: the two branches of `ALECTO_V2` exclude each other. -/
theorem firstByte_ne_of_nibble (m : Memory) (off n : Nat) (f : List Byte) (hframe : rowFrame m off (n + 1) = .ok f)
    (hnibble : rowRead m off 4 = .ok 0x3) : (byteAt f 0).toNat ≠ 0x52 := by
  have hread := (rowFrame_nibble m off n f hframe).symm.trans hnibble
  injection hread with hnib
  rw [byteSlice_upper_eq_div] at hnib
  omega

/-- Settles O17: the length chooses the branch, whose header tests pass or fail by what they read. -/
theorem wh0530CommandFollowsItsTree : Obligations.Wh0530CommandFollowsItsTree := by
  intro s f h g
  refine ⟨?wh0530, ?alectoV1, ?dcf, ?alectoV2, ?notOnes, ?notThree, ?neither, ?otherLength⟩
  case wh0530 =>
    intro hn hheader hnibble hframe
    exact finishesWith_of_tree .wh0530 _ s 71 hn (by omega)
      ((headerTest_bind_pass _ 0 7 0x7F _ hheader).trans ((headerTest_bind_pass _ 7 4 0x3 _ hnibble).trans
        (locateFixed_of_frame 71 _ .wh0530 7 f rfl hframe (by decide))))
  case alectoV1 =>
    intro hn hheader hnibble hframe
    exact finishesWith_of_tree .wh0530 _ s 63 hn (by omega)
      ((headerTest_bind_pass _ 0 7 0x7F _ hheader).trans ((headerTest_bind_pass _ 7 4 0x3 _ hnibble).trans
        (locateFixed_of_frame 63 _ .alectoV1 7 f rfl hframe (by decide))))
  case dcf =>
    intro hn hheader hbyte hframe
    exact finishesWith_of_tree .wh0530 _ s 95 hn (by omega)
      ((treeWh0530_at95 _ 0x52 hheader hbyte).trans ((if_pos rfl).trans
        (locateFixed_of_frame 95 _ .alectoV2Dcf 7 f rfl hframe (by decide))))
  case alectoV2 =>
    intro hn hheader hnibble hframe
    exact finishesWith_of_tree .wh0530 _ s 95 hn (by omega)
      ((treeWh0530_at95 _ _ hheader (rowFrame_first _ 7 10 f hframe)).trans
        ((if_neg (firstByte_ne_of_nibble _ 7 10 f hframe hnibble)).trans
          ((headerTest_bind_pass _ 7 4 0x3 _ hnibble).trans
            (locateFixed_of_frame 95 _ .alectoV2 7 f rfl hframe (by decide)))))
  case notOnes =>
    intro hn hheader hne
    obtain hn | hn | hn : s.bitcnt.toNat = 63 ∨ s.bitcnt.toNat = 71 ∨ s.bitcnt.toNat = 95 := by simpa using hn
    · exact endsWith_of_tree .wh0530 _ s 63 hn (by omega) (headerTest_bind_fail _ 0 7 0x7F h _ hheader hne)
    · exact endsWith_of_tree .wh0530 _ s 71 hn (by omega) (headerTest_bind_fail _ 0 7 0x7F h _ hheader hne)
    · exact endsWith_of_tree .wh0530 _ s 95 hn (by omega) (headerTest_bind_fail _ 0 7 0x7F h _ hheader hne)
  case notThree =>
    intro hn hheader hnibble hne
    obtain hn | hn : s.bitcnt.toNat = 63 ∨ s.bitcnt.toNat = 71 := by simpa using hn
    · exact endsWith_of_tree .wh0530 _ s 63 hn (by omega)
        ((headerTest_bind_pass _ 0 7 0x7F _ hheader).trans (headerTest_bind_fail _ 7 4 0x3 h _ hnibble hne))
    · exact endsWith_of_tree .wh0530 _ s 71 hn (by omega)
        ((headerTest_bind_pass _ 0 7 0x7F _ hheader).trans (headerTest_bind_fail _ 7 4 0x3 h _ hnibble hne))
  case neither =>
    intro hn hheader hbyte hne hnibble hne'
    exact endsWith_of_tree .wh0530 _ s 95 hn (by omega)
      ((treeWh0530_at95 _ h hheader hbyte).trans ((if_neg hne).trans
        (headerTest_bind_fail _ 7 4 0x3 g _ hnibble hne')))
  case otherLength =>
    intro hle hn
    exact endsWith_of_tree .wh0530 _ s _ rfl hle (treeWh0530_otherLength _ s.row hn)

/-! ### The preamble location (spec/40_locator.md R94) -/

/-- With room after the first preamble, `LOCATE_FSK` answers the frame read there. -/
theorem locateFsk_of_frame (n : Nat) (m : Memory) (len p : Nat) (f : List Byte) (hp : FirstPreamble fpl n m p)
    (hfits : p + 24 + 8 * len ≤ n) (hframe : rowFrame m (p + 24) len = .ok f) :
    locateFsk fpl n m len = .ok (p + 24, f) := by
  rw [locateFsk_found fpl n m len p hp, extract_fits n m _ len hfits, hframe]
  rfl

/-- Without room after the first preamble, `LOCATE_FSK` ends in `ABORT_LENGTH`. -/
theorem locateFsk_noRoom (n : Nat) (m : Memory) (len p : Nat) (hp : FirstPreamble fpl n m p)
    (hshort : n < p + 24 + 8 * len) : locateFsk fpl n m len = .error (.outcome .abortLength) := by
  rw [locateFsk_found fpl n m len p hp, extract_short n m _ len hshort]
  rfl

/-! ### `DECODE.WH24` (spec/43_classifier.md R137) -/

section wh24
variable (n : Nat) (m : Memory) (hlow : 190 ≤ n) (hhigh : n ≤ 215)
include hlow hhigh

/-- `E_WH24` on a located frame: the tie-break names the variant. -/
theorem treeWh24_of_located (off : Nat) (f : List Byte) (h : locateFsk fpl n m 17 = .ok (off, f)) :
    treeWh24 fpl n m = .ok ⟨if n - off - 136 < 8 ∧ off < 61 then .wh24 else .wh65b, off, f⟩ := by
  rw [treeWh24_eq, if_neg (by omega), h]
  rfl

/-- `E_WH24` stops where the location does. -/
theorem treeWh24_of_stop (x : Stop) (h : locateFsk fpl n m 17 = .error x) : treeWh24 fpl n m = .error x := by
  rw [treeWh24_eq, if_neg (by omega), h]
  rfl

end wh24

/-- Settles O18: by the length, then by where the preamble is and what room it leaves, then by the tie-break. -/
theorem wh24CommandFollowsItsTree : Obligations.Wh24CommandFollowsItsTree := by
  intro s f p
  refine ⟨?wh24, ?wh65b, ?noRoom, ?noPreamble, ?otherLength⟩
  case wh24 =>
    intro hlow hhigh hp hfits hframe hslack hoff
    have htree := treeWh24_of_located _ s.row hlow hhigh _ f (locateFsk_of_frame _ _ 17 p f hp hfits hframe)
    rw [if_pos ⟨hslack, hoff⟩] at htree
    exact finishesWith_of_tree .wh24 _ s _ rfl (by omega) htree
  case wh65b =>
    intro hlow hhigh hp hfits hframe htie
    have htree := treeWh24_of_located _ s.row hlow hhigh _ f (locateFsk_of_frame _ _ 17 p f hp hfits hframe)
    rw [if_neg htie] at htree
    exact finishesWith_of_tree .wh24 _ s _ rfl (by omega) htree
  case noRoom =>
    intro hlow hhigh hp hshort
    exact endsWith_of_tree .wh24 _ s _ rfl (by omega)
      (treeWh24_of_stop _ _ hlow hhigh _ (locateFsk_noRoom _ _ 17 p hp hshort))
  case noPreamble =>
    intro hlow hhigh hnone
    exact endsWith_of_tree .wh24 _ s _ rfl (by omega)
      (treeWh24_of_stop _ _ hlow hhigh _ (locateFsk_none fpl _ _ 17 hnone))
  case otherLength =>
    intro hle hout
    exact endsWith_of_tree .wh24 _ s _ rfl hle ((treeWh24_eq _ _).trans (if_pos hout))

/-! ### `DECODE.WH25` (spec/43_classifier.md R139, R141) -/

/-- `WH0290` on a located frame. -/
theorem treeWh0290_of_located (n : Nat) (m : Memory) (off : Nat) (f : List Byte)
    (h : locateFsk fpl n m 8 = .ok (off, f)) : treeWh0290 fpl n m = .ok ⟨.wh0290, off, f⟩ := by
  rw [treeWh0290_eq, h]
  rfl

/-- `E_WH25` from its tentative variant on a located frame: the type nibble and the byte `0x41` decide. -/
theorem treeWh25Tentative_of_located (n : Nat) (m : Memory) (t : Variant) (off : Nat) (f : List Byte)
    (h : locateFsk fpl n m 8 = .ok (off, f)) :
    treeWh25Tentative fpl n m t =
      if t = .wh32b ∧ (byteAt f 0).toNat / 16 = 0xD then .ok ⟨.wh32, off, f⟩
      else if (byteAt f 0).toNat / 16 = 0xE then .ok ⟨t, off, f⟩
      else if byteAt f 0 = 0x41 then .ok ⟨.wh0290, off, f⟩
      else .error (.outcome .abortEarly) := by
  rw [← byteSlice_upper_eq_div, treeWh25Tentative_eq, ← treeWh0290_of_located n m off f h, h]
  rfl

/-- `E_WH25` outside the lengths that it leaves to `E_WH24` stops where the location does. -/
theorem treeWh25_of_stop (n : Nat) (m : Memory) (x : Stop) (hn : ¬ (190 ≤ n ∧ n < 440))
    (h : locateFsk fpl n m 8 = .error x) : treeWh25 fpl n m = .error x := by
  by_cases hshort : n < 160
  · rw [treeWh25_eq, if_pos hshort, treeWh0290_eq, h]
    rfl
  · rw [treeWh25_tentative n m (by omega), treeWh25Tentative_eq, h]
    rfl

/-- `E_WH25` at 190 to 439 bits is `E_WH24`. -/
theorem treeWh25_middle (n : Nat) (m : Memory) (hlow : 190 ≤ n) (hhigh : n < 440) :
    treeWh25 fpl n m = treeWh24 fpl n m := by
  rw [treeWh25_eq, if_neg (by omega), if_neg (by omega), if_pos hhigh]

/-- `E_WH25` at 160 to 189 bits and above 510, on a located frame. -/
theorem treeWh25_tentativeWh32b (n : Nat) (m : Memory) (off : Nat) (f : List Byte)
    (hn : (160 ≤ n ∧ n < 190) ∨ 511 ≤ n) (h : locateFsk fpl n m 8 = .ok (off, f)) :
    treeWh25 fpl n m =
      if (byteAt f 0).toNat / 16 = 0xD then .ok ⟨.wh32, off, f⟩
      else if (byteAt f 0).toNat / 16 = 0xE then .ok ⟨.wh32b, off, f⟩
      else if byteAt f 0 = 0x41 then .ok ⟨.wh0290, off, f⟩
      else .error (.outcome .abortEarly) := by
  rw [treeWh25_tentative n m (by omega), if_neg (by omega), treeWh25Tentative_of_located n m _ off f h]
  simp only [true_and]

/-- `E_WH25` at 440 to 510 bits, on a located frame: the nibble `0xD` says nothing here. -/
theorem treeWh25_tentativeWh25 (n : Nat) (m : Memory) (off : Nat) (f : List Byte) (hlow : 440 ≤ n) (hhigh : n ≤ 510)
    (h : locateFsk fpl n m 8 = .ok (off, f)) :
    treeWh25 fpl n m =
      if (byteAt f 0).toNat / 16 = 0xE then .ok ⟨.wh25, off, f⟩
      else if byteAt f 0 = 0x41 then .ok ⟨.wh0290, off, f⟩
      else .error (.outcome .abortEarly) := by
  rw [treeWh25_tentative n m (by omega), if_pos ⟨hlow, hhigh⟩, treeWh25Tentative_of_located n m _ off f h,
    if_neg (by simp)]

/-- The upper nibble of the byte that re-delegates to `WH0290`: the branch excludes the ones before it. -/
theorem upperNibble_of_41 (b : Byte) (h : b = 0x41) : b.toNat / 16 = 0x4 := by
  subst h
  rfl

/-- Settles O19: by the length; outside 190 to 439 bits by the location, and from 160 bits on by the first byte. -/
theorem wh25CommandFollowsItsTree : Obligations.Wh25CommandFollowsItsTree := by
  intro s f p
  refine ⟨?middle, ?short, ?tentativeWh32b, ?tentativeWh25, ?noRoom, ?noPreamble⟩
  case middle =>
    intro hlow hhigh
    have hclassify : classify fpl .wh25 s.bitcnt.toNat s.row = classify fpl .wh24 s.bitcnt.toNat s.row := by
      rw [classify_tree _ _ _ (by omega), classify_tree _ _ _ (by omega)]
      exact treeWh25_middle _ s.row hlow hhigh
    change transact fpl .wh25 s = transact fpl .wh24 s
    rw [transact, transact, hclassify]
  case short =>
    intro hshort hp hframe hfits
    exact finishesWith_of_tree .wh25 _ s _ rfl (by omega) ((treeWh25_eq _ _).trans ((if_pos hshort).trans
      (treeWh0290_of_located _ _ _ f (locateFsk_of_frame _ _ 8 p f hp hfits hframe))))
  case tentativeWh32b =>
    intro hrange hp hframe hfits
    have hle : s.bitcnt.toNat ≤ 1024 := by omega
    have htree := treeWh25_tentativeWh32b _ s.row _ f (by omega) (locateFsk_of_frame _ _ 8 p f hp hfits hframe)
    refine ⟨fun hD => ?wh32, fun hE => ?wh32b, fun h41 => ?wh0290, fun hD hE h41 => ?other⟩
    case wh32 => exact finishesWith_of_tree .wh25 _ s _ rfl hle (htree.trans (if_pos hD))
    case wh32b =>
      rw [if_neg (by omega), if_pos hE] at htree
      exact finishesWith_of_tree .wh25 _ s _ rfl hle htree
    case wh0290 =>
      have hnibble := upperNibble_of_41 _ h41
      rw [if_neg (by omega), if_neg (by omega), if_pos h41] at htree
      exact finishesWith_of_tree .wh25 _ s _ rfl hle htree
    case other =>
      rw [if_neg hD, if_neg hE, if_neg h41] at htree
      exact endsWith_of_tree .wh25 _ s _ rfl hle htree
  case tentativeWh25 =>
    intro hlow hhigh hp hframe hfits
    have hle : s.bitcnt.toNat ≤ 1024 := by omega
    have htree := treeWh25_tentativeWh25 _ s.row _ f hlow hhigh (locateFsk_of_frame _ _ 8 p f hp hfits hframe)
    refine ⟨fun hE => ?wh25, fun h41 => ?wh0290, fun hE h41 => ?other⟩
    case wh25 => exact finishesWith_of_tree .wh25 _ s _ rfl hle (htree.trans (if_pos hE))
    case wh0290 =>
      have hnibble := upperNibble_of_41 _ h41
      rw [if_neg (by omega), if_pos h41] at htree
      exact finishesWith_of_tree .wh25 _ s _ rfl hle htree
    case other =>
      rw [if_neg hE, if_neg h41] at htree
      exact endsWith_of_tree .wh25 _ s _ rfl hle htree
  case noRoom =>
    intro hle hrange hp hshort
    exact endsWith_of_tree .wh25 _ s _ rfl hle
      (treeWh25_of_stop _ _ _ hrange (locateFsk_noRoom _ _ 8 p hp hshort))
  case noPreamble =>
    intro hle hrange hnone
    exact endsWith_of_tree .wh25 _ s _ rfl hle (treeWh25_of_stop _ _ _ hrange (locateFsk_none fpl _ _ 8 hnone))

/-! ### `DECODE.WH51` (spec/43_classifier.md R142) -/

/-- `E_WH51` on a located frame: the first byte decides. -/
theorem treeWh51_of_located (n : Nat) (m : Memory) (off : Nat) (f : List Byte)
    (h : locateFsk fpl n m 11 = .ok (off, f)) :
    treeWh51 fpl n m = if byteAt f 0 = 0x51 then .ok ⟨.wh51, off, f⟩ else .error (.outcome .abortEarly) := by
  rw [treeWh51_eq, h]
  rfl

/-- `E_WH51` stops where the location does. -/
theorem treeWh51_of_stop (n : Nat) (m : Memory) (x : Stop) (h : locateFsk fpl n m 11 = .error x) :
    treeWh51 fpl n m = .error x := by
  rw [treeWh51_eq, h]
  rfl

/-- Settles O20: by where the preamble is and what room it leaves, then by the first byte. -/
theorem wh51CommandFollowsItsTree : Obligations.Wh51CommandFollowsItsTree := by
  intro s f p hle
  refine ⟨?wh51, ?other, ?noRoom, ?noPreamble⟩
  case wh51 =>
    intro hp hframe hfits hbyte
    exact finishesWith_of_tree .wh51 _ s _ rfl hle
      ((treeWh51_of_located _ _ _ f (locateFsk_of_frame _ _ 11 p f hp hfits hframe)).trans (if_pos hbyte))
  case other =>
    intro hp hframe hfits hbyte
    exact endsWith_of_tree .wh51 _ s _ rfl hle
      ((treeWh51_of_located _ _ _ f (locateFsk_of_frame _ _ 11 p f hp hfits hframe)).trans (if_neg hbyte))
  case noRoom =>
    intro hp hshort
    exact endsWith_of_tree .wh51 _ s _ rfl hle (treeWh51_of_stop _ _ _ (locateFsk_noRoom _ _ 11 p hp hshort))
  case noPreamble =>
    intro hnone
    exact endsWith_of_tree .wh51 _ s _ rfl hle (treeWh51_of_stop _ _ _ (locateFsk_none fpl _ _ 11 hnone))

/-! ### A located frame is its row instruction's -/

/-- What a tree has read of a frame's first byte before it names the variant (spec/43_classifier.md R134 to R136, R139,
R142). -/
def TypeRead (v : Variant) (f : List Byte) : Prop :=
  match v with
  | .wh0530 | .alectoV1 | .alectoV2 => byteSlice (byteAt f 0) 7 4 = 0x3
  | .alectoV2Dcf => byteAt f 0 = 0x52
  | .wh25 | .wh32b => byteSlice (byteAt f 0) 7 4 = 0xE
  | .wh32 => byteSlice (byteAt f 0) 7 4 = 0xD
  | .wh51 => byteAt f 0 = 0x51
  | .wh2 | .wh2a | .wh5 | .telldus | .wh24 | .wh65b | .wh0290 => True

/-- A frame at its variant's fixed offset, if it has one, with the type its variant is named by: what is needed, beside
the length, for a row instruction to stand for it (spec/43_classifier.md R130). -/
def Tagged (l : Located) : Prop :=
  (∀ k, fpl.fixedOff l.variant = some k → l.off = k) ∧ TypeRead l.variant l.frame

/-- The upper nibble of a byte as a bit vector. -/
theorem nibble_of_byteSlice (b : Byte) (t : BitVec 4) (h : byteSlice b 7 4 = t.toNat) : b.extractLsb' 4 4 = t :=
  BitVec.eq_of_toNat_eq ((byteSlice_upper b).symm.trans h)

/-- A WH2A frame is the bytes of its operands and the ignored sixth byte. -/
theorem wh2aBytes_of (f : List Byte) (h : f.length = 6) : wh2Bytes (wh2Of f) ++ [byteAt f 5] = f := by
  match f, h with
  | [a, b, c, d, e, pad], _ => exact congrArg (· ++ [pad]) (wh2Bytes_of [a, b, c, d, e] rfl)

/-- The row instruction read from a tagged frame of its variant's length has that frame (spec/30_encoding.md R64, R66 to
R74). -/
theorem locatedOf_instrOf (l : Located) (htag : Tagged l) (hlen : l.frame.length = fpl.frameLen l.variant)
    (hoff : l.off < 2 ^ 16) : locatedOf (instrOf l) = some l := by
  obtain ⟨v, off, f⟩ := l
  obtain ⟨hfixed, htype⟩ := htag
  have hreg : (BitVec.ofNat 16 off).toNat = off := Nat.mod_eq_of_lt hoff
  cases v with
  | wh2 | wh5 | telldus =>
    cases hfixed _ rfl
    exact congrArg (fun g => some (Located.mk _ _ g)) (wh2Bytes_of f hlen)
  | wh2a =>
    cases hfixed _ rfl
    exact congrArg (fun g => some (Located.mk _ _ g)) (wh2aBytes_of f hlen)
  | wh0530 =>
    cases hfixed _ rfl
    exact congrArg (fun g => some (Located.mk _ _ g)) (wh0530Bytes_of f hlen (nibble_of_byteSlice _ 0x3 htype))
  | alectoV1 =>
    cases hfixed _ rfl
    exact congrArg (fun g => some (Located.mk _ _ g)) (alectoV1Bytes_of f hlen (nibble_of_byteSlice _ 0x3 htype))
  | alectoV2 =>
    cases hfixed _ rfl
    exact congrArg (fun g => some (Located.mk _ _ g)) (alectoV2Bytes_of f hlen (nibble_of_byteSlice _ 0x3 htype))
  | alectoV2Dcf =>
    cases hfixed _ rfl
    exact congrArg (fun g => some (Located.mk _ _ g)) (dcfBytes_of f hlen htype)
  | wh24 | wh65b =>
    exact congrArg₂ (fun k g => some (Located.mk _ k g)) hreg (wh24Bytes_of f hlen)
  | wh25 | wh32b =>
    exact congrArg₂ (fun k g => some (Located.mk _ k g)) hreg
      (wh25Bytes_of 0xE f hlen (nibble_of_byteSlice _ 0xE htype))
  | wh32 =>
    exact congrArg₂ (fun k g => some (Located.mk _ k g)) hreg
      (wh25Bytes_of 0xD f hlen (nibble_of_byteSlice _ 0xD htype))
  | wh0290 => exact congrArg₂ (fun k g => some (Located.mk _ k g)) hreg (wh0290Bytes_of f hlen)
  | wh51 => exact congrArg₂ (fun k g => some (Located.mk _ k g)) hreg (wh51Bytes_of f hlen htype)

/-! ### Every tree locates a tagged frame -/

/-- What the fixed-position location answers: the frame read at the variant's offset (spec/40_locator.md R93). -/
theorem locateFixed_read (n : Nat) (m : Memory) (v : Variant) (l : Located) (h : locateFixed fpl n m v = .ok l) :
    l.variant = v ∧ fpl.fixedOff v = some l.off ∧ rowFrame m l.off (fpl.frameLen v) = .ok l.frame := by
  cases ho : fpl.fixedOff v with
  | none => simp [locateFixed, ho] at h
  | some off =>
    rw [locateFixed_eq fpl n m v off ho] at h
    obtain ⟨f, hf, h⟩ := bind_ok _ _ _ h
    cases h
    obtain ⟨-, hframe, -⟩ := extract_ok _ _ _ _ _ hf
    exact ⟨rfl, rfl, hframe⟩

/-- A frame located at its variant's fixed offset is tagged where its bits say so. -/
theorem tagged_of_locateFixed (n : Nat) (m : Memory) (v : Variant) (l : Located) (h : locateFixed fpl n m v = .ok l)
    (htype : ∀ off, fpl.fixedOff v = some off → rowFrame m off (fpl.frameLen v) = .ok l.frame → TypeRead v l.frame) :
    Tagged l := by
  obtain ⟨rfl, hoff, hframe⟩ := locateFixed_read n m v l h
  exact ⟨fun k hk => Option.some.inj (hoff.symm.trans hk), htype l.off hoff hframe⟩

/-- A type nibble 3 read before the location of a variant of the WH0530 family tags it. -/
theorem tagged_of_nibbleThree (n len : Nat) (m : Memory) (v : Variant) (l : Located) (hoff : fpl.fixedOff v = some 7)
    (hlen : fpl.frameLen v = len + 1) (htype : ∀ f, byteSlice (byteAt f 0) 7 4 = 0x3 → TypeRead v f)
    (h : ((headerTest m 7 4 0x3).bind fun _ => locateFixed fpl n m v) = .ok l) : Tagged l := by
  obtain ⟨_, hnibble, h⟩ := bind_ok _ _ _ h
  refine tagged_of_locateFixed n m v l h fun off hk hframe => htype _ ?_
  obtain rfl := Option.some.inj (hoff.symm.trans hk)
  rw [hlen] at hframe
  exact Except.ok.inj ((rowFrame_nibble m 7 len _ hframe).symm.trans (rowRead_of_headerTest m 7 4 _ hnibble))

/-- `E_WH2` locates a tagged frame. -/
theorem treeWh2_tagged (n : Nat) (m : Memory) (l : Located) (h : treeWh2 fpl n m = .ok l) : Tagged l := by
  unfold treeWh2 at h
  split at h
  · obtain ⟨-, -, h⟩ := bind_ok _ _ _ h
    exact tagged_of_locateFixed n m .wh2 l h fun _ _ _ => trivial
  split at h
  · obtain ⟨-, -, h⟩ := bind_ok _ _ _ h
    exact tagged_of_locateFixed n m .wh2a l h fun _ _ _ => trivial
  split at h
  · obtain ⟨-, -, h⟩ := bind_ok _ _ _ h
    exact tagged_of_locateFixed n m .wh5 l h fun _ _ _ => trivial
  split at h
  · obtain ⟨-, -, h⟩ := bind_ok _ _ _ h
    obtain ⟨-, -, h⟩ := bind_ok _ _ _ h
    exact tagged_of_locateFixed n m .telldus l h fun _ _ _ => trivial
  · cases h

/-- `ALECTO_V2` locates a tagged frame: the byte `0x52` it has read is the frame's first. -/
theorem treeAlectoV2_tagged (n : Nat) (m : Memory) (l : Located) (h : treeAlectoV2 fpl n m = .ok l) : Tagged l := by
  unfold treeAlectoV2 at h
  obtain ⟨-, -, h⟩ := bind_ok _ _ _ h
  obtain ⟨t, hbyte, h⟩ := bind_ok _ _ _ h
  split at h
  · next h52 =>
    refine tagged_of_locateFixed n m .alectoV2Dcf l h fun off hk hframe => ?_
    cases hk
    have hfirst := Except.ok.inj ((rowFrame_first m 7 10 _ hframe).symm.trans hbyte)
    exact BitVec.eq_of_toNat_eq (hfirst.trans h52)
  · exact tagged_of_nibbleThree n 10 m .alectoV2 l rfl rfl (fun _ hf => hf) h

/-- `E_WH0530` locates a tagged frame. -/
theorem treeWh0530_tagged (n : Nat) (m : Memory) (l : Located) (h : treeWh0530 fpl n m = .ok l) : Tagged l := by
  unfold treeWh0530 at h
  split at h
  · obtain ⟨-, -, h⟩ := bind_ok _ _ _ h
    exact tagged_of_nibbleThree n 6 m .alectoV1 l rfl rfl (fun _ hf => hf) h
  split at h
  · exact treeAlectoV2_tagged n m l h
  split at h
  · obtain ⟨-, -, h⟩ := bind_ok _ _ _ h
    exact tagged_of_nibbleThree n 7 m .wh0530 l rfl rfl (fun _ hf => hf) h
  · cases h

/-- A frame of a preamble-searched variant is tagged by its type alone. -/
theorem tagged_of_type (v : Variant) (off : Nat) (f : List Byte) (hsearched : fpl.fixedOff v = none)
    (htype : TypeRead v f) : Tagged ⟨v, off, f⟩ :=
  ⟨fun _ hk => (Option.some_ne_none _ (hk.symm.trans hsearched)).elim, htype⟩

/-- `E_WH24` locates a tagged frame: its two variants are told apart without its bytes. -/
theorem treeWh24_tagged (n : Nat) (m : Memory) (l : Located) (h : treeWh24 fpl n m = .ok l) : Tagged l := by
  rw [treeWh24_eq] at h
  split at h
  · cases h
  · obtain ⟨r, -, h⟩ := bind_ok _ _ _ h
    obtain rfl := Except.ok.inj h
    rw [wh24OrWh65b_eq]
    split
    · exact tagged_of_type .wh24 _ _ rfl trivial
    · exact tagged_of_type .wh65b _ _ rfl trivial

/-- `WH0290` locates a tagged frame. -/
theorem treeWh0290_tagged (n : Nat) (m : Memory) (l : Located) (h : treeWh0290 fpl n m = .ok l) : Tagged l := by
  rw [treeWh0290_eq] at h
  obtain ⟨r, -, h⟩ := bind_ok _ _ _ h
  cases h
  exact tagged_of_type .wh0290 _ _ rfl trivial

/-- `E_WH25` from a tentative variant of type nibble `0xE` locates a tagged frame. -/
theorem treeWh25Tentative_tagged (n : Nat) (m : Memory) (t : Variant) (l : Located) (ht : t = .wh25 ∨ t = .wh32b)
    (h : treeWh25Tentative fpl n m t = .ok l) : Tagged l := by
  rw [treeWh25Tentative_eq] at h
  obtain ⟨r, -, h⟩ := bind_ok _ _ _ h
  split at h
  · next hD =>
    obtain ⟨-, hnibble⟩ := hD
    cases h
    exact tagged_of_type .wh32 _ _ rfl hnibble
  split at h
  · next hE =>
    cases h
    obtain rfl | rfl := ht
    · exact tagged_of_type .wh25 _ _ rfl hE
    · exact tagged_of_type .wh32b _ _ rfl hE
  split at h
  · exact treeWh0290_tagged n m l h
  · cases h

/-- `E_WH25` locates a tagged frame. -/
theorem treeWh25_tagged (n : Nat) (m : Memory) (l : Located) (h : treeWh25 fpl n m = .ok l) : Tagged l := by
  rw [treeWh25_eq] at h
  split at h
  · exact treeWh0290_tagged n m l h
  split at h
  · exact treeWh25Tentative_tagged n m .wh32b l (.inr rfl) h
  split at h
  · exact treeWh24_tagged n m l h
  split at h
  · exact treeWh25Tentative_tagged n m .wh25 l (.inl rfl) h
  · exact treeWh25Tentative_tagged n m .wh32b l (.inr rfl) h

/-- `E_WH51` locates a tagged frame. -/
theorem treeWh51_tagged (n : Nat) (m : Memory) (l : Located) (h : treeWh51 fpl n m = .ok l) : Tagged l := by
  rw [treeWh51_eq] at h
  obtain ⟨r, -, h⟩ := bind_ok _ _ _ h
  split at h
  · next hbyte =>
    cases h
    exact tagged_of_type .wh51 _ _ rfl hbyte
  · cases h

/-- Every entry point locates a tagged frame. -/
theorem classifyTree_tagged (e : Entry) (n : Nat) (m : Memory) (l : Located) (h : classifyTree fpl e n m = .ok l) :
    Tagged l := by
  cases e with
  | wh2 => exact treeWh2_tagged n m l h
  | wh0530 => exact treeWh0530_tagged n m l h
  | wh24 => exact treeWh24_tagged n m l h
  | wh25 => exact treeWh25_tagged n m l h
  | wh51 => exact treeWh51_tagged n m l h

/-- What the first stage locates is the frame of the row instruction that the decoder reads there
(spec/43_classifier.md R130). -/
theorem locatedOf_of_classify (e : Entry) (n : Nat) (m : Memory) (l : Located) (h : classify fpl e n m = .ok l) :
    locatedOf (instrOf l) = some l := by
  obtain ⟨hn, hlen, hfits⟩ := classify_ok e n m l h
  have hcap : n ≤ 1024 := hn
  have htree : classifyTree fpl e n m = .ok l := (classify_tree e n m hcap).symm.trans h
  exact locatedOf_instrOf l (classifyTree_tagged e n m l htree) hlen (by omega)

/-! ### The command and its row instruction -/

/-- A row in which the decoder reads an instruction is one in which the entry point locates a frame. -/
theorem classify_of_decodeRow (e : Entry) (n : Nat) (m : Memory) (i : Instr) (h : decodeRow e n m = .ok i) :
    ∃ l, classify fpl e n m = .ok l ∧ instrOf l = i := by
  unfold decodeRow at h
  split at h
  · next l hl => exact ⟨l, hl, Except.ok.inj h⟩
  · cases h

/-- Settles O5: the decoder and the command take the same frame, which holds every operand of the instruction read. -/
theorem commandRunsTheRowInstruction : Obligations.CommandRunsTheRowInstruction := by
  intro e i s h
  obtain ⟨l, hl, rfl⟩ := classify_of_decodeRow e _ s.row i h
  exact runsAs_of_classify e (instrOf l) l s (locatedOf_of_classify e _ s.row l hl) hl

/-- Settles O6: the command does what the row instruction does, and that completes. -/
theorem commandCompletesOnASoundRow : Obligations.CommandCompletesOnASoundRow := by
  intro i l e n bytes s hwf hl henc hchecks hconstants hn hrow
  have hclassify : classify fpl e s.bitcnt.toNat s.row = .ok l := by
    have hlocates := encode_locates i l hwf hl
    rw [henc] at hlocates
    rw [hn, hrow]
    exact hlocates
  obtain ⟨t, hcommand, hinstr⟩ := runsAs_of_classify e i l s hl hclassify
  obtain ⟨t', hexec, -, -, hcomplete⟩ := rowInstructionsReportTheirVerdict i l s hl
  obtain rfl : t = t' := Host.Outcome.next.inj (hinstr.symm.trans hexec)
  exact ⟨t, hcommand, hcomplete hchecks hconstants⟩

end Sys2Proof.Machine
end

section
/-! PROOF. The decoders of the PWM family (spec/44_decode_pwm.md): a layout's parts are the slices from which the operands
of a frame are read back, so each field of a decoded record is the conversion of one operand. -/

namespace Sys2Proof.Machine

open Sys2Proof.Laws.FrameRoundTrip (wh2Of_bytes rainOf_bytes dcfOf_bytes)

/-! ### The raw value of a field as bits of the frame (spec/30_encoding.md R75) -/

/-- The bits of one part of a field, a word whose value is the slice `f[byte][hi:lo]`. -/
def segBits (f : List Byte) (g : Seg) : BitVec (g.hi - g.lo + 1) := (byteAt f g.byte).extractLsb' g.lo (g.hi - g.lo + 1)

/-- The value of a part is its slice of the frame byte (spec/00_scope.md R6). -/
theorem toNat_segBits (f : List Byte) (g : Seg) : (segBits f g).toNat = byteSlice (f.getD g.byte 0) g.hi g.lo :=
  toNat_extract 8 g.lo (g.hi - g.lo + 1) (byteAt f g.byte)

/-- A part that is a whole byte. -/
theorem segBits_byte (f : List Byte) (k : Nat) : segBits f ⟨k, 7, 0⟩ = byteAt f k := BitVec.extractLsb'_eq_self

/-- No further part. -/
theorem rawFrom_nil (f : List Byte) (acc : Nat) : rawFrom f acc [] = acc := rfl

/-- A further part stands below the ones before it. -/
theorem rawFrom_cons {n : Nat} (f : List Byte) (acc : BitVec n) (g : Seg) (rest : List Seg) :
    rawFrom f acc.toNat (g :: rest) = rawFrom f (acc ++ segBits f g).toNat rest := by
  rw [rawFrom, toNat_append_mul, toNat_segBits]

/-- The first part is the most significant. -/
theorem rawValue_cons (f : List Byte) (g : Seg) (rest : List Seg) :
    rawValue f (g :: rest) = rawFrom f (segBits f g).toNat rest := by
  rw [rawValue, rawFrom, Nat.zero_mul, Nat.zero_add, toNat_segBits]

/-- A field of one part. -/
theorem rawValue_part (f : List Byte) (g : Seg) : rawValue f [g] = (segBits f g).toNat := by
  rw [rawValue_cons, rawFrom_nil]

/-- A field of two parts. -/
theorem rawValue_parts (f : List Byte) (g g' : Seg) : rawValue f [g, g'] = (segBits f g ++ segBits f g').toNat := by
  rw [rawValue_cons, rawFrom_cons, rawFrom_nil]

/-- A field that is one byte of the frame. -/
theorem rawValue_byte (f : List Byte) (k : Nat) : rawValue f [⟨k, 7, 0⟩] = (byteAt f k).toNat := by
  rw [rawValue_part, segBits_byte]

/-- A field whose low part is one byte of the frame. -/
theorem rawValue_then_byte (f : List Byte) (g : Seg) (k : Nat) :
    rawValue f [g, ⟨k, 7, 0⟩] = (segBits f g ++ byteAt f k).toNat := by
  rw [rawValue_parts, segBits_byte]

/-! ### One field of a decoded record (spec/42_unpack_scale.md R110) -/

section field
variable (v : Variant) (f : List Byte) (d : FieldDesc) (hd : d ∈ fpl.layout v)
include hd

/-- A field without a sentinel holds the conversion of its raw value. -/
theorem decodeFields_always (raw : Nat) (hraw : rawValue f d.segs = raw) (hs : d.sentinel = none) :
    (decodeFields fpl v f).value d.reg = some (convert fpl v d.width d.conv raw) := by
  rw [decodeFields_value v f d hd, hraw, hs, if_neg (by simp)]

/-- A field with a sentinel holds nothing exactly where its operand equals it. -/
theorem decodeFields_unless {w : Nat} (x sentinel : BitVec w) (hraw : rawValue f d.segs = x.toNat)
    (hs : d.sentinel = some sentinel.toNat) :
    (decodeFields fpl v f).value d.reg = if x = sentinel then none else some (convert fpl v d.width d.conv x.toNat) := by
  have hiff : d.sentinel = some x.toNat ↔ x = sentinel := by
    rw [hs, Option.some_inj, BitVec.toNat_inj, eq_comm]
  rw [decodeFields_value v f d hd, hraw]
  simp only [hiff]

end field

/-- A decoded record with the values `vals` has the mask they call for: one bit per field present, that of `mic`, and none
above (spec/10_state.md R19). -/
theorem recordIs_decodeFields (v : Variant) (f : List Byte) (vals : Field → Option Int)
    (h : ∀ g, (decodeFields fpl v f).value g = vals g) : RecordIs (decodeFields fpl v f) vals :=
  ⟨h, fun g => by rw [presentOk_decodeFields, h g], decodeFields_mic v f, decodeFields_above v f⟩

/-- A register that holds the value of a 48-bit word holds that word. -/
theorem rclk_of_value (r : Record) (y : BitVec 48) (h : r.value .rclk = some (y.toNat : Int)) : r.rclk = some y := by
  obtain ⟨x, hx, hxy⟩ := Option.map_eq_some_iff.1 h
  rw [hx, BitVec.eq_of_toNat_eq (Int.natCast_inj.1 hxy)]

/-- A row instruction with sound checks and constants ends with `OK` and the record decoded from its frame
(spec/43_classifier.md R130). -/
theorem exec_sound (i : Instr) (l : Located) (s : State) (h : locatedOf i = some l) (hchecks : checksHold i = true)
    (hconstants : constantsHold i = true) :
    ∃ t, exec i s = .next t ∧ t.outcome = .ok ∧ t.record = decodeFields fpl l.variant l.frame := by
  have hverdict : verdict fpl l.variant l.frame = .ok := by
    simp [verdict, checkPasses_located i l h, sanityPasses_located i l h, hchecks, hconstants]
  refine ⟨finish fpl l s, exec_located i l s h, ?_⟩
  rw [finish_ok fpl l s hverdict]
  exact ⟨rfl, rfl⟩

/-- The record of a sound row instruction is `vals` where that of its frame is. -/
theorem exec_sound_recordIs (i : Instr) (l : Located) (s : State) (vals : Field → Option Int) (h : locatedOf i = some l)
    (hchecks : checksHold i = true) (hconstants : constantsHold i = true)
    (hvals : RecordIs (decodeFields fpl l.variant l.frame) vals) :
    ∃ t, exec i s = .next t ∧ t.outcome = .ok ∧ RecordIs t.record vals := by
  obtain ⟨t, hexec, hok, hrecord⟩ := exec_sound i l s h hchecks hconstants
  exact ⟨t, hexec, hok, hrecord ▸ hvals⟩

/-! ### The conversions of an operand -/

/-- Sign-magnitude on the bits of a word: the top bit is the sign, and minus zero is 0 (spec/42_unpack_scale.md R113). -/
theorem tempSignMag_toNat (x : BitVec 12) :
    tempSignMag 12 x.toNat = if x.msb then -(x.toNat % 2048 : Int) else (x.toNat : Int) := by
  have hlt : x.toNat < 4096 := x.isLt
  have hmsb : x.msb = decide (2048 ≤ x.toNat) := BitVec.msb_eq_decide x
  by_cases hsign : 2048 ≤ x.toNat
  · have hbit : x.toNat / 2 ^ (12 - 1) % 2 = 1 := by omega
    rw [tempSignMag, if_pos hbit, hmsb, if_pos (by simpa using hsign)]
    rfl
  · have hbit : x.toNat / 2 ^ (12 - 1) % 2 ≠ 1 := by omega
    have hmag : x.toNat % 2048 = x.toNat := by omega
    rw [tempSignMag, if_neg hbit, hmsb, if_neg (by simpa using hsign)]
    exact congrArg Nat.cast hmag

/-- The temperature of a variant under the offset policy (spec/42_unpack_scale.md R114). -/
theorem convert_temp_of_offset40 (v : Variant) (w raw : Nat) (h : fpl.tempPolicy v = some .offset40) :
    convert fpl v w .temp raw = (raw : Int) - 400 := by
  rw [convert, h, temperature, tempOffset40]

/-- The temperature of a variant under the sign-magnitude policy (spec/42_unpack_scale.md R113). -/
theorem convert_temp_of_signMag (v : Variant) (w raw : Nat) (h : fpl.tempPolicy v = some .signMag) :
    convert fpl v w .temp raw = tempSignMag w raw := by
  rw [convert, h, temperature]

/-- Rain in buckets of 300 thousandths of a millimetre, from the count's two bytes (spec/42_unpack_scale.md R116). -/
theorem convert_rain_bytes (v : Variant) (w : Nat) (hi lo : Byte) (h : fpl.rainMilli v = 300) :
    convert fpl v w .rain (hi ++ lo).toNat = 300 * (256 * (hi.toNat : Int) + (lo.toNat : Int)) := by
  rw [convert, h, toNat_append_mul]
  push_cast
  ring

/-! ### WH2, WH2A, WH5 and Telldus (spec/44_decode_pwm.md R151, R152) -/

/-- The values that the operands of a WH2-family frame stand for, the temperature being the variant's own. -/
def wh2Values (x : Wh2Frame) (temp : Int) : Field → Option Int
  | .id => some (x.id.toNat : Int)
  | .temp => some temp
  | .hum => if x.hum = 0xFF then none else some (x.hum.toNat : Int)
  | _ => none

/-- A WH2-family frame decodes to the values of the operands read from it. -/
theorem decodeFields_wh2 (v : Variant) (f : List Byte) (hlayout : fpl.layout v = wh2Layout) :
    RecordIs (decodeFields fpl v f) (wh2Values (wh2Of f) (convert fpl v 12 .temp (wh2Of f).temp12.toNat)) := by
  refine recordIs_decodeFields v f _ fun g => ?_
  cases g with
  | id =>
    refine decodeFields_always v f ⟨[⟨0, 3, 0⟩, ⟨1, 7, 4⟩], 8, none, .raw, .id⟩ ?_ (wh2Of f).id.toNat ?_ rfl
    · simp [hlayout, wh2Layout]
    · exact rawValue_parts f ⟨0, 3, 0⟩ ⟨1, 7, 4⟩
  | temp =>
    refine decodeFields_always v f ⟨[⟨1, 3, 0⟩, ⟨2, 7, 0⟩], 12, none, .temp, .temp⟩ ?_ (wh2Of f).temp12.toNat ?_ rfl
    · simp [hlayout, wh2Layout]
    · exact rawValue_then_byte f ⟨1, 3, 0⟩ 2
  | hum =>
    refine decodeFields_unless v f ⟨[⟨3, 7, 0⟩], 8, some 0xFF, .raw, .hum⟩ ?_ (wh2Of f).hum 0xFF ?_ rfl
    · simp [hlayout, wh2Layout]
    · exact rawValue_byte f 3
  | _ =>
    refine decodeFields_other v f _ ?_
    rw [hlayout]
    decide

/-- A sound WH2-family row instruction leaves the values of its operands. -/
theorem exec_wh2Family (i : Instr) (v : Variant) (off : Nat) (x : Wh2Frame) (rest : List Byte) (temp : Int) (s : State)
    (hi : locatedOf i = some ⟨v, off, wh2Bytes x ++ rest⟩) (hchecks : checksHold i = true)
    (hconstants : constantsHold i = true) (hlayout : fpl.layout v = wh2Layout)
    (htemp : convert fpl v 12 .temp x.temp12.toNat = temp) :
    ∃ t, exec i s = .next t ∧ t.outcome = .ok ∧ RecordIs t.record (wh2Values x temp) := by
  have hvals := decodeFields_wh2 v (wh2Bytes x ++ rest) hlayout
  rw [wh2Of_bytes, htemp] at hvals
  exact exec_sound_recordIs i _ s _ hi hchecks hconstants hvals

/-- Settles O22: the three variants share the layout and the sign-magnitude policy; WH2A's sixth byte is in no field. -/
theorem wh2FamilyRecord : Obligations.Wh2FamilyRecord := by
  intro i x pad s hi hchecks hconstants
  have htemp (v : Variant) (hv : fpl.tempPolicy v = some .signMag) :
      convert fpl v 12 .temp x.temp12.toNat =
        if x.temp12.msb then -(x.temp12.toNat % 2048 : Int) else (x.temp12.toNat : Int) :=
    (convert_temp_of_signMag v 12 _ hv).trans (tempSignMag_toNat x.temp12)
  obtain rfl | rfl | rfl := hi
  · exact exec_wh2Family _ .wh2 8 x [] _ s rfl hchecks hconstants rfl (htemp .wh2 rfl)
  · exact exec_wh2Family _ .wh2a 7 x [pad] _ s rfl hchecks hconstants rfl (htemp .wh2a rfl)
  · exact exec_wh2Family _ .telldus 9 x [] _ s rfl hchecks hconstants rfl (htemp .telldus rfl)

/-- Settles O23: WH5 has the layout of WH2 and the offset policy. -/
theorem wh5Record : Obligations.Wh5Record := by
  intro x s hchecks hconstants
  exact exec_wh2Family _ .wh5 7 x [] _ s rfl hchecks hconstants rfl (convert_temp_of_offset40 .wh5 12 _ rfl)

/-! ### WH0530, Alecto-WS1200-v1 and -v2 (spec/44_decode_pwm.md R153) -/

/-- The values that the operands of a rain-family frame stand for. -/
def rainValues (x : RainFrame) : Field → Option Int
  | .id => some (x.id.toNat : Int)
  | .batt => some (1 - (x.battLow.toNat : Int))
  | .temp => some ((x.temp11.toNat : Int) - 400)
  | .rain => some (300 * (256 * (x.rainHi.toNat : Int) + (x.rainLo.toNat : Int)))
  | _ => none

/-- A rain-family frame decodes to the values of the operands read from it. -/
theorem decodeFields_rain (v : Variant) (f : List Byte) (hlayout : fpl.layout v = rainLayout)
    (htemp : fpl.tempPolicy v = some .offset40) (hrain : fpl.rainMilli v = 300) :
    RecordIs (decodeFields fpl v f) (rainValues (rainOf f)) := by
  refine recordIs_decodeFields v f _ fun g => ?_
  cases g with
  | id =>
    refine decodeFields_always v f ⟨[⟨0, 3, 0⟩, ⟨1, 7, 4⟩], 8, none, .raw, .id⟩ ?_ (rainOf f).id.toNat ?_ rfl
    · simp [hlayout, rainLayout]
    · exact rawValue_parts f ⟨0, 3, 0⟩ ⟨1, 7, 4⟩
  | batt =>
    refine decodeFields_always v f ⟨[⟨1, 3, 3⟩], 1, none, .battFlag, .batt⟩ ?_ (rainOf f).battLow.toNat ?_ rfl
    · simp [hlayout, rainLayout]
    · exact rawValue_part f ⟨1, 3, 3⟩
  | temp =>
    refine (decodeFields_always v f ⟨[⟨1, 2, 0⟩, ⟨2, 7, 0⟩], 11, none, .temp, .temp⟩ ?_ (rainOf f).temp11.toNat ?_ rfl).trans
      (congrArg some (convert_temp_of_offset40 v 11 _ htemp))
    · simp [hlayout, rainLayout]
    · exact rawValue_then_byte f ⟨1, 2, 0⟩ 2
  | rain =>
    refine (decodeFields_always v f ⟨[⟨4, 7, 0⟩, ⟨3, 7, 0⟩], 16, none, .rain, .rain⟩ ?_
      ((rainOf f).rainHi ++ (rainOf f).rainLo).toNat ?_ rfl).trans (congrArg some (convert_rain_bytes v 16 _ _ hrain))
    · simp [hlayout, rainLayout]
    · rw [rawValue_then_byte, segBits_byte]
      rfl
  | _ =>
    refine decodeFields_other v f _ ?_
    rw [hlayout]
    decide

/-- A sound rain-family row instruction leaves the values of its operands. -/
theorem exec_rainFamily (i : Instr) (v : Variant) (off : Nat) (x : RainFrame) (rest : List Byte) (s : State)
    (hi : locatedOf i = some ⟨v, off, rainBytes x ++ rest⟩) (hchecks : checksHold i = true)
    (hconstants : constantsHold i = true) (hlayout : fpl.layout v = rainLayout)
    (htemp : fpl.tempPolicy v = some .offset40) (hrain : fpl.rainMilli v = 300) :
    ∃ t, exec i s = .next t ∧ t.outcome = .ok ∧ RecordIs t.record (rainValues x) := by
  have hvals := decodeFields_rain v (rainBytes x ++ rest) hlayout htemp hrain
  rw [rainOf_bytes] at hvals
  exact exec_sound_recordIs i _ s _ hi hchecks hconstants hvals

/-- Settles O24: the three variants share the layout, the offset policy and the bucket; what follows their first five bytes
is in no field. -/
theorem rainFamilyRecord : Obligations.RainFamilyRecord := by
  intro i x ign crc sum ign4 s hi hchecks
  obtain rfl | rfl | rfl := hi
  · exact exec_rainFamily _ .wh0530 7 x [ign, crc, sum] s rfl hchecks rfl rfl rfl rfl
  · exact exec_rainFamily _ .alectoV1 7 x [ign, crc] s rfl hchecks rfl rfl rfl rfl
  · exact exec_rainFamily _ .alectoV2 7 x _ s rfl hchecks rfl rfl rfl rfl

/-! ### Alecto-WS1200-v2-DCF (spec/44_decode_pwm.md R156, R158) -/

/-- The clock of a DCF frame, year byte most significant (spec/44_decode_pwm.md R158). -/
def dcfClock (x : DcfFrame) : BitVec 48 := x.year ++ x.month ++ x.day ++ x.hour ++ x.minute ++ x.second

/-- The values that the operands of a DCF frame stand for. -/
def dcfValues (x : DcfFrame) : Field → Option Int
  | .id => some (x.id.toNat : Int)
  | .batt => some (1 - (x.battLow.toNat : Int))
  | .rclk => some ((dcfClock x).toNat : Int)
  | _ => none

/-- The clock field is the six clock bytes in order. -/
theorem rawValue_dcfClock (f : List Byte) :
    rawValue f [⟨3, 7, 0⟩, ⟨4, 7, 0⟩, ⟨5, 7, 0⟩, ⟨6, 7, 0⟩, ⟨7, 7, 0⟩, ⟨8, 7, 0⟩] = (dcfClock (dcfOf f)).toNat := by
  simp only [rawValue_cons, rawFrom_cons, rawFrom_nil, segBits_byte]
  rfl

/-- A DCF frame decodes to the values of the operands read from it. -/
theorem decodeFields_dcf (f : List Byte) : RecordIs (decodeFields fpl .alectoV2Dcf f) (dcfValues (dcfOf f)) := by
  refine recordIs_decodeFields .alectoV2Dcf f _ fun g => ?_
  have hlayout : fpl.layout .alectoV2Dcf = dcfLayout := rfl
  cases g with
  | id =>
    refine decodeFields_always .alectoV2Dcf f ⟨[⟨1, 7, 0⟩], 8, none, .raw, .id⟩ ?_ (dcfOf f).id.toNat ?_ rfl
    · simp [hlayout, dcfLayout]
    · exact rawValue_byte f 1
  | batt =>
    refine decodeFields_always .alectoV2Dcf f ⟨[⟨2, 7, 7⟩], 1, none, .battFlag, .batt⟩ ?_ (dcfOf f).battLow.toNat ?_ rfl
    · simp [hlayout, dcfLayout]
    · exact rawValue_part f ⟨2, 7, 7⟩
  | rclk =>
    refine decodeFields_always .alectoV2Dcf f
      ⟨[⟨3, 7, 0⟩, ⟨4, 7, 0⟩, ⟨5, 7, 0⟩, ⟨6, 7, 0⟩, ⟨7, 7, 0⟩, ⟨8, 7, 0⟩], 48, none, .raw, .rclk⟩ ?_
      (dcfClock (dcfOf f)).toNat ?_ rfl
    · simp [hlayout, dcfLayout]
    · exact rawValue_dcfClock f
  | _ =>
    refine decodeFields_other .alectoV2Dcf f _ ?_
    rw [hlayout]
    decide

/-- Settles O25: the clock register holds the word whose value the record carries. -/
theorem dcfRecord : Obligations.DcfRecord := by
  intro x s hchecks
  have hvals := decodeFields_dcf (dcfBytes x ++ [])
  rw [dcfOf_bytes] at hvals
  obtain ⟨t, hexec, hok, hrecord⟩ :=
    exec_sound_recordIs (.alectoV2Dcf x) ⟨.alectoV2Dcf, 7, dcfBytes x⟩ s _ rfl hchecks rfl hvals
  have hclock : t.record.value .rclk = some ((dcfClock x).toNat : Int) := hrecord.1 .rclk
  exact ⟨t, hexec, hok, rclk_of_value t.record (dcfClock x) hclock, hrecord⟩

end Sys2Proof.Machine
end

section
/-! PROOF. The decoders of the FSK family (spec/45_decode_fsk.md), in the way of those of the PWM family: each field of a
decoded record is the conversion of one operand, absent where the operand is the field's sentinel. -/

namespace Sys2Proof.Machine

open Sys2Proof.Laws.FrameRoundTrip (wh24Of_bytes wh25Of_bytes wh0290Of_bytes wh51Of_bytes)

/-! ### One field, with its conversion carried out -/

section field
variable (v : Variant) (f : List Byte) (d : FieldDesc) (hd : d ∈ fpl.layout v) {n : Int}
include hd

/-- A field without a sentinel holds what its operand converts to. -/
theorem decodeFields_always_of_convert (raw : Nat) (hraw : rawValue f d.segs = raw) (hs : d.sentinel = none)
    (hconv : convert fpl v d.width d.conv raw = n) : (decodeFields fpl v f).value d.reg = some n := by
  rw [decodeFields_always v f d hd raw hraw hs, hconv]

/-- A field with a sentinel holds what its operand converts to, and nothing where the operand equals it. -/
theorem decodeFields_unless_of_convert {w : Nat} (x sentinel : BitVec w) (hraw : rawValue f d.segs = x.toNat)
    (hs : d.sentinel = some sentinel.toNat) (hconv : convert fpl v d.width d.conv x.toNat = n) :
    (decodeFields fpl v f).value d.reg = if x = sentinel then none else some n := by
  rw [decodeFields_unless v f d hd x sentinel hraw hs, hconv]

end field

/-- A field of two whole bytes of the frame. -/
theorem rawValue_two_bytes (f : List Byte) (j k : Nat) :
    rawValue f [⟨j, 7, 0⟩, ⟨k, 7, 0⟩] = (byteAt f j ++ byteAt f k).toNat := by
  rw [rawValue_then_byte, segBits_byte]

/-- A field of three whole bytes of the frame. -/
theorem rawValue_three_bytes (f : List Byte) (j k l : Nat) :
    rawValue f [⟨j, 7, 0⟩, ⟨k, 7, 0⟩, ⟨l, 7, 0⟩] = (byteAt f j ++ byteAt f k ++ byteAt f l).toNat := by
  simp only [rawValue_cons, rawFrom_cons, rawFrom_nil, segBits_byte]

/-! ### The conversions of an operand (spec/42_unpack_scale.md) -/

/-- Rain in the variant's buckets, from the count's two bytes (R116). -/
theorem convert_rain_twoBytes (v : Variant) (w : Nat) (hi lo : Byte) :
    convert fpl v w .rain (hi ++ lo).toNat = (fpl.rainMilli v : Int) * (256 * (hi.toNat : Int) + (lo.toNat : Int)) := by
  rw [convert, toNat_append_mul]
  push_cast
  ring

/-- Wind in the variant's steps (R121). -/
theorem convert_wind_steps (v : Variant) (w raw : Nat) :
    convert fpl v w .wind raw = (windE5 fpl v : Int) * (raw : Int) := by
  rw [convert, Nat.mul_comm, Nat.cast_mul]

/-- The UV index of the default thresholds, which ascend, is how many the raw value exceeds (R122). -/
theorem convert_uvIndex_count (v : Variant) (w raw : Nat) :
    convert fpl v w .uvIndex raw = ((fpl.uviThresh.filter fun t => decide (t < raw)).length : Int) := by
  have hascending : fpl.uviThresh.Pairwise (· < ·) := by decide
  rw [convert_uvIndex, uvIndex_eq_length_filter fpl.uviThresh hascending]

/-- The battery in millivolts (R125). -/
theorem convert_milliVolt_hundredfold (v : Variant) (w raw : Nat) :
    convert fpl v w .milliVolt raw = 100 * (raw : Int) := by
  rw [convert_milliVolt, Nat.mul_comm, Nat.cast_mul]
  rfl

/-- The numerator of the battery's fraction, which may be negative (R125). -/
theorem convert_battFraction_unclamped (v : Variant) (w raw : Nat) :
    convert fpl v w .battFraction raw = 100 * (raw : Int) - 700 := by
  rw [convert_battFraction, Nat.mul_comm, Nat.cast_mul]
  rfl

/-! ### WH24 and WH65B (spec/45_decode_fsk.md R170) -/

/-- The values that the operands of a WH24 or WH65B frame stand for, at the variant's wind step and rain bucket. -/
def wh24Values (x : Wh24Frame) (wind rain : Int) : Field → Option Int
  | .id => some (x.id.toNat : Int)
  | .batt => some (1 - (x.battLow.toNat : Int))
  | .temp => if x.temp11 = 0x7FF then none else some ((x.temp11.toNat : Int) - 400)
  | .hum => if x.hum = 0xFF then none else some (x.hum.toNat : Int)
  | .wdir => if x.wdir9 = 0x1FF then none else some (x.wdir9.toNat : Int)
  | .wavg => if x.wspd9 = 0x1FF then none else some (wind * (x.wspd9.toNat : Int))
  | .wmax => if x.gust8 = 0xFF then none else some (wind * (x.gust8.toNat : Int))
  | .rain => some (rain * (256 * (x.rainHi.toNat : Int) + (x.rainLo.toNat : Int)))
  | .uv => if x.uv16 = 0xFFFF then none else some (x.uv16.toNat : Int)
  | .uvi =>
    if x.uv16 = 0xFFFF then none else some ((fpl.uviThresh.filter fun t => decide (t < x.uv16.toNat)).length : Int)
  | .light => if x.light24 = 0xFFFFFF then none else some (x.light24.toNat : Int)
  | _ => none

/-- A WH24 or WH65B frame decodes to the values of the operands read from it. -/
theorem decodeFields_wh24 (v : Variant) (f : List Byte) (hlayout : fpl.layout v = wh24Layout)
    (htemp : fpl.tempPolicy v = some .offset40) :
    RecordIs (decodeFields fpl v f) (wh24Values (wh24Of f) (windE5 fpl v) (fpl.rainMilli v)) := by
  refine recordIs_decodeFields v f _ fun g => ?_
  cases g with
  | id =>
    exact decodeFields_always_of_convert v f ⟨[⟨1, 7, 0⟩], 8, none, .raw, .id⟩ (by simp [hlayout, wh24Layout])
      (wh24Of f).id.toNat (rawValue_byte f 1) rfl rfl
  | batt =>
    exact decodeFields_always_of_convert v f ⟨[⟨3, 3, 3⟩], 1, none, .battFlag, .batt⟩ (by simp [hlayout, wh24Layout])
      (wh24Of f).battLow.toNat (rawValue_part f ⟨3, 3, 3⟩) rfl rfl
  | temp =>
    exact decodeFields_unless_of_convert v f ⟨[⟨3, 2, 0⟩, ⟨4, 7, 0⟩], 11, some 0x7FF, .temp, .temp⟩
      (by simp [hlayout, wh24Layout]) (wh24Of f).temp11 0x7FF (rawValue_then_byte f ⟨3, 2, 0⟩ 4) rfl
      (convert_temp_of_offset40 v 11 _ htemp)
  | hum =>
    exact decodeFields_unless_of_convert v f ⟨[⟨5, 7, 0⟩], 8, some 0xFF, .raw, .hum⟩ (by simp [hlayout, wh24Layout])
      (wh24Of f).hum 0xFF (rawValue_byte f 5) rfl rfl
  | wdir =>
    exact decodeFields_unless_of_convert v f ⟨[⟨3, 7, 7⟩, ⟨2, 7, 0⟩], 9, some 0x1FF, .raw, .wdir⟩
      (by simp [hlayout, wh24Layout]) (wh24Of f).wdir9 0x1FF (rawValue_then_byte f ⟨3, 7, 7⟩ 2) rfl rfl
  | wavg =>
    exact decodeFields_unless_of_convert v f ⟨[⟨3, 4, 4⟩, ⟨6, 7, 0⟩], 9, some 0x1FF, .wind, .wavg⟩
      (by simp [hlayout, wh24Layout]) (wh24Of f).wspd9 0x1FF (rawValue_then_byte f ⟨3, 4, 4⟩ 6) rfl
      (convert_wind_steps v 9 _)
  | wmax =>
    exact decodeFields_unless_of_convert v f ⟨[⟨7, 7, 0⟩], 8, some 0xFF, .wind, .wmax⟩ (by simp [hlayout, wh24Layout])
      (wh24Of f).gust8 0xFF (rawValue_byte f 7) rfl (convert_wind_steps v 8 _)
  | rain =>
    exact decodeFields_always_of_convert v f ⟨[⟨9, 7, 0⟩, ⟨8, 7, 0⟩], 16, none, .rain, .rain⟩
      (by simp [hlayout, wh24Layout]) ((wh24Of f).rainHi ++ (wh24Of f).rainLo).toNat (rawValue_two_bytes f 9 8) rfl
      (convert_rain_twoBytes v 16 _ _)
  | uv =>
    exact decodeFields_unless_of_convert v f ⟨[⟨10, 7, 0⟩, ⟨11, 7, 0⟩], 16, some 0xFFFF, .raw, .uv⟩
      (by simp [hlayout, wh24Layout]) (wh24Of f).uv16 0xFFFF (rawValue_two_bytes f 10 11) rfl rfl
  | uvi =>
    exact decodeFields_unless_of_convert v f ⟨[⟨10, 7, 0⟩, ⟨11, 7, 0⟩], 16, some 0xFFFF, .uvIndex, .uvi⟩
      (by simp [hlayout, wh24Layout]) (wh24Of f).uv16 0xFFFF (rawValue_two_bytes f 10 11) rfl
      (convert_uvIndex_count v 16 _)
  | light =>
    exact decodeFields_unless_of_convert v f ⟨[⟨12, 7, 0⟩, ⟨13, 7, 0⟩, ⟨14, 7, 0⟩], 24, some 0xFFFFFF, .raw, .light⟩
      (by simp [hlayout, wh24Layout]) (wh24Of f).light24 0xFFFFFF (rawValue_three_bytes f 12 13 14) rfl rfl
  | _ =>
    refine decodeFields_other v f _ ?_
    rw [hlayout]
    decide

/-- A sound WH24 or WH65B row instruction leaves the values of its operands. -/
theorem exec_wh24Family (i : Instr) (v : Variant) (off : Nat) (x : Wh24Frame) (s : State)
    (hi : locatedOf i = some ⟨v, off, wh24Bytes x⟩) (hchecks : checksHold i = true) (hconstants : constantsHold i = true)
    (hlayout : fpl.layout v = wh24Layout) (htemp : fpl.tempPolicy v = some .offset40) :
    ∃ t, exec i s = .next t ∧ t.outcome = .ok ∧ RecordIs t.record (wh24Values x (windE5 fpl v) (fpl.rainMilli v)) := by
  have hvals := decodeFields_wh24 v (wh24Bytes x ++ []) hlayout htemp
  rw [wh24Of_bytes] at hvals
  exact exec_sound_recordIs i _ s _ hi hchecks hconstants hvals

/-- Settles O26: the two variants share the layout and the offset policy; their wind step and rain bucket are their own. -/
theorem wh24AndWh65bRecord : Obligations.Wh24AndWh65bRecord := by
  intro i off x wind rain s hi hchecks hconstants
  obtain ⟨rfl, rfl, rfl⟩ | ⟨rfl, rfl, rfl⟩ := hi
  · exact exec_wh24Family _ .wh24 off.toNat x s rfl hchecks hconstants rfl rfl
  · exact exec_wh24Family _ .wh65b off.toNat x s rfl hchecks hconstants rfl rfl

/-! ### WH25, WH32B and WH32 (spec/45_decode_fsk.md R172) -/

/-- The values that the operands of a WH25-family frame stand for, the pressure being the variant's own. -/
def wh25Values (x : Wh25Frame) (press : Option Int) : Field → Option Int
  | .id => some (x.id.toNat : Int)
  | .batt => some (1 - (x.battLow.toNat : Int))
  | .temp => some ((x.temp10.toNat : Int) - 400)
  | .hum => if x.hum = 0xFF then none else some (x.hum.toNat : Int)
  | .press => press
  | _ => none

/-- A WH25-family frame decodes, beside the pressure, to the values of the operands read from it. -/
theorem decodeFields_wh25Family (v : Variant) (f : List Byte) (hshared : wh32Layout ⊆ fpl.layout v)
    (hregs : ∀ d ∈ fpl.layout v, d.reg ∈ [.id, .batt, .temp, .hum, .press]) (htemp : fpl.tempPolicy v = some .offset40) :
    RecordIs (decodeFields fpl v f) (wh25Values (wh25Of f) ((decodeFields fpl v f).value .press)) := by
  refine recordIs_decodeFields v f _ fun g => ?_
  cases g with
  | id =>
    exact decodeFields_always_of_convert v f ⟨[⟨0, 3, 0⟩, ⟨1, 7, 4⟩], 8, none, .raw, .id⟩ (hshared (by decide))
      (wh25Of f).id.toNat (rawValue_parts f ⟨0, 3, 0⟩ ⟨1, 7, 4⟩) rfl rfl
  | batt =>
    exact decodeFields_always_of_convert v f ⟨[⟨1, 3, 3⟩], 1, none, .battFlag, .batt⟩ (hshared (by decide))
      (wh25Of f).battLow.toNat (rawValue_part f ⟨1, 3, 3⟩) rfl rfl
  | temp =>
    exact decodeFields_always_of_convert v f ⟨[⟨1, 1, 0⟩, ⟨2, 7, 0⟩], 10, none, .temp, .temp⟩ (hshared (by decide))
      (wh25Of f).temp10.toNat (rawValue_then_byte f ⟨1, 1, 0⟩ 2) rfl (convert_temp_of_offset40 v 10 _ htemp)
  | hum =>
    exact decodeFields_unless_of_convert v f ⟨[⟨3, 7, 0⟩], 8, some 0xFF, .raw, .hum⟩ (hshared (by decide))
      (wh25Of f).hum 0xFF (rawValue_byte f 3) rfl rfl
  | press => rfl
  | _ =>
    refine decodeFields_other v f _ fun d hd hreg => ?_
    simpa [hreg] using hregs d hd

/-- The pressure of a variant that has it, absent at its sentinel. -/
theorem decodeFields_press (v : Variant) (f : List Byte) (hlayout : fpl.layout v = wh25Layout) :
    (decodeFields fpl v f).value .press =
      if (wh25Of f).press16 = 0xFFFF then none else some ((wh25Of f).press16.toNat : Int) :=
  decodeFields_unless_of_convert v f ⟨[⟨4, 7, 0⟩, ⟨5, 7, 0⟩], 16, some 0xFFFF, .raw, .press⟩
    (by simp [hlayout, wh25Layout]) (wh25Of f).press16 0xFFFF (rawValue_two_bytes f 4 5) rfl rfl

/-- WH32 has no pressure. -/
theorem decodeFields_wh32_press (f : List Byte) : (decodeFields fpl .wh32 f).value .press = none :=
  decodeFields_other .wh32 f .press (by decide)

/-- The operands of a WH25-family frame, whatever its type nibble, are read back from it. -/
theorem wh25Of_wh25Bytes (type : BitVec 4) (x : Wh25Frame) : wh25Of (wh25Bytes type x) = x :=
  wh25Of_bytes type x []

/-- A WH25-family row instruction with sound checks leaves the values of its operands. -/
theorem exec_wh25Family (i : Instr) (v : Variant) (off : Nat) (type : BitVec 4) (x : Wh25Frame) (press : Option Int)
    (s : State) (hi : locatedOf i = some ⟨v, off, wh25Bytes type x⟩) (hchecks : checksHold i = true)
    (hconstants : constantsHold i = true) (hshared : wh32Layout ⊆ fpl.layout v)
    (hregs : ∀ d ∈ fpl.layout v, d.reg ∈ [.id, .batt, .temp, .hum, .press]) (htemp : fpl.tempPolicy v = some .offset40)
    (hpress : (decodeFields fpl v (wh25Bytes type x)).value .press = press) :
    ∃ t, exec i s = .next t ∧ t.outcome = .ok ∧ RecordIs t.record (wh25Values x press) := by
  have hvals := decodeFields_wh25Family v (wh25Bytes type x) hshared hregs htemp
  rw [wh25Of_wh25Bytes, hpress] at hvals
  exact exec_sound_recordIs i _ s _ hi hchecks hconstants hvals

/-- Settles O27: the three variants share the fields of WH32 and the offset policy; WH25 and WH32B have the pressure as
well. -/
theorem wh25FamilyRecord : Obligations.Wh25FamilyRecord := by
  intro i off x s hi hchecks
  have hexec (v : Variant) (type : BitVec 4) := exec_wh25Family i v off.toNat type x
    (if i = .wh32 off x ∨ x.press16 = 0xFFFF then none else some (x.press16.toNat : Int)) s
  obtain rfl | rfl | rfl := hi
  · exact hexec .wh25 0xE rfl hchecks rfl (by decide) (by decide) rfl
      (by simpa [wh25Of_wh25Bytes] using decodeFields_press .wh25 (wh25Bytes 0xE x) rfl)
  · exact hexec .wh32b 0xE rfl hchecks rfl (by decide) (by decide) rfl
      (by simpa [wh25Of_wh25Bytes] using decodeFields_press .wh32b (wh25Bytes 0xE x) rfl)
  · exact hexec .wh32 0xD rfl hchecks rfl (by decide) (by decide) rfl (by simp [decodeFields_wh32_press])

/-! ### WH0290 (spec/45_decode_fsk.md R173) -/

/-- The values that the operands of a WH0290 frame stand for. -/
def wh0290Values (x : Wh0290Frame) : Field → Option Int
  | .id => some (x.id.toNat : Int)
  | .batt => some (x.bars2.toNat : Int)
  | .pm25 => some (x.pm25.toNat : Int)
  | .pm10 => some (x.pm10.toNat : Int)
  | _ => none

/-- A WH0290 frame decodes to the values of the operands read from it. -/
theorem decodeFields_wh0290 (f : List Byte) : RecordIs (decodeFields fpl .wh0290 f) (wh0290Values (wh0290Of f)) := by
  refine recordIs_decodeFields .wh0290 f _ fun g => ?_
  cases g with
  | id =>
    exact decodeFields_always_of_convert .wh0290 f ⟨[⟨1, 7, 0⟩], 8, none, .raw, .id⟩ (by decide)
      (wh0290Of f).id.toNat (rawValue_byte f 1) rfl rfl
  | batt =>
    exact decodeFields_always_of_convert .wh0290 f ⟨[⟨4, 7, 6⟩], 2, none, .raw, .batt⟩ (by decide)
      (wh0290Of f).bars2.toNat (rawValue_part f ⟨4, 7, 6⟩) rfl rfl
  | pm25 =>
    exact decodeFields_always_of_convert .wh0290 f ⟨[⟨2, 5, 0⟩, ⟨3, 7, 0⟩], 14, none, .raw, .pm25⟩ (by decide)
      (wh0290Of f).pm25.toNat (rawValue_then_byte f ⟨2, 5, 0⟩ 3) rfl rfl
  | pm10 =>
    exact decodeFields_always_of_convert .wh0290 f ⟨[⟨4, 5, 0⟩, ⟨5, 7, 0⟩], 14, none, .raw, .pm10⟩ (by decide)
      (wh0290Of f).pm10.toNat (rawValue_then_byte f ⟨4, 5, 0⟩ 5) rfl rfl
  | _ => exact decodeFields_other .wh0290 f _ (by decide)

/-- Settles O28: the frame's operands are the fields, unscaled. -/
theorem wh0290Record : Obligations.Wh0290Record := by
  intro off x s hchecks
  have hvals := decodeFields_wh0290 (wh0290Bytes x ++ [])
  rw [wh0290Of_bytes] at hvals
  exact exec_sound_recordIs (.wh0290 off x) ⟨.wh0290, off.toNat, wh0290Bytes x⟩ s _ rfl hchecks rfl hvals

/-! ### WH51 (spec/45_decode_fsk.md R174) -/

/-- The values that the operands of a WH51 frame stand for; the battery is in two of them. -/
def wh51Values (x : Wh51Frame) : Field → Option Int
  | .id => some (x.id24.toNat : Int)
  | .battMv => some (100 * (x.batt5.toNat : Int))
  | .batt => some (100 * (x.batt5.toNat : Int) - 700)
  | .boost => some (x.boost3.toNat : Int)
  | .moist => some (x.moist.toNat : Int)
  | .adRaw => some (x.ad9.toNat : Int)
  | _ => none

/-- A WH51 frame decodes to the values of the operands read from it. -/
theorem decodeFields_wh51 (f : List Byte) : RecordIs (decodeFields fpl .wh51 f) (wh51Values (wh51Of f)) := by
  refine recordIs_decodeFields .wh51 f _ fun g => ?_
  cases g with
  | id =>
    exact decodeFields_always_of_convert .wh51 f ⟨[⟨1, 7, 0⟩, ⟨2, 7, 0⟩, ⟨3, 7, 0⟩], 24, none, .raw, .id⟩ (by decide)
      (wh51Of f).id24.toNat (rawValue_three_bytes f 1 2 3) rfl rfl
  | battMv =>
    exact decodeFields_always_of_convert .wh51 f ⟨[⟨4, 4, 0⟩], 5, none, .milliVolt, .battMv⟩ (by decide)
      (wh51Of f).batt5.toNat (rawValue_part f ⟨4, 4, 0⟩) rfl (convert_milliVolt_hundredfold .wh51 5 _)
  | batt =>
    exact decodeFields_always_of_convert .wh51 f ⟨[⟨4, 4, 0⟩], 5, none, .battFraction, .batt⟩ (by decide)
      (wh51Of f).batt5.toNat (rawValue_part f ⟨4, 4, 0⟩) rfl (convert_battFraction_unclamped .wh51 5 _)
  | boost =>
    exact decodeFields_always_of_convert .wh51 f ⟨[⟨4, 7, 5⟩], 3, none, .raw, .boost⟩ (by decide)
      (wh51Of f).boost3.toNat (rawValue_part f ⟨4, 7, 5⟩) rfl rfl
  | moist =>
    exact decodeFields_always_of_convert .wh51 f ⟨[⟨6, 7, 0⟩], 8, none, .raw, .moist⟩ (by decide)
      (wh51Of f).moist.toNat (rawValue_byte f 6) rfl rfl
  | adRaw =>
    exact decodeFields_always_of_convert .wh51 f ⟨[⟨7, 0, 0⟩, ⟨8, 7, 0⟩], 9, none, .raw, .adRaw⟩ (by decide)
      (wh51Of f).ad9.toNat (rawValue_then_byte f ⟨7, 0, 0⟩ 8) rfl rfl
  | _ => exact decodeFields_other .wh51 f _ (by decide)

/-- Settles O29: the battery's five bits give both the millivolts and the fraction's numerator. -/
theorem wh51Record : Obligations.Wh51Record := by
  intro off x s hchecks
  have hvals := decodeFields_wh51 (wh51Bytes x ++ [])
  rw [wh51Of_bytes] at hvals
  exact exec_sound_recordIs (.wh51 off x) ⟨.wh51, off.toNat, wh51Bytes x⟩ s _ rfl hchecks rfl hvals

end Sys2Proof.Machine
end

section
/-! PROOF. The exceptions (spec/60_exceptions.md): what every failing outcome leaves of the outputs and the inputs, and
where `CMD_ILLEGAL` comes from. -/

namespace Sys2Proof.Machine

/-! ### The write of a failing outcome -/

/-- Settles O9: a failure is a raised outcome at every configuration, the defaults among them. -/
theorem failureClearsEveryOutput : Obligations.FailureClearsEveryOutput := by
  intro i s t h
  rw [exec_eq_execWith] at h
  obtain ⟨-, -, hfailed⟩ := execWith_next fpl i s t h
  exact hfailed

/-! ### The illegal command -/

/-- The tail of a transaction ends with the verdict on its frame (spec/43_classifier.md R130). -/
theorem finish_outcome (c : Config) (l : Located) (s : State) :
    (finish c l s).outcome = verdict c l.variant l.frame := by
  by_cases hv : verdict c l.variant l.frame = .ok
  · rw [finish_ok c l s hv, hv]
    rfl
  · rw [finish_fail c l s hv]
    rfl

/-- No verdict on a frame is `CMD_ILLEGAL` (spec/60_exceptions.md R197, R198). -/
theorem verdict_ne_cmdIllegal (c : Config) (v : Variant) (f : List Byte) : verdict c v f ≠ .cmdIllegal := by
  obtain ⟨-, hv⟩ | ⟨-, -, hv⟩ | ⟨-, -, hv⟩ := verdict_cases c v f <;> rw [hv] <;> decide

/-- The first stage stops with `CMD_ILLEGAL` at an oversized `BITCNT` only: no decision tree does
(spec/60_exceptions.md R197). -/
theorem oversized_of_classify_cmdIllegal (c : Config) (e : Entry) (n : Nat) (m : Memory)
    (h : classify c e n m = .error (.outcome .cmdIllegal)) : 8 * c.rowCapBytes < n := by
  obtain ⟨hsize, -⟩ | hlength | hearly := classify_error c e n m _ h
  · exact hsize
  · cases hlength
  · cases hearly

/-- A transaction ends with `CMD_ILLEGAL` at an oversized `BITCNT` only: its tail gives another outcome
(spec/60_exceptions.md R197). -/
theorem oversized_of_transact_cmdIllegal (c : Config) (e : Entry) (s t : State) (h : transact c e s = .next t)
    (ho : t.outcome = .cmdIllegal) : 8 * c.rowCapBytes < s.bitcnt.toNat := by
  cases hc : classify c e s.bitcnt.toNat s.row with
  | ok l =>
    rw [transact_located c e s l hc] at h
    cases h
    rw [finish_outcome] at ho
    exact absurd ho (verdict_ne_cmdIllegal c l.variant l.frame)
  | error x =>
    cases x with
    | outcome o =>
      rw [transact_raised c e s o hc] at h
      cases h
      obtain rfl : o = .cmdIllegal := ho
      exact oversized_of_classify_cmdIllegal c e _ _ hc
    | unwritten k =>
      rw [transact_unwritten c e s k hc] at h
      cases h

/-- A reserved code, whose meaning is the illegal command, ends with `CMD_ILLEGAL` (spec/60_exceptions.md R197). -/
theorem endsWith_of_illegalCommand (i : Instr) (s : State) (h : exec i s = illegalCommand s) :
    EndsWith i .cmdIllegal s :=
  ⟨raise .cmdIllegal s, h, raise_failedWith .cmdIllegal s⟩

/-- Settles O15: the two causes raise the outcome before any row bit is read, and neither the trees nor the checks raise
it. -/
theorem illegalCommandsAndOperands : Obligations.IllegalCommandsAndOperands := by
  refine ⟨fun s => ⟨?_, ?_, ?_⟩, fun e s hsize => ?_, fun e s t h ho => ?_⟩
  · exact endsWith_of_illegalCommand .reserved5 s rfl
  · exact endsWith_of_illegalCommand .reserved6 s rfl
  · exact endsWith_of_illegalCommand .reserved7 s rfl
  · exact endsWith_of_classify e .cmdIllegal s (classify_oversized e _ s.row hsize)
  · rw [exec_commandOf] at h
    exact oversized_of_transact_cmdIllegal fpl e s t h ho

end Sys2Proof.Machine
end

section
/-! PROOF. Reset and hazards (spec/70_reset_and_hazards.md): the reset input, the accesses that `BUSY` forbids, one
instruction after another, and the bytes of `ROW` that hold no value. -/

namespace Sys2Proof.Machine

/-! ### The reset input (R210, R222) -/

/-- The block's reset leaves every output as the state after reset has it (spec/10_state.md R23). -/
theorem resetBlock_sameOutputs (s : State) : SameOutputs State.reset (resetBlock s) :=
  ⟨rfl, rfl, rfl, rfl, rfl, rfl, rfl, rfl⟩

/-- Settles O39: reset is the one access that does not look at `PHASE`. -/
theorem resetInputResetsEveryRegister : Obligations.ResetInputResetsEveryRegister := by
  intro s rest hp
  exact ⟨resetBlock { s with port := rest }, step_access s .reset rest hp, resetBlock_sameOutputs _,
    resetBlock_bitcnt _, resetBlock_row _, resetBlock_port _⟩

/-! ### Accesses in `BUSY` (R217) -/

/-- Settles O47: a write is refused before the map is asked, a read at every offset that the map does not call
`STATUS`. -/
theorem busyAccessesAreRefused : Obligations.BusyAccessesAreRefused := by
  intro s off v rest hbusy
  refine ⟨fun hp => ?write, fun hoff hp => ?read⟩
  case write =>
    rw [step_access s _ rest hp, hostAccess, if_pos hbusy]
  case read =>
    have hstatus : regAt fpl off ≠ .status := fun hreg => hoff (regAt_status off hreg)
    rw [step_access s _ rest hp, hostAccess, if_pos ⟨hbusy, hstatus⟩]

/-! ### One instruction after another (R221) -/

section sameInputs
variable {s t : State} (h : SameInputs s t)
include h

/-- A raised outcome overwrites every output: nothing of the state but its inputs is left. -/
theorem raise_of_sameInputs (o : OutcomeCode) : raise o t = raise o s := by
  obtain ⟨hbitcnt, hrow, hport, hrdata⟩ := h
  rw [raise, raise, hbitcnt, hrow, hport, hrdata]

/-- A committed frame overwrites every output: nothing of the state but its inputs is left. -/
theorem commit_of_sameInputs (l : Located) (len : Nat) (r : Record) : commit l len r t = commit l len r s := by
  obtain ⟨hbitcnt, hrow, hport, hrdata⟩ := h
  rw [commit, commit, hbitcnt, hrow, hport, hrdata]

/-- An instruction answers the same, next state and all, on states that differ in their outputs only, at every
configuration. -/
theorem execWith_of_sameInputs (c : Config) (i : Instr) : execWith c i t = execWith c i s := by
  have ⟨hbitcnt, hrow, _, _⟩ := h
  obtain ⟨o, -, hraised⟩ | ⟨l, hcommitted⟩ | ⟨k, hrefused⟩ := execWith_cases c i s
  · rw [hraised t hbitcnt hrow, hraised s rfl rfl, raise_of_sameInputs h]
  · rw [hcommitted t hbitcnt hrow, hcommitted s rfl rfl, commit_of_sameInputs h]
  · rw [hrefused t hbitcnt hrow, hrefused s rfl rfl]

end sameInputs

/-- Settles O11: the first instruction leaves the inputs, and the second sees nothing else. -/
theorem aSecondCommandReplacesAllOutputs : Obligations.ASecondCommandReplacesAllOutputs := by
  intro i j s t hi
  obtain ⟨-, hinputs⟩ := (exec_next i s t hi).done_sameInputs
  have hsecond : exec j t = exec j s := by
    rw [exec_eq_execWith, exec_eq_execWith, execWith_of_sameInputs hinputs]
  exact ⟨hsecond, fun u hu => failureClearsEveryOutput j s u (hsecond ▸ hu)⟩

/-! ### Rows that hold a value below `BITCNT` (R211, R212) -/

/-- Settles O13: an instruction ends in an output write or in a refusal, and the refusal names its byte. -/
theorem refusalsNameAnUnwrittenRowByte : Obligations.RefusalsNameAnUnwrittenRowByte := by
  intro i s
  obtain ⟨t, hnext, -⟩ | ⟨k, hrefused, hnone, hbelow⟩ := exec_cases i s
  · rw [hnext]
    exact ⟨fun _ => nofun, fun _ => nofun⟩
  · rw [hrefused]
    refine ⟨fun _ => nofun, fun r hr => ⟨k, ?_, hnone, hbelow⟩⟩
    injection hr with hr
    exact hr.symm

/-- Settles O7: on a written row no byte is left to refuse at, and an oversized `BITCNT` is the one cause of
`CMD_ILLEGAL`. -/
theorem commandsCompleteOnWrittenRows : Obligations.CommandsCompleteOnWrittenRows := by
  intro e s hle hwritten
  obtain ⟨t, hnext, hwrite⟩ | ⟨k, -, hnone, hbelow⟩ := exec_cases (commandOf e) s
  · obtain ⟨hdone, -⟩ := hwrite.done_sameInputs
    obtain ⟨-, -, honly⟩ := illegalCommandsAndOperands
    exact ⟨t, hnext, hdone, fun hillegal => Nat.not_lt.2 hle (honly e s t hnext hillegal)⟩
  · have hsome := hwritten k hbelow
    rw [hnone] at hsome
    cases hsome

/-! ### Reading an unwritten first byte (R212) -/

/-- A read stops at its first bit where the byte of that bit holds no value. -/
theorem rowRead_unwrittenFirst (m : Memory) (off w : Nat) (hw : 0 < w) (h : Memory.read m (off / 8) = none) :
    rowRead m off w = .error (.unwritten (off / 8)) := by
  induction w, hw using Nat.le_induction with
  | base =>
    rw [rowRead_succ, rowRead_zero, Nat.add_zero, rowBit_unwritten m off h]
    rfl
  | succ w _ ih =>
    rw [rowRead_succ, ih]
    rfl

section firstByte
variable (m : Memory) (h : Memory.read m 0 = none)
include h

/-- A header at the start of the row stops whatever follows it. -/
theorem headerTest_bind_unwritten {α : Type} (w value : Nat) (hw : 0 < w) (next : Unit → Except Stop α) :
    (headerTest m 0 w value).bind next = .error (.unwritten 0) := by
  rw [headerTest_eq, rowRead_unwrittenFirst m 0 w hw h]
  rfl

/-- The preamble search stops at its first index (spec/40_locator.md R91). -/
theorem locateFsk_unwritten (n len : Nat) (hn : 24 ≤ n) : locateFsk fpl n m len = .error (.unwritten 0) := by
  rw [locateFsk_eq, locatePreamble, searchPreamble_succ, if_pos (by omega),
    rowRead_unwrittenFirst m 0 24 (by omega) h]
  rfl

/-- `E_WH2` stops at its header, at every length it knows. -/
theorem treeWh2_unwritten (n : Nat) (hn : n ∈ [47, 48, 49, 55]) : treeWh2 fpl n m = .error (.unwritten 0) := by
  obtain rfl | rfl | rfl | rfl : n = 47 ∨ n = 48 ∨ n = 49 ∨ n = 55 := by simpa using hn
  · exact headerTest_bind_unwritten m h 8 0xFE (by omega) _
  · exact headerTest_bind_unwritten m h 8 0xFF (by omega) _
  · exact headerTest_bind_unwritten m h 8 0xFF (by omega) _
  · exact headerTest_bind_unwritten m h 8 0xFE (by omega) _

/-- `E_WH0530` stops at its seven ones, at every length it knows. -/
theorem treeWh0530_unwritten (n : Nat) (hn : n ∈ [63, 71, 95]) : treeWh0530 fpl n m = .error (.unwritten 0) := by
  obtain rfl | rfl | rfl : n = 63 ∨ n = 71 ∨ n = 95 := by simpa using hn
  all_goals exact headerTest_bind_unwritten m h 7 0x7F (by omega) _

/-- `E_WH24` stops in its search, at every length it knows. -/
theorem treeWh24_unwritten (n : Nat) (hlow : 190 ≤ n) (hhigh : n ≤ 215) :
    treeWh24 fpl n m = .error (.unwritten 0) :=
  treeWh24_of_stop n m hlow hhigh _ (locateFsk_unwritten m h n 17 (by omega))

/-- `E_WH25` stops in its search, or in that of `E_WH24` at the lengths that it leaves to it. -/
theorem treeWh25_unwritten (n : Nat) (hn : 24 ≤ n) (hgap : ¬ (216 ≤ n ∧ n ≤ 439)) :
    treeWh25 fpl n m = .error (.unwritten 0) := by
  by_cases hmiddle : 190 ≤ n ∧ n < 440
  · obtain ⟨hlow, hhigh⟩ := hmiddle
    exact (treeWh25_middle n m hlow hhigh).trans (treeWh24_unwritten m h n hlow (by omega))
  · exact treeWh25_of_stop n m _ hmiddle (locateFsk_unwritten m h n 8 hn)

/-- `E_WH51` stops in its search. -/
theorem treeWh51_unwritten (n : Nat) (hn : 24 ≤ n) : treeWh51 fpl n m = .error (.unwritten 0) :=
  treeWh51_of_stop n m _ (locateFsk_unwritten m h n 11 hn)

end firstByte

/-- A command whose tree reads a byte that holds no value is refused there. -/
theorem refused_of_tree (e : Entry) (s : State) (k : Nat) (hle : s.bitcnt.toNat ≤ 1024)
    (h : classifyTree fpl e s.bitcnt.toNat s.row = .error (.unwritten k)) :
    exec (commandOf e) s = .refused (.unwrittenRow k) :=
  (exec_commandOf e s).trans (transact_unwritten fpl e s k ((classify_tree e _ s.row hle).trans h))

/-- Settles O14: each tree reads the row from its first bit on. -/
theorem unwrittenFirstByteIsRefused : Obligations.UnwrittenFirstByteIsRefused := by
  intro s h
  refine ⟨fun hn => ?wh2, fun hn => ?wh0530, fun hlow hhigh => ?wh24, fun hn hle hgap => ?wh25, fun hn hle => ?wh51⟩
  case wh2 =>
    have hle : ∀ n ∈ [47, 48, 49, 55], n ≤ 1024 := by decide
    exact refused_of_tree .wh2 s 0 (hle _ hn) (treeWh2_unwritten s.row h _ hn)
  case wh0530 =>
    have hle : ∀ n ∈ [63, 71, 95], n ≤ 1024 := by decide
    exact refused_of_tree .wh0530 s 0 (hle _ hn) (treeWh0530_unwritten s.row h _ hn)
  case wh24 => exact refused_of_tree .wh24 s 0 (by omega) (treeWh24_unwritten s.row h _ hlow hhigh)
  case wh25 => exact refused_of_tree .wh25 s 0 hle (treeWh25_unwritten s.row h _ hn hgap)
  case wh51 => exact refused_of_tree .wh51 s 0 hle (treeWh51_unwritten s.row h _ hn)

end Sys2Proof.Machine
end
